-- ==== Sys2Proof/Word.lean ====
section
/-! DEFINITION. The word types of the block (spec/00_scope.md R7, R10). -/

namespace Sys2Proof

/-- A register, PC or ALU value: XLEN is 64 bits (R7, R10). -/
abbrev Word := BitVec 64

/-- A byte address; every one of the 2^64 addresses is nameable (20_memory.md R52). -/
abbrev Addr := BitVec 64

/-- A byte of the Memory Store (20_memory.md R50). -/
abbrev Byte := BitVec 8

/-- A fetched instruction word (30_encoding.md R80). -/
abbrev Word32 := BitVec 32

/-- A register number field, 0 to 31 (10_state.md R20; 30_encoding.md R81). -/
abbrev RegIdx := BitVec 5

end Sys2Proof
end

