-- ==== Sys2Proof/Config.lean ====
section
/-! DEFINITION. What is fixed for the machine and not state: the open host parameters of
spec/00_scope.md R8 that no step reads, and the byte an unlisted memory address reads as. -/

namespace Sys2Proof.Config

/-- What a byte of memory that `Memory` does not list reads as.
DESIGN CHOICE (log entry 1), unsafe: the spec leaves `mem_init` open (20_memory.md R60, D4). -/
def unlistedByte : Byte := 0

/-- Free value: fixes the host's load-failure exit code (60_exceptions.md R417; log entry 7). -/
opaque loadFailureSeed : Nat

/-- Free value: fixes the host's illegal-instruction exit code (60_exceptions.md R417; log entry 7). -/
opaque exitIllegalSeed : Nat

/-- The host's exit code on a startup or load failure: non-zero, otherwise free (R417). -/
def exitLoadFailure : Nat := loadFailureSeed + 1

/-- `exit_illegal` of R8 and R417: non-zero and distinct from the load-failure code, otherwise free. -/
def exitIllegal : Nat :=
  if exitIllegalSeed < loadFailureSeed then exitIllegalSeed + 1 else exitIllegalSeed + 2

/-- The host's exit code on halt (R417). -/
def exitHalt : Nat := 0

end Sys2Proof.Config
end

