-- ==== Sys2Proof/Syntax.lean ====
section
/-! DEFINITION. The 50 instructions of spec/opcode_table.json as syntax.
Operands stand as the encoding's fields: a 12-bit I or S immediate, a 13-bit branch offset, a
20-bit upper immediate, a 21-bit jump offset, a 6- or 5-bit shift amount (30_encoding.md R84 to
R89). They are extended to 64 bits where they are used (Machine/Operands.lean). -/

namespace Sys2Proof

/-- One constructor per row of the opcode table. -/
inductive Instr where
  -- OP-IMM, R200 to R208
  | addi  (rd rs1 : RegIdx) (imm : BitVec 12)
  | slti  (rd rs1 : RegIdx) (imm : BitVec 12)
  | sltiu (rd rs1 : RegIdx) (imm : BitVec 12)
  | xori  (rd rs1 : RegIdx) (imm : BitVec 12)
  | ori   (rd rs1 : RegIdx) (imm : BitVec 12)
  | andi  (rd rs1 : RegIdx) (imm : BitVec 12)
  | slli  (rd rs1 : RegIdx) (shamt : BitVec 6)
  | srli  (rd rs1 : RegIdx) (shamt : BitVec 6)
  | srai  (rd rs1 : RegIdx) (shamt : BitVec 6)
  -- OP, R230 to R239
  | add   (rd rs1 rs2 : RegIdx)
  | sub   (rd rs1 rs2 : RegIdx)
  | sll   (rd rs1 rs2 : RegIdx)
  | slt   (rd rs1 rs2 : RegIdx)
  | sltu  (rd rs1 rs2 : RegIdx)
  | xor   (rd rs1 rs2 : RegIdx)
  | srl   (rd rs1 rs2 : RegIdx)
  | sra   (rd rs1 rs2 : RegIdx)
  | or    (rd rs1 rs2 : RegIdx)
  | and   (rd rs1 rs2 : RegIdx)
  -- OP-IMM-32, R260 to R263
  | addiw (rd rs1 : RegIdx) (imm : BitVec 12)
  | slliw (rd rs1 : RegIdx) (shamt : BitVec 5)
  | srliw (rd rs1 : RegIdx) (shamt : BitVec 5)
  | sraiw (rd rs1 : RegIdx) (shamt : BitVec 5)
  -- OP-32, R264 to R268
  | addw  (rd rs1 rs2 : RegIdx)
  | subw  (rd rs1 rs2 : RegIdx)
  | sllw  (rd rs1 rs2 : RegIdx)
  | srlw  (rd rs1 rs2 : RegIdx)
  | sraw  (rd rs1 rs2 : RegIdx)
  -- LUI, AUIPC, R290, R291
  | lui   (rd : RegIdx) (imm20 : BitVec 20)
  | auipc (rd : RegIdx) (imm20 : BitVec 20)
  -- JAL, JALR, R310, R311
  | jal   (rd : RegIdx) (offset : BitVec 21)
  | jalr  (rd rs1 : RegIdx) (imm : BitVec 12)
  -- BRANCH, R312 to R317
  | beq   (rs1 rs2 : RegIdx) (offset : BitVec 13)
  | bne   (rs1 rs2 : RegIdx) (offset : BitVec 13)
  | blt   (rs1 rs2 : RegIdx) (offset : BitVec 13)
  | bge   (rs1 rs2 : RegIdx) (offset : BitVec 13)
  | bltu  (rs1 rs2 : RegIdx) (offset : BitVec 13)
  | bgeu  (rs1 rs2 : RegIdx) (offset : BitVec 13)
  -- LOAD, R340 to R346
  | lb    (rd rs1 : RegIdx) (imm : BitVec 12)
  | lh    (rd rs1 : RegIdx) (imm : BitVec 12)
  | lw    (rd rs1 : RegIdx) (imm : BitVec 12)
  | ld    (rd rs1 : RegIdx) (imm : BitVec 12)
  | lbu   (rd rs1 : RegIdx) (imm : BitVec 12)
  | lhu   (rd rs1 : RegIdx) (imm : BitVec 12)
  | lwu   (rd rs1 : RegIdx) (imm : BitVec 12)
  -- STORE, R347 to R350: the base register first, then the stored register
  | sb    (rs1 rs2 : RegIdx) (imm : BitVec 12)
  | sh    (rs1 rs2 : RegIdx) (imm : BitVec 12)
  | sw    (rs1 rs2 : RegIdx) (imm : BitVec 12)
  | sd    (rs1 rs2 : RegIdx) (imm : BitVec 12)
  -- the halt sentinel, R97
  | halt
deriving DecidableEq, Repr

end Sys2Proof
end

