-- ==== Sys2Proof/WellFormed.lean ====
section
/-! DEFINITION. Which terms of `Instr` an encoding exists for: a branch or jal offset is even
(30_encoding.md R86, R88, R104). Every other field is exactly as wide as its operand. -/

namespace Sys2Proof

/-- An offset the SB and UJ formats can hold: bit 0 is not encoded and is 0 (R86, R88). -/
def evenOffset {n : Nat} (offset : BitVec n) : Bool := offset.getLsbD 0 == false

/-- The check, one arm per instruction. -/
def Instr.wellFormed : Instr → Bool
  | .addi _ _ _ | .slti _ _ _ | .sltiu _ _ _ | .xori _ _ _ | .ori _ _ _ | .andi _ _ _ => true
  | .slli _ _ _ | .srli _ _ _ | .srai _ _ _ => true
  | .add _ _ _ | .sub _ _ _ | .sll _ _ _ | .slt _ _ _ | .sltu _ _ _ => true
  | .xor _ _ _ | .srl _ _ _ | .sra _ _ _ | .or _ _ _ | .and _ _ _ => true
  | .addiw _ _ _ | .slliw _ _ _ | .srliw _ _ _ | .sraiw _ _ _ => true
  | .addw _ _ _ | .subw _ _ _ | .sllw _ _ _ | .srlw _ _ _ | .sraw _ _ _ => true
  | .lui _ _ | .auipc _ _ => true
  | .jal _ offset => evenOffset offset
  | .jalr _ _ _ => true
  | .beq _ _ offset => evenOffset offset
  | .bne _ _ offset => evenOffset offset
  | .blt _ _ offset => evenOffset offset
  | .bge _ _ offset => evenOffset offset
  | .bltu _ _ offset => evenOffset offset
  | .bgeu _ _ offset => evenOffset offset
  | .lb _ _ _ | .lh _ _ _ | .lw _ _ _ | .ld _ _ _ | .lbu _ _ _ | .lhu _ _ _ | .lwu _ _ _ => true
  | .sb _ _ _ | .sh _ _ _ | .sw _ _ _ | .sd _ _ _ => true
  | .halt => true

/-- A well-formed instruction. -/
abbrev Instr.WellFormed (i : Instr) : Prop := i.wellFormed = true

end Sys2Proof
end

