-- ==== Sys2Proof/Decode.lean ====
section
/-! DEFINITION. The decode ROM (spec/30_encoding.md): field positions, immediates, the lookup of
R95, the decoder on a word and on bytes, and the encoder from the format table of R82. -/

namespace Sys2Proof

/-! ### Fields of a word (R81) -/

def opcodeOf (raw : Word32) : BitVec 7 := raw.extractLsb' 0 7
def rdOf (raw : Word32) : RegIdx := raw.extractLsb' 7 5
def funct3Of (raw : Word32) : BitVec 3 := raw.extractLsb' 12 3
def rs1Of (raw : Word32) : RegIdx := raw.extractLsb' 15 5
def rs2Of (raw : Word32) : RegIdx := raw.extractLsb' 20 5
def funct7Of (raw : Word32) : BitVec 7 := raw.extractLsb' 25 7
/-- The discriminator of the OP-IMM shifts (R89). -/
def funct6Of (raw : Word32) : BitVec 6 := raw.extractLsb' 26 6
/-- The amount of the OP-IMM shifts (R89). -/
def shamt6Of (raw : Word32) : BitVec 6 := raw.extractLsb' 20 6
/-- The amount of the OP-IMM-32 shifts (R89). -/
def shamt5Of (raw : Word32) : BitVec 5 := raw.extractLsb' 20 5

/-! ### Immediates, before sign extension (R84 to R88) -/

def immIOf (raw : Word32) : BitVec 12 := raw.extractLsb' 20 12
def immSOf (raw : Word32) : BitVec 12 := raw.extractLsb' 25 7 ++ raw.extractLsb' 7 5
def immBOf (raw : Word32) : BitVec 13 :=
  raw.extractLsb' 31 1 ++ raw.extractLsb' 7 1 ++ raw.extractLsb' 25 6 ++ raw.extractLsb' 8 4 ++ 0#1
def immUOf (raw : Word32) : BitVec 20 := raw.extractLsb' 12 20
def immJOf (raw : Word32) : BitVec 21 :=
  raw.extractLsb' 31 1 ++ raw.extractLsb' 12 8 ++ raw.extractLsb' 20 1 ++ raw.extractLsb' 21 10 ++ 0#1

/-! ### Major opcodes and formats (R82, R83, R90) -/

/-- The eleven major opcodes with a decode-table entry (R90). -/
inductive Major where
  | load | opImm | auipc | opImm32 | store | op | lui | op32 | branch | jalr | jal
deriving DecidableEq, Repr

/-- The six formats (R82). -/
inductive Format where
  | R | I | S | SB | U | UJ
deriving DecidableEq, Repr

/-- raw[6:0] to its major opcode; every other value has no table entry (R90). -/
def majorOf (opcode : BitVec 7) : Option Major :=
  match opcode with
  | 0b0000011#7 => some .load
  | 0b0010011#7 => some .opImm
  | 0b0010111#7 => some .auipc
  | 0b0011011#7 => some .opImm32
  | 0b0100011#7 => some .store
  | 0b0110011#7 => some .op
  | 0b0110111#7 => some .lui
  | 0b0111011#7 => some .op32
  | 0b1100011#7 => some .branch
  | 0b1100111#7 => some .jalr
  | 0b1101111#7 => some .jal
  | _ => none

/-- The opcode value of a major opcode, for the encoder (R90). -/
def Major.code : Major → BitVec 7
  | .load => 0b0000011
  | .opImm => 0b0010011
  | .auipc => 0b0010111
  | .opImm32 => 0b0011011
  | .store => 0b0100011
  | .op => 0b0110011
  | .lui => 0b0110111
  | .op32 => 0b0111011
  | .branch => 0b1100011
  | .jalr => 0b1100111
  | .jal => 0b1101111

/-- The format of each major opcode (R90). -/
def Major.format : Major → Format
  | .op | .op32 => .R
  | .opImm | .opImm32 | .load | .jalr => .I
  | .store => .S
  | .branch => .SB
  | .lui | .auipc => .U
  | .jal => .UJ

/-! Which fields a format defines (R83). -/

def Format.definesRd : Format → Bool
  | .R | .I | .U | .UJ => true
  | .S | .SB => false
def Format.definesFunct3 : Format → Bool
  | .R | .I | .S | .SB => true
  | .U | .UJ => false
def Format.definesRs1 : Format → Bool
  | .R | .I | .S | .SB => true
  | .U | .UJ => false
def Format.definesRs2 : Format → Bool
  | .R | .S | .SB => true
  | .I | .U | .UJ => false
def Format.definesFunct7 : Format → Bool
  | .R => true
  | .I | .S | .SB | .U | .UJ => false

/-! ### The lookup (R91 to R95) -/

/-- The instruction kinds of the decode table's legal cells: the 49 instructions (R2, R101). -/
inductive Kind where
  | addi | slti | sltiu | xori | ori | andi | slli | srli | srai
  | add | sub | sll | slt | sltu | xor | srl | sra | or | and
  | addiw | slliw | srliw | sraiw
  | addw | subw | sllw | srlw | sraw
  | lui | auipc | jal | jalr
  | beq | bne | blt | bge | bltu | bgeu
  | lb | lh | lw | ld | lbu | lhu | lwu
  | sb | sh | sw | sd
deriving DecidableEq, Repr

/-- Table A's row of an opcode: its eight cells, funct3 = 000 to 111 (R91). The shift cells (R93) and
the opcodes of R92 and R94 hold nothing here. -/
def rowA : Major → List (Option Kind)
  | .load => [some .lb, some .lh, some .lw, some .ld, some .lbu, some .lhu, some .lwu, none]
  | .opImm => [some .addi, none, some .slti, some .sltiu, some .xori, none, some .ori, some .andi]
  | .opImm32 => [some .addiw, none, none, none, none, none, none, none]
  | .store => [some .sb, some .sh, some .sw, some .sd, none, none, none, none]
  | .branch => [some .beq, some .bne, none, none, some .blt, some .bge, some .bltu, some .bgeu]
  | .jalr => [some .jalr, none, none, none, none, none, none, none]
  | .auipc | .lui | .jal | .op | .op32 => []

/-- Table A, indexed by opcode and funct3 (R91). -/
def tableA (m : Major) (f3 : BitVec 3) : Option Kind := (rowA m).getD f3.toNat none

/-- Table B's cells of an opcode for funct7 = 0000000, funct3 = 000 to 111 (R92). -/
def rowB0 : Major → List (Option Kind)
  | .op => [some .add, some .sll, some .slt, some .sltu, some .xor, some .srl, some .or, some .and]
  | .op32 => [some .addw, some .sllw, none, none, none, some .srlw, none, none]
  | .load | .opImm | .auipc | .opImm32 | .store | .lui | .branch | .jalr | .jal => []

/-- Table B's cells of an opcode for funct7 = 0100000 (R92). -/
def rowB32 : Major → List (Option Kind)
  | .op => [some .sub, none, none, none, none, some .sra, none, none]
  | .op32 => [some .subw, none, none, none, none, some .sraw, none, none]
  | .load | .opImm | .auipc | .opImm32 | .store | .lui | .branch | .jalr | .jal => []

/-- Table B, indexed by opcode, funct3 and funct7, for OP and OP-32 (R92). -/
def tableB (m : Major) (f3 : BitVec 3) (f7 : BitVec 7) : Option Kind :=
  if f7 = 0b0000000 then (rowB0 m).getD f3.toNat none
  else if f7 = 0b0100000 then (rowB32 m).getD f3.toNat none
  else none

/-- The OP-IMM shift cells, keyed also by funct6 (R93). -/
def shiftImm64 (f3 : BitVec 3) (f6 : BitVec 6) : Option Kind :=
  if f3 = 0b001 then
    if f6 = 0b000000 then some .slli else none
  else if f6 = 0b000000 then some .srli
  else if f6 = 0b010000 then some .srai
  else none

/-- The OP-IMM-32 shift cells, keyed also by funct7 (R93). -/
def shiftImm32 (f3 : BitVec 3) (f7 : BitVec 7) : Option Kind :=
  if f3 = 0b001 then
    if f7 = 0b0000000 then some .slliw else none
  else if f7 = 0b0000000 then some .srliw
  else if f7 = 0b0100000 then some .sraiw
  else none

/-- The two cells of OP-IMM and of OP-IMM-32 that hold shifts (R93). -/
def isShiftCell (f3 : BitVec 3) : Bool := f3 == 0b001 || f3 == 0b101

/-- R95: the total lookup on a word; `none` is ILLEGAL. The halt test comes before it (R97). -/
def lookup (raw : Word32) : Option Kind :=
  match majorOf (opcodeOf raw) with
  | none => none
  | some .op => tableB .op (funct3Of raw) (funct7Of raw)
  | some .op32 => tableB .op32 (funct3Of raw) (funct7Of raw)
  | some .lui => some .lui
  | some .auipc => some .auipc
  | some .jal => some .jal
  | some .opImm =>
    if isShiftCell (funct3Of raw) then shiftImm64 (funct3Of raw) (funct6Of raw)
    else tableA .opImm (funct3Of raw)
  | some .opImm32 =>
    if isShiftCell (funct3Of raw) then shiftImm32 (funct3Of raw) (funct7Of raw)
    else tableA .opImm32 (funct3Of raw)
  | some .load => tableA .load (funct3Of raw)
  | some .store => tableA .store (funct3Of raw)
  | some .branch => tableA .branch (funct3Of raw)
  | some .jalr => tableA .jalr (funct3Of raw)

/-! ### The decoder -/

/-- The halt sentinel (R97). -/
def haltWord : Word32 := 0xFEEDFEED

/-- The canonical NOP, `addi x0, x0, 0` (R98). -/
def nopWord : Word32 := 0x00000013

/-- The instruction of a kind with its operands taken from the word (R81, R84 to R89). -/
def withOperands (k : Kind) (raw : Word32) : Instr :=
  match k with
  | .addi => .addi (rdOf raw) (rs1Of raw) (immIOf raw)
  | .slti => .slti (rdOf raw) (rs1Of raw) (immIOf raw)
  | .sltiu => .sltiu (rdOf raw) (rs1Of raw) (immIOf raw)
  | .xori => .xori (rdOf raw) (rs1Of raw) (immIOf raw)
  | .ori => .ori (rdOf raw) (rs1Of raw) (immIOf raw)
  | .andi => .andi (rdOf raw) (rs1Of raw) (immIOf raw)
  | .slli => .slli (rdOf raw) (rs1Of raw) (shamt6Of raw)
  | .srli => .srli (rdOf raw) (rs1Of raw) (shamt6Of raw)
  | .srai => .srai (rdOf raw) (rs1Of raw) (shamt6Of raw)
  | .add => .add (rdOf raw) (rs1Of raw) (rs2Of raw)
  | .sub => .sub (rdOf raw) (rs1Of raw) (rs2Of raw)
  | .sll => .sll (rdOf raw) (rs1Of raw) (rs2Of raw)
  | .slt => .slt (rdOf raw) (rs1Of raw) (rs2Of raw)
  | .sltu => .sltu (rdOf raw) (rs1Of raw) (rs2Of raw)
  | .xor => .xor (rdOf raw) (rs1Of raw) (rs2Of raw)
  | .srl => .srl (rdOf raw) (rs1Of raw) (rs2Of raw)
  | .sra => .sra (rdOf raw) (rs1Of raw) (rs2Of raw)
  | .or => .or (rdOf raw) (rs1Of raw) (rs2Of raw)
  | .and => .and (rdOf raw) (rs1Of raw) (rs2Of raw)
  | .addiw => .addiw (rdOf raw) (rs1Of raw) (immIOf raw)
  | .slliw => .slliw (rdOf raw) (rs1Of raw) (shamt5Of raw)
  | .srliw => .srliw (rdOf raw) (rs1Of raw) (shamt5Of raw)
  | .sraiw => .sraiw (rdOf raw) (rs1Of raw) (shamt5Of raw)
  | .addw => .addw (rdOf raw) (rs1Of raw) (rs2Of raw)
  | .subw => .subw (rdOf raw) (rs1Of raw) (rs2Of raw)
  | .sllw => .sllw (rdOf raw) (rs1Of raw) (rs2Of raw)
  | .srlw => .srlw (rdOf raw) (rs1Of raw) (rs2Of raw)
  | .sraw => .sraw (rdOf raw) (rs1Of raw) (rs2Of raw)
  | .lui => .lui (rdOf raw) (immUOf raw)
  | .auipc => .auipc (rdOf raw) (immUOf raw)
  | .jal => .jal (rdOf raw) (immJOf raw)
  | .jalr => .jalr (rdOf raw) (rs1Of raw) (immIOf raw)
  | .beq => .beq (rs1Of raw) (rs2Of raw) (immBOf raw)
  | .bne => .bne (rs1Of raw) (rs2Of raw) (immBOf raw)
  | .blt => .blt (rs1Of raw) (rs2Of raw) (immBOf raw)
  | .bge => .bge (rs1Of raw) (rs2Of raw) (immBOf raw)
  | .bltu => .bltu (rs1Of raw) (rs2Of raw) (immBOf raw)
  | .bgeu => .bgeu (rs1Of raw) (rs2Of raw) (immBOf raw)
  | .lb => .lb (rdOf raw) (rs1Of raw) (immIOf raw)
  | .lh => .lh (rdOf raw) (rs1Of raw) (immIOf raw)
  | .lw => .lw (rdOf raw) (rs1Of raw) (immIOf raw)
  | .ld => .ld (rdOf raw) (rs1Of raw) (immIOf raw)
  | .lbu => .lbu (rdOf raw) (rs1Of raw) (immIOf raw)
  | .lhu => .lhu (rdOf raw) (rs1Of raw) (immIOf raw)
  | .lwu => .lwu (rdOf raw) (rs1Of raw) (immIOf raw)
  | .sb => .sb (rs1Of raw) (rs2Of raw) (immSOf raw)
  | .sh => .sh (rs1Of raw) (rs2Of raw) (immSOf raw)
  | .sw => .sw (rs1Of raw) (rs2Of raw) (immSOf raw)
  | .sd => .sd (rs1Of raw) (rs2Of raw) (immSOf raw)

/-- Why bytes do not decode. -/
inductive DecodeError where
  /-- Fewer than the four bytes of an instruction (R80). -/
  | truncated (have_ : Nat)
  /-- The word has no decode-table entry and is not the halt sentinel (R96). -/
  | illegalWord (raw : Word32)
deriving DecidableEq, Repr

/-- Decode a word: the halt test on all 32 bits, then the lookup (R97, 40_pipeline.md R133, R136). -/
def decode (raw : Word32) : Except DecodeError Instr :=
  if raw = haltWord then .ok .halt
  else
    match lookup raw with
    | some k => .ok (withOperands k raw)
    | none => .error (.illegalWord raw)

/-- The little-endian word of four bytes, the first least significant (20_memory.md R53). -/
def wordOfBytes (b0 b1 b2 b3 : Byte) : Word32 := b3 ++ b2 ++ b1 ++ b0

/-- The four bytes of a word in address order (20_memory.md R53). -/
def bytesOfWord (raw : Word32) : List Byte :=
  [raw.extractLsb' 0 8, raw.extractLsb' 8 8, raw.extractLsb' 16 8, raw.extractLsb' 24 8]

/-- Decode the instruction at the head of any list of bytes; the rest is what follows it. -/
def decodeBytes : List Byte → Except DecodeError (Instr × List Byte)
  | b0 :: b1 :: b2 :: b3 :: rest =>
    match decode (wordOfBytes b0 b1 b2 b3) with
    | .ok i => .ok (i, rest)
    | .error e => .error e
  | bytes => .error (.truncated bytes.length)

/-- The word a table row's bits stand for: the bits from `nbits` up are 0. -/
def tableWord (nbits w : Nat) : Word32 := BitVec.ofNat 32 (w % 2 ^ nbits)

/-- The instruction the decoder reads from a word numbered as spec/opcode_table.json numbers it. -/
def decodeTableWord (nbits w : Nat) : Option Instr :=
  match decodeBytes (bytesOfWord (tableWord nbits w)) with
  | .ok (i, _) => some i
  | .error _ => none

/-! ### The encoder (R82) -/

def encodeR (f7 : BitVec 7) (rs2 rs1 : RegIdx) (f3 : BitVec 3) (rd : RegIdx) (m : Major) : Word32 :=
  f7 ++ rs2 ++ rs1 ++ f3 ++ rd ++ m.code
def encodeI (imm : BitVec 12) (rs1 : RegIdx) (f3 : BitVec 3) (rd : RegIdx) (m : Major) : Word32 :=
  imm ++ rs1 ++ f3 ++ rd ++ m.code
def encodeShift6 (f6 shamt : BitVec 6) (rs1 : RegIdx) (f3 : BitVec 3) (rd : RegIdx) : Word32 :=
  f6 ++ shamt ++ rs1 ++ f3 ++ rd ++ Major.opImm.code
def encodeShift5 (f7 : BitVec 7) (shamt : BitVec 5) (rs1 : RegIdx) (f3 : BitVec 3) (rd : RegIdx) : Word32 :=
  f7 ++ shamt ++ rs1 ++ f3 ++ rd ++ Major.opImm32.code
def encodeS (imm : BitVec 12) (rs2 rs1 : RegIdx) (f3 : BitVec 3) : Word32 :=
  imm.extractLsb' 5 7 ++ rs2 ++ rs1 ++ f3 ++ imm.extractLsb' 0 5 ++ Major.store.code
def encodeSB (imm : BitVec 13) (rs2 rs1 : RegIdx) (f3 : BitVec 3) : Word32 :=
  imm.extractLsb' 12 1 ++ imm.extractLsb' 5 6 ++ rs2 ++ rs1 ++ f3
    ++ imm.extractLsb' 1 4 ++ imm.extractLsb' 11 1 ++ Major.branch.code
def encodeU (imm20 : BitVec 20) (rd : RegIdx) (m : Major) : Word32 :=
  imm20 ++ rd ++ m.code
def encodeUJ (imm : BitVec 21) (rd : RegIdx) : Word32 :=
  imm.extractLsb' 20 1 ++ imm.extractLsb' 1 10 ++ imm.extractLsb' 11 1 ++ imm.extractLsb' 12 8
    ++ rd ++ Major.jal.code

/-- The word of an instruction (R82, R90 to R94, R97). -/
def encode : Instr → Word32
  | .addi rd rs1 imm => encodeI imm rs1 0b000 rd .opImm
  | .slti rd rs1 imm => encodeI imm rs1 0b010 rd .opImm
  | .sltiu rd rs1 imm => encodeI imm rs1 0b011 rd .opImm
  | .xori rd rs1 imm => encodeI imm rs1 0b100 rd .opImm
  | .ori rd rs1 imm => encodeI imm rs1 0b110 rd .opImm
  | .andi rd rs1 imm => encodeI imm rs1 0b111 rd .opImm
  | .slli rd rs1 shamt => encodeShift6 0b000000 shamt rs1 0b001 rd
  | .srli rd rs1 shamt => encodeShift6 0b000000 shamt rs1 0b101 rd
  | .srai rd rs1 shamt => encodeShift6 0b010000 shamt rs1 0b101 rd
  | .add rd rs1 rs2 => encodeR 0b0000000 rs2 rs1 0b000 rd .op
  | .sub rd rs1 rs2 => encodeR 0b0100000 rs2 rs1 0b000 rd .op
  | .sll rd rs1 rs2 => encodeR 0b0000000 rs2 rs1 0b001 rd .op
  | .slt rd rs1 rs2 => encodeR 0b0000000 rs2 rs1 0b010 rd .op
  | .sltu rd rs1 rs2 => encodeR 0b0000000 rs2 rs1 0b011 rd .op
  | .xor rd rs1 rs2 => encodeR 0b0000000 rs2 rs1 0b100 rd .op
  | .srl rd rs1 rs2 => encodeR 0b0000000 rs2 rs1 0b101 rd .op
  | .sra rd rs1 rs2 => encodeR 0b0100000 rs2 rs1 0b101 rd .op
  | .or rd rs1 rs2 => encodeR 0b0000000 rs2 rs1 0b110 rd .op
  | .and rd rs1 rs2 => encodeR 0b0000000 rs2 rs1 0b111 rd .op
  | .addiw rd rs1 imm => encodeI imm rs1 0b000 rd .opImm32
  | .slliw rd rs1 shamt => encodeShift5 0b0000000 shamt rs1 0b001 rd
  | .srliw rd rs1 shamt => encodeShift5 0b0000000 shamt rs1 0b101 rd
  | .sraiw rd rs1 shamt => encodeShift5 0b0100000 shamt rs1 0b101 rd
  | .addw rd rs1 rs2 => encodeR 0b0000000 rs2 rs1 0b000 rd .op32
  | .subw rd rs1 rs2 => encodeR 0b0100000 rs2 rs1 0b000 rd .op32
  | .sllw rd rs1 rs2 => encodeR 0b0000000 rs2 rs1 0b001 rd .op32
  | .srlw rd rs1 rs2 => encodeR 0b0000000 rs2 rs1 0b101 rd .op32
  | .sraw rd rs1 rs2 => encodeR 0b0100000 rs2 rs1 0b101 rd .op32
  | .lui rd imm20 => encodeU imm20 rd .lui
  | .auipc rd imm20 => encodeU imm20 rd .auipc
  | .jal rd offset => encodeUJ offset rd
  | .jalr rd rs1 imm => encodeI imm rs1 0b000 rd .jalr
  | .beq rs1 rs2 offset => encodeSB offset rs2 rs1 0b000
  | .bne rs1 rs2 offset => encodeSB offset rs2 rs1 0b001
  | .blt rs1 rs2 offset => encodeSB offset rs2 rs1 0b100
  | .bge rs1 rs2 offset => encodeSB offset rs2 rs1 0b101
  | .bltu rs1 rs2 offset => encodeSB offset rs2 rs1 0b110
  | .bgeu rs1 rs2 offset => encodeSB offset rs2 rs1 0b111
  | .lb rd rs1 imm => encodeI imm rs1 0b000 rd .load
  | .lh rd rs1 imm => encodeI imm rs1 0b001 rd .load
  | .lw rd rs1 imm => encodeI imm rs1 0b010 rd .load
  | .ld rd rs1 imm => encodeI imm rs1 0b011 rd .load
  | .lbu rd rs1 imm => encodeI imm rs1 0b100 rd .load
  | .lhu rd rs1 imm => encodeI imm rs1 0b101 rd .load
  | .lwu rd rs1 imm => encodeI imm rs1 0b110 rd .load
  | .sb rs1 rs2 imm => encodeS imm rs2 rs1 0b000
  | .sh rs1 rs2 imm => encodeS imm rs2 rs1 0b001
  | .sw rs1 rs2 imm => encodeS imm rs2 rs1 0b010
  | .sd rs1 rs2 imm => encodeS imm rs2 rs1 0b011
  | .halt => haltWord

/-! ### Kinds of instructions -/

/-- The kind of an instruction's decode-table cell; the halt sentinel has none (R97, R101). -/
def Instr.kind : Instr → Option Kind
  | .addi _ _ _ => some .addi
  | .slti _ _ _ => some .slti
  | .sltiu _ _ _ => some .sltiu
  | .xori _ _ _ => some .xori
  | .ori _ _ _ => some .ori
  | .andi _ _ _ => some .andi
  | .slli _ _ _ => some .slli
  | .srli _ _ _ => some .srli
  | .srai _ _ _ => some .srai
  | .add _ _ _ => some .add
  | .sub _ _ _ => some .sub
  | .sll _ _ _ => some .sll
  | .slt _ _ _ => some .slt
  | .sltu _ _ _ => some .sltu
  | .xor _ _ _ => some .xor
  | .srl _ _ _ => some .srl
  | .sra _ _ _ => some .sra
  | .or _ _ _ => some .or
  | .and _ _ _ => some .and
  | .addiw _ _ _ => some .addiw
  | .slliw _ _ _ => some .slliw
  | .srliw _ _ _ => some .srliw
  | .sraiw _ _ _ => some .sraiw
  | .addw _ _ _ => some .addw
  | .subw _ _ _ => some .subw
  | .sllw _ _ _ => some .sllw
  | .srlw _ _ _ => some .srlw
  | .sraw _ _ _ => some .sraw
  | .lui _ _ => some .lui
  | .auipc _ _ => some .auipc
  | .jal _ _ => some .jal
  | .jalr _ _ _ => some .jalr
  | .beq _ _ _ => some .beq
  | .bne _ _ _ => some .bne
  | .blt _ _ _ => some .blt
  | .bge _ _ _ => some .bge
  | .bltu _ _ _ => some .bltu
  | .bgeu _ _ _ => some .bgeu
  | .lb _ _ _ => some .lb
  | .lh _ _ _ => some .lh
  | .lw _ _ _ => some .lw
  | .ld _ _ _ => some .ld
  | .lbu _ _ _ => some .lbu
  | .lhu _ _ _ => some .lhu
  | .lwu _ _ _ => some .lwu
  | .sb _ _ _ => some .sb
  | .sh _ _ _ => some .sh
  | .sw _ _ _ => some .sw
  | .sd _ _ _ => some .sd
  | .halt => none

/-! ### spec/opcode_table.json, transcribed row by row

An independent statement of the encoding (masks and patterns instead of fields); the decoder above does
not read it. A word is a row's instruction iff `(word &&& mask) = pattern` (INDEX.md). -/

/-- A row of the table; `kind` is `none` for the halt sentinel's row. -/
structure TableRow where
  mnemonic : String
  kind : Option Kind
  mask : Word32
  pattern : Word32
deriving DecidableEq, Repr

def opcodeRowsOpImm : List TableRow :=
  [ ⟨"addi", some .addi, 0x0000707F, 0x00000013⟩,
    ⟨"slti", some .slti, 0x0000707F, 0x00002013⟩,
    ⟨"sltiu", some .sltiu, 0x0000707F, 0x00003013⟩,
    ⟨"xori", some .xori, 0x0000707F, 0x00004013⟩,
    ⟨"ori", some .ori, 0x0000707F, 0x00006013⟩,
    ⟨"andi", some .andi, 0x0000707F, 0x00007013⟩,
    ⟨"slli", some .slli, 0xFC00707F, 0x00001013⟩,
    ⟨"srli", some .srli, 0xFC00707F, 0x00005013⟩,
    ⟨"srai", some .srai, 0xFC00707F, 0x40005013⟩ ]

def opcodeRowsOp : List TableRow :=
  [ ⟨"add", some .add, 0xFE00707F, 0x00000033⟩,
    ⟨"sub", some .sub, 0xFE00707F, 0x40000033⟩,
    ⟨"sll", some .sll, 0xFE00707F, 0x00001033⟩,
    ⟨"slt", some .slt, 0xFE00707F, 0x00002033⟩,
    ⟨"sltu", some .sltu, 0xFE00707F, 0x00003033⟩,
    ⟨"xor", some .xor, 0xFE00707F, 0x00004033⟩,
    ⟨"srl", some .srl, 0xFE00707F, 0x00005033⟩,
    ⟨"sra", some .sra, 0xFE00707F, 0x40005033⟩,
    ⟨"or", some .or, 0xFE00707F, 0x00006033⟩,
    ⟨"and", some .and, 0xFE00707F, 0x00007033⟩ ]

def opcodeRowsWord : List TableRow :=
  [ ⟨"addiw", some .addiw, 0x0000707F, 0x0000001B⟩,
    ⟨"slliw", some .slliw, 0xFE00707F, 0x0000101B⟩,
    ⟨"srliw", some .srliw, 0xFE00707F, 0x0000501B⟩,
    ⟨"sraiw", some .sraiw, 0xFE00707F, 0x4000501B⟩,
    ⟨"addw", some .addw, 0xFE00707F, 0x0000003B⟩,
    ⟨"subw", some .subw, 0xFE00707F, 0x4000003B⟩,
    ⟨"sllw", some .sllw, 0xFE00707F, 0x0000103B⟩,
    ⟨"srlw", some .srlw, 0xFE00707F, 0x0000503B⟩,
    ⟨"sraw", some .sraw, 0xFE00707F, 0x4000503B⟩ ]

def opcodeRowsControl : List TableRow :=
  [ ⟨"lui", some .lui, 0x0000007F, 0x00000037⟩,
    ⟨"auipc", some .auipc, 0x0000007F, 0x00000017⟩,
    ⟨"jal", some .jal, 0x0000007F, 0x0000006F⟩,
    ⟨"jalr", some .jalr, 0x0000707F, 0x00000067⟩,
    ⟨"beq", some .beq, 0x0000707F, 0x00000063⟩,
    ⟨"bne", some .bne, 0x0000707F, 0x00001063⟩,
    ⟨"blt", some .blt, 0x0000707F, 0x00004063⟩,
    ⟨"bge", some .bge, 0x0000707F, 0x00005063⟩,
    ⟨"bltu", some .bltu, 0x0000707F, 0x00006063⟩,
    ⟨"bgeu", some .bgeu, 0x0000707F, 0x00007063⟩ ]

def opcodeRowsMemory : List TableRow :=
  [ ⟨"lb", some .lb, 0x0000707F, 0x00000003⟩,
    ⟨"lh", some .lh, 0x0000707F, 0x00001003⟩,
    ⟨"lw", some .lw, 0x0000707F, 0x00002003⟩,
    ⟨"ld", some .ld, 0x0000707F, 0x00003003⟩,
    ⟨"lbu", some .lbu, 0x0000707F, 0x00004003⟩,
    ⟨"lhu", some .lhu, 0x0000707F, 0x00005003⟩,
    ⟨"lwu", some .lwu, 0x0000707F, 0x00006003⟩,
    ⟨"sb", some .sb, 0x0000707F, 0x00000023⟩,
    ⟨"sh", some .sh, 0x0000707F, 0x00001023⟩,
    ⟨"sw", some .sw, 0x0000707F, 0x00002023⟩,
    ⟨"sd", some .sd, 0x0000707F, 0x00003023⟩ ]

def opcodeRowsHalt : List TableRow :=
  [ ⟨"halt", none, 0xFFFFFFFF, 0xFEEDFEED⟩ ]

/-- All 50 rows. -/
def opcodeTable : List TableRow :=
  opcodeRowsOpImm ++ opcodeRowsOp ++ opcodeRowsWord ++ opcodeRowsControl ++ opcodeRowsMemory ++ opcodeRowsHalt

/-- The word belongs to the row (INDEX.md). -/
def TableRow.matches (row : TableRow) (raw : Word32) : Prop := raw &&& row.mask = row.pattern

end Sys2Proof
end

