-- ==== Sys2Proof/Machine/State.lean ====
section
/-! DEFINITION. The machine state (spec/10_state.md R38, with the instruction record of R27 and R32
and the parameter `mem_admits` of R8), the ways a step stops, and the state after reset. -/

namespace Sys2Proof.Machine

/-- The run status (10_state.md R27). HALTED and ILLEGAL are terminal. -/
inductive RunStatus where
  | running | halted | illegal
deriving DecidableEq, Repr

/-- The widths of a memory access: 1, 2, 4 or 8 bytes (20_memory.md R50). -/
inductive Width where
  | byte | half | word | dword
deriving DecidableEq, Repr

/-- The kinds of a memory access (20_memory.md R59). -/
inductive AccessKind where
  | fetch | load | store
deriving DecidableEq, Repr

/-- One piece of the open parameter `mem_admits` as plain data: the accesses of one width and one
kind whose address is in `size` bytes from `base` on are refused (20_memory.md R59; log entry 2). -/
structure RefusedRegion where
  base : Addr
  size : Nat
  width : Width
  kind : AccessKind
deriving DecidableEq, Repr

/-- The resource flags of a descriptor (30_encoding.md R101). -/
structure ResourceFlags where
  readsRs1 : Bool
  readsRs2 : Bool
  writesRd : Bool
  readsMem : Bool
  writesMem : Bool
  doesArithLogic : Bool
deriving DecidableEq, Repr

/-- The instruction record (10_state.md R30). A field that is not populated is `none`
(R31, D15). -/
structure Record where
  pc : Addr
  raw : Word32
  opcode : BitVec 7
  funct3 : Option (BitVec 3)
  funct7 : Option (BitVec 7)
  rd : Option RegIdx
  rs1 : Option RegIdx
  rs2 : Option RegIdx
  flags : Option ResourceFlags
  /-- `none` in the record of a halt step, which ends before the legality test (log entry 5). -/
  isLegal : Option Bool
  isHalt : Bool
  isNop : Bool
  op1 : Option Word
  op2 : Option Word
  result : Option Word
  addr : Option Addr
  memResult : Option Word
  nextPC : Option Addr
deriving DecidableEq, Repr

/-- What the stages from operand collection to memory access put into the record (40_pipeline.md
R137 to R141). -/
structure StageOutputs where
  op1 : Option Word := none
  op2 : Option Word := none
  result : Option Word := none
  addr : Option Addr := none
  memResult : Option Word := none
  nextPC : Addr
deriving DecidableEq, Repr

/-- Memory contents as (address, byte) pairs; the canonical form is `Memory.wf` in Machine/Memory.lean
(20_memory.md R50, R52). -/
abbrev Memory := List Host.Cell

/-- The whole state. -/
structure State where
  /-- x1 to x31, register `r` at index `r - 1`; x0 has no storage (10_state.md R20, R21). -/
  regs : Vector Word 31
  /-- The program counter (R24). -/
  pc : Addr
  /-- The run status (R27). -/
  status : RunStatus
  /-- The record of the last step, the `retired` output; absent after reset (R27, R32, R36). -/
  retired : Option Record
  /-- The Memory Store contents (R33). -/
  mem : Memory
  /-- The parameter `mem_admits`; no step changes it (20_memory.md R59; log entry 2). -/
  refused : List RefusedRegion
deriving DecidableEq, Repr

/-- Why a step has no transition: the Memory Store refuses an access it needs, and the core is stuck
with its state unchanged (20_memory.md R59; 40_pipeline.md R144; log entry 3). Safe: the hardware
does not go on either. -/
inductive Fault where
  /-- Raised by the fetch of any step (60_exceptions.md R405, test 1). Safe. -/
  | fetchRefused (address : Addr)
  /-- Raised by lb, lh, lw, ld, lbu, lhu, lwu (R405, test 4). Safe. -/
  | loadRefused (address : Addr) (width : Width)
  /-- Raised by sb, sh, sw, sd (R405, test 4). Safe. -/
  | storeRefused (address : Addr) (width : Width)
deriving DecidableEq, Repr

/-- Why the model does not run an instruction. -/
inductive Refusal where
  /-- Raised by an arm of `exec` that has no meaning yet. No arm of this model does. Safe. -/
  | notModelled (mnemonic : String)
deriving DecidableEq, Repr

/-- The state right after reset with no image loaded (10_state.md R34 to R36): registers 0, PC 0,
RUNNING, no record, no memory listed (log entry 1), every access admitted (20_memory.md R59's
default; log entry 2). -/
def State.reset : State where
  regs := Vector.replicate 31 0
  pc := 0
  status := .running
  retired := none
  mem := []
  refused := []

end Sys2Proof.Machine
end

