-- ==== Sys2Proof/Machine/Flags.lean ====
section
/-! DEFINITION. The block has no condition codes (spec/10_state.md R28). Its flags are the resource
flags of the decode ROM (30_encoding.md R101), the status flags of the record (R30), the run status
code (60_exceptions.md R404), and, within a step, the comparator's outcome (00_scope.md R12). -/

namespace Sys2Proof.Machine

/-- `op1 <s op2` (R12). -/
def lessSigned (a b : Word) : Bool := a.slt b

/-- `op1 <u op2` (R12). -/
def lessUnsigned (a b : Word) : Bool := a.ult b

/-- `zext_64` of a comparison's bit (R12). -/
def boolWord (c : Bool) : Word := if c then 1 else 0

/-- The resource flags in each legal cell of the decode ROM (30_encoding.md R101). -/
def descriptor : Kind → ResourceFlags
  | .addi | .slti | .sltiu | .xori | .ori | .andi | .slli | .srli | .srai =>
    { readsRs1 := true, readsRs2 := false, writesRd := true,
      readsMem := false, writesMem := false, doesArithLogic := true }
  | .addiw | .slliw | .srliw | .sraiw =>
    { readsRs1 := true, readsRs2 := false, writesRd := true,
      readsMem := false, writesMem := false, doesArithLogic := true }
  | .add | .sub | .sll | .slt | .sltu | .xor | .srl | .sra | .or | .and =>
    { readsRs1 := true, readsRs2 := true, writesRd := true,
      readsMem := false, writesMem := false, doesArithLogic := true }
  | .addw | .subw | .sllw | .srlw | .sraw =>
    { readsRs1 := true, readsRs2 := true, writesRd := true,
      readsMem := false, writesMem := false, doesArithLogic := true }
  | .lui | .auipc =>
    { readsRs1 := false, readsRs2 := false, writesRd := true,
      readsMem := false, writesMem := false, doesArithLogic := true }
  | .jal =>
    { readsRs1 := false, readsRs2 := false, writesRd := true,
      readsMem := false, writesMem := false, doesArithLogic := true }
  | .jalr =>
    { readsRs1 := true, readsRs2 := false, writesRd := true,
      readsMem := false, writesMem := false, doesArithLogic := true }
  | .lb | .lh | .lw | .ld | .lbu | .lhu | .lwu =>
    { readsRs1 := true, readsRs2 := false, writesRd := true,
      readsMem := true, writesMem := false, doesArithLogic := false }
  | .sb | .sh | .sw | .sd =>
    { readsRs1 := true, readsRs2 := true, writesRd := false,
      readsMem := false, writesMem := true, doesArithLogic := false }
  | .beq | .bne | .blt | .bge | .bltu | .bgeu =>
    { readsRs1 := true, readsRs2 := true, writesRd := false,
      readsMem := false, writesMem := false, doesArithLogic := false }

/-- The 2-bit code of the `status` output (60_exceptions.md R404). -/
def RunStatus.code : RunStatus → BitVec 2
  | .running => 0b00
  | .halted => 0b01
  | .illegal => 0b10

end Sys2Proof.Machine
end

