-- ==== Sys2Proof/Machine/Alu.lean ====
section
/-! DEFINITION. The 64-bit ALU and shifter and the word-truncation logic (spec/00_scope.md R10 to
R12; 43_word_ops.md R269). -/

namespace Sys2Proof.Machine

/-- `op1 << k`, `0 <= k < 64` (R12). -/
def shiftLeft64 (a : Word) (k : BitVec 6) : Word := a <<< k.toNat

/-- `op1 >>u k` (R12). -/
def shiftRightLogical64 (a : Word) (k : BitVec 6) : Word := a >>> k.toNat

/-- `op1 >>s k` (R12). -/
def shiftRightArith64 (a : Word) (k : BitVec 6) : Word := a.sshiftRight k.toNat

/-- The amount of sll, srl, sra: `op2[5:0]` (42_integer_register.md R240). -/
def amount6 (op2 : Word) : BitVec 6 := op2.extractLsb' 0 6

/-- The amount of sllw, srlw, sraw: `op2[4:0]` (43_word_ops.md R270). -/
def amount5 (op2 : Word) : BitVec 5 := op2.extractLsb' 0 5

/-- The low word `v[31:0]` (43_word_ops.md R269). -/
def low32 (v : Word) : Word32 := v.extractLsb' 0 32

/-- `sext_64` of a 32-bit result (43_word_ops.md R269). -/
def sext32 (r : Word32) : Word := r.signExtend 64

def shiftLeft32 (a : Word32) (k : BitVec 5) : Word32 := a <<< k.toNat
def shiftRightLogical32 (a : Word32) (k : BitVec 5) : Word32 := a >>> k.toNat
def shiftRightArith32 (a : Word32) (k : BitVec 5) : Word32 := a.sshiftRight k.toNat

end Sys2Proof.Machine
end

