-- ==== Sys2Proof/Machine/Memory.lean ====
section
/-! DEFINITION. The Memory Store: bytes, its canonical form, little-endian multi-byte access and
the admission test (spec/20_memory.md, 00_scope.md R14). -/

namespace Sys2Proof.Machine

/-- The number of bytes of an access (20_memory.md R50). -/
def Width.bytes : Width → Nat
  | .byte => 1
  | .half => 2
  | .word => 4
  | .dword => 8

/-- Canonical form of the cells from address `lowest` on: rising addresses below 2^64, no cell that
holds what an unlisted address reads as. -/
def Memory.wfFrom (lowest : Nat) : Memory → Bool
  | [] => true
  | (a, b) :: rest =>
    decide (lowest ≤ a) && decide (a < 2 ^ 64) && decide (b ≠ Config.unlistedByte) && wfFrom (a + 1) rest

/-- The canonical form: equal memories are equal lists. -/
def Memory.wf (m : Memory) : Bool := m.wfFrom 0

/-- The byte at a key. -/
def Memory.lookup : Memory → Nat → Byte
  | [], _ => Config.unlistedByte
  | (k, b) :: rest, a => if k = a then b else lookup rest a

/-- The memory without the cell of a key. -/
def Memory.erase (m : Memory) (a : Nat) : Memory := m.filter (fun c => c.1 != a)

/-- A cell put in its place by address. -/
def Memory.insert (a : Nat) (b : Byte) : Memory → Memory
  | [] => [(a, b)]
  | (k, v) :: rest => if a < k then (a, b) :: (k, v) :: rest else (k, v) :: Memory.insert a b rest

/-- The byte at an address. -/
def Memory.readByte (m : Memory) (a : Addr) : Byte := m.lookup a.toNat

/-- `byte[a] <- b`, keeping the canonical form. -/
def Memory.writeByte (m : Memory) (a : Addr) (b : Byte) : Memory :=
  if b = Config.unlistedByte then m.erase a.toNat else Memory.insert a.toNat b (m.erase a.toNat)

/-- `MemRead(a, n)`: the byte at `a` least significant, addresses modulo 2^64 (R14, R54, R56). -/
def memRead (m : Memory) (a : Addr) : (n : Nat) → BitVec (8 * n)
  | 0 => 0#0
  | n + 1 => memRead m (a + 1) n ++ m.readByte a

/-- `MemWrite(a, n, v)`: `byte[a+i] <- v[8i+7:8i]` for the `n` bytes, addresses modulo 2^64
(R14, R54, R55, R56). -/
def memWrite (m : Memory) (a : Addr) : (n : Nat) → Word → Memory
  | 0, _ => m
  | n + 1, v => (memWrite m a n v).writeByte (a + BitVec.ofNat 64 n) (v.extractLsb' (8 * n) 8)

/-- Bytes written one after another from an address on. -/
def writeBytes (m : Memory) (a : Addr) : List Byte → Memory
  | [] => m
  | b :: rest => writeBytes (m.writeByte a b) (a + 1) rest

/-- The region refuses this access. -/
def RefusedRegion.covers (r : RefusedRegion) (a : Addr) (w : Width) (k : AccessKind) : Bool :=
  decide (r.width = w) && decide (r.kind = k) && decide ((a - r.base).toNat < r.size)

/-- `mem_admits(a, w, k)` (R59). -/
def State.admits (s : State) (a : Addr) (w : Width) (k : AccessKind) : Bool :=
  !(s.refused.any fun r => r.covers a w k)

/-- The 32-bit little-endian word at the PC (R53; 40_pipeline.md R131). -/
def State.fetchWord (s : State) : Word32 := memRead s.mem s.pc 4

end Sys2Proof.Machine
end

