-- ==== Sys2Proof/Machine/Operands.lean ====
section
/-! DEFINITION. Operand forms: the immediates extended to 64 bits (spec/30_encoding.md R84 to R88),
effective addresses and jump targets (40_pipeline.md R138, R140). -/

namespace Sys2Proof.Machine

/-- `immI` (R84). -/
def immI (imm : BitVec 12) : Word := imm.signExtend 64

/-- `immS` (R85). -/
def immS (imm : BitVec 12) : Word := imm.signExtend 64

/-- `immB` (R86). -/
def immB (offset : BitVec 13) : Word := offset.signExtend 64

/-- `immU`: the 20-bit field shifted left 12, sign-extended from bit 31 (R87). -/
def immU (imm20 : BitVec 20) : Word := (imm20 ++ 0#12).signExtend 64

/-- `immJ` (R88). -/
def immJ (offset : BitVec 21) : Word := offset.signExtend 64

/-- The next instruction in memory, and the link of jal and jalr: `pc + 4` modulo 2^64
(10_state.md R25; 40_pipeline.md R138, R139). -/
def pcPlus4 (pc : Addr) : Addr := pc + 4

/-- The address of a load: base plus I-immediate (40_pipeline.md R140; 46_loads_stores.md R351). -/
def loadAddr (base : Word) (imm : BitVec 12) : Addr := base + immI imm

/-- The address of a store: base plus S-immediate (40_pipeline.md R140; 46_loads_stores.md R351). -/
def storeAddr (base : Word) (imm : BitVec 12) : Addr := base + immS imm

/-- The target of a taken branch (40_pipeline.md R138). -/
def branchTarget (pc : Addr) (offset : BitVec 13) : Addr := pc + immB offset

/-- The target of jal (45_control_transfer.md R310). -/
def jalTarget (pc : Addr) (offset : BitVec 21) : Addr := pc + immJ offset

/-- The target of jalr: bit 0 of the sum cleared (45_control_transfer.md R311). -/
def jalrTarget (base : Word) (imm : BitVec 12) : Addr := (base + immI imm) &&& 0xFFFFFFFFFFFFFFFE

end Sys2Proof.Machine
end

