-- ==== Sys2Proof/Machine/Ops.lean ====
section
/-! DEFINITION. The shared operations: register access, the decode stage's record, commit, one
operation per instruction shape, and the two outcomes that end a run: the halt and the block's only
exception, the illegal instruction (spec/40_pipeline.md, 60_exceptions.md). -/

namespace Sys2Proof.Machine

/-- The outcome of a step or of a meaning. -/
abbrev Out := Host.Outcome State Fault Refusal

/-! ### Registers -/

/-- `x[r]`; `x[0]` is always 0 (10_state.md R21; 00_scope.md R13). -/
def State.readReg (s : State) (r : RegIdx) : Word :=
  if r = 0 then 0 else s.regs[r.toNat - 1]?.getD 0

/-- `x[r] <- v`; a write to x0 is discarded (10_state.md R21; 00_scope.md R13). -/
def State.writeReg (s : State) (r : RegIdx) (v : Word) : State :=
  if r = 0 then s else { s with regs := s.regs.setIfInBounds (r.toNat - 1) v }

/-- The byte at an address in the state's memory. -/
def State.readByte (s : State) (a : Addr) : Byte := s.mem.readByte a

/-! ### The record of the fetch and decode stages -/

/-- After fetch and the opcode's extraction (40_pipeline.md R131, R132). -/
def Record.fetched (pc : Addr) (raw : Word32) : Record where
  pc := pc
  raw := raw
  opcode := opcodeOf raw
  funct3 := none
  funct7 := none
  rd := none
  rs1 := none
  rs2 := none
  flags := none
  isLegal := none
  isHalt := false
  isNop := false
  op1 := none
  op2 := none
  result := none
  addr := none
  memResult := none
  nextPC := none

/-- The value if the format defines the field, else absent (40_pipeline.md R135). -/
def definedField {α : Type} (defines : Bool) (v : α) : Option α := if defines then some v else none

/-- Field extraction: only the fields the opcode's format defines (30_encoding.md R83;
40_pipeline.md R135). -/
def Record.withFields (r : Record) (raw : Word32) : Record :=
  match majorOf (opcodeOf raw) with
  | none => r
  | some m =>
    { r with
      rd := definedField m.format.definesRd (rdOf raw)
      funct3 := definedField m.format.definesFunct3 (funct3Of raw)
      rs1 := definedField m.format.definesRs1 (rs1Of raw)
      rs2 := definedField m.format.definesRs2 (rs2Of raw)
      funct7 := definedField m.format.definesFunct7 (funct7Of raw) }

/-- The record at the end of the decode stage: the halt test first, then the NOP mark, the fields, and
the lookup (40_pipeline.md R133 to R136). -/
def Record.decoded (pc : Addr) (raw : Word32) : Record :=
  let r := Record.fetched pc raw
  if raw = haltWord then { r with isHalt := true }
  else
    let r := { r with isNop := decide (raw = nopWord) }.withFields raw
    match lookup raw with
    | none => { r with isLegal := some false }
    | some k => { r with isLegal := some true, flags := some (descriptor k) }

/-- The record with the later stages' outputs (40_pipeline.md R137 to R141). -/
def Record.filled (r : Record) (o : StageOutputs) : Record :=
  { r with
    op1 := o.op1
    op2 := o.op2
    result := o.result
    addr := o.addr
    memResult := o.memResult
    nextPC := some o.nextPC }

/-! ### Commit -/

/-- Commit of a legal instruction: the register write if there is one, then the PC; the finished
record is the step's output (40_pipeline.md R142, R147). The raw word of the record is the
instruction's encoding (log entry 4). -/
def State.commit (s : State) (raw : Word32) (write : Option (RegIdx × Word)) (o : StageOutputs) : State :=
  let written := match write with
    | none => s
    | some (rd, v) => s.writeReg rd v
  { written with pc := o.nextPC, retired := some ((Record.decoded s.pc raw).filled o) }

/-! ### The outcomes that end a run -/

/-- `stop Halt`: the status becomes HALTED and nothing else of the architectural state changes
(00_scope.md R15; 40_pipeline.md R133, R143; 60_exceptions.md R403). -/
def State.stopHalt (s : State) (raw : Word32) : State :=
  { s with status := .halted, retired := some (Record.decoded s.pc raw) }

/-- `raise IllegalInstruction(pc, raw)`, the block's one exception: the status becomes ILLEGAL, the
record keeps the raw word, and the PC stays at the faulting address. No state is saved, no mode
changes, no vector is taken, and there is no return (00_scope.md R15; 40_pipeline.md R136, R143;
60_exceptions.md R401, R402, R407, R408). -/
def State.raiseIllegal (s : State) (raw : Word32) : State :=
  { s with status := .illegal, retired := some (Record.decoded s.pc raw) }

/-! ### One operation per instruction shape -/

/-- Register-immediate shape: one source, a result into `rd`, next PC `pc + 4`
(41_integer_immediate.md; 43_word_ops.md). -/
def aluImm (i : Instr) (rd rs1 : RegIdx) (f : Word → Word) (s : State) : Out :=
  let op1 := s.readReg rs1
  let result := f op1
  .next (s.commit (encode i) (some (rd, result))
    { op1 := some op1, result := some result, nextPC := pcPlus4 s.pc })

/-- Register-register shape: two sources, a result into `rd`, next PC `pc + 4`
(42_integer_register.md; 43_word_ops.md). -/
def aluReg (i : Instr) (rd rs1 rs2 : RegIdx) (f : Word → Word → Word) (s : State) : Out :=
  let op1 := s.readReg rs1
  let op2 := s.readReg rs2
  let result := f op1 op2
  .next (s.commit (encode i) (some (rd, result))
    { op1 := some op1, op2 := some op2, result := some result, nextPC := pcPlus4 s.pc })

/-- Upper-immediate shape: no source register, a result into `rd` (44_upper_immediate.md). -/
def aluUpper (i : Instr) (rd : RegIdx) (result : Word) (s : State) : Out :=
  .next (s.commit (encode i) (some (rd, result)) { result := some result, nextPC := pcPlus4 s.pc })

/-- Jump shape: the link `pc + 4` into `rd`, the PC to the target (45_control_transfer.md R310,
R311). The target is computed from the old registers (40_pipeline.md R146). -/
def jump (i : Instr) (rd : RegIdx) (op1 : Option Word) (target : Addr) (s : State) : Out :=
  let link := pcPlus4 s.pc
  .next (s.commit (encode i) (some (rd, link)) { op1 := op1, result := some link, nextPC := target })

/-- Branch shape: two sources, no write (45_control_transfer.md R312 to R317). -/
def branch (i : Instr) (rs1 rs2 : RegIdx) (offset : BitVec 13) (cond : Word → Word → Bool) (s : State) :
    Out :=
  let op1 := s.readReg rs1
  let op2 := s.readReg rs2
  let nextPC := if cond op1 op2 then branchTarget s.pc offset else pcPlus4 s.pc
  .next (s.commit (encode i) none { op1 := some op1, op2 := some op2, nextPC := nextPC })

/-- Load shape: stuck if the access is refused, also for `rd = x0`; otherwise the extended value into
`rd` (46_loads_stores.md R340 to R346; D16). -/
def load (i : Instr) (rd rs1 : RegIdx) (imm : BitVec 12) (w : Width)
    (extend : BitVec (8 * w.bytes) → Word) (s : State) : Out :=
  let op1 := s.readReg rs1
  let addr := loadAddr op1 imm
  if s.admits addr w .load then
    let value := extend (memRead s.mem addr w.bytes)
    .next (s.commit (encode i) (some (rd, value))
      { op1 := some op1, addr := some addr, memResult := some value, nextPC := pcPlus4 s.pc })
  else .fault (.loadRefused addr w)

/-- Store shape: stuck if the access is refused; otherwise the low bytes of `rs2` into memory
(46_loads_stores.md R347 to R350). -/
def store (i : Instr) (rs1 rs2 : RegIdx) (imm : BitVec 12) (w : Width) (s : State) : Out :=
  let op1 := s.readReg rs1
  let op2 := s.readReg rs2
  let addr := storeAddr op1 imm
  if s.admits addr w .store then
    let stored := { s with mem := memWrite s.mem addr w.bytes op2 }
    .next (stored.commit (encode i) none
      { op1 := some op1, op2 := some op2, addr := some addr, nextPC := pcPlus4 s.pc })
  else .fault (.storeRefused addr w)

end Sys2Proof.Machine
end

