-- ==== Sys2Proof/Machine/Control.lean ====
section
/-! DEFINITION. Control transfer: jal, jalr and the six branches (spec/45_control_transfer.md). -/

namespace Sys2Proof.Machine

/-- jal: link `pc + 4` into `rd`, PC to `pc + immJ` (R310). -/
def execJal (rd : RegIdx) (offset : BitVec 21) (s : State) : Out :=
  jump (.jal rd offset) rd none (jalTarget s.pc offset) s

/-- jalr: link `pc + 4` into `rd`, PC to `(op1 + immI)` with bit 0 cleared, from the old `x[rs1]`
(R311; 40_pipeline.md R146). -/
def execJalr (rd rs1 : RegIdx) (imm : BitVec 12) (s : State) : Out :=
  jump (.jalr rd rs1 imm) rd (some (s.readReg rs1)) (jalrTarget (s.readReg rs1) imm) s

/-- beq: taken iff `op1 = op2` (R312). -/
def execBeq (rs1 rs2 : RegIdx) (offset : BitVec 13) (s : State) : Out :=
  branch (.beq rs1 rs2 offset) rs1 rs2 offset (fun op1 op2 => op1 == op2) s

/-- bne: taken iff `op1 != op2` (R313). -/
def execBne (rs1 rs2 : RegIdx) (offset : BitVec 13) (s : State) : Out :=
  branch (.bne rs1 rs2 offset) rs1 rs2 offset (fun op1 op2 => op1 != op2) s

/-- blt: taken iff `op1 <s op2` (R314). -/
def execBlt (rs1 rs2 : RegIdx) (offset : BitVec 13) (s : State) : Out :=
  branch (.blt rs1 rs2 offset) rs1 rs2 offset (fun op1 op2 => lessSigned op1 op2) s

/-- bge: taken iff not `op1 <s op2` (R315). -/
def execBge (rs1 rs2 : RegIdx) (offset : BitVec 13) (s : State) : Out :=
  branch (.bge rs1 rs2 offset) rs1 rs2 offset (fun op1 op2 => !lessSigned op1 op2) s

/-- bltu: taken iff `op1 <u op2` (R316). -/
def execBltu (rs1 rs2 : RegIdx) (offset : BitVec 13) (s : State) : Out :=
  branch (.bltu rs1 rs2 offset) rs1 rs2 offset (fun op1 op2 => lessUnsigned op1 op2) s

/-- bgeu: taken iff not `op1 <u op2` (R317). -/
def execBgeu (rs1 rs2 : RegIdx) (offset : BitVec 13) (s : State) : Out :=
  branch (.bgeu rs1 rs2 offset) rs1 rs2 offset (fun op1 op2 => !lessUnsigned op1 op2) s

end Sys2Proof.Machine
end

