-- ==== Sys2Proof/Machine/IntImm.lean ====
section
/-! DEFINITION. Integer register-immediate instructions, OP-IMM (spec/41_integer_immediate.md). -/

namespace Sys2Proof.Machine

/-- addi: `op1 + immI` modulo 2^64 (R200). -/
def execAddi (rd rs1 : RegIdx) (imm : BitVec 12) (s : State) : Out :=
  aluImm (.addi rd rs1 imm) rd rs1 (fun op1 => op1 + immI imm) s

/-- slti: `zext_64(op1 <s immI)` (R201). -/
def execSlti (rd rs1 : RegIdx) (imm : BitVec 12) (s : State) : Out :=
  aluImm (.slti rd rs1 imm) rd rs1 (fun op1 => boolWord (lessSigned op1 (immI imm))) s

/-- sltiu: `zext_64(op1 <u immI)`, the immediate sign-extended first (R202). -/
def execSltiu (rd rs1 : RegIdx) (imm : BitVec 12) (s : State) : Out :=
  aluImm (.sltiu rd rs1 imm) rd rs1 (fun op1 => boolWord (lessUnsigned op1 (immI imm))) s

/-- xori: `op1 ^ immI` (R203). -/
def execXori (rd rs1 : RegIdx) (imm : BitVec 12) (s : State) : Out :=
  aluImm (.xori rd rs1 imm) rd rs1 (fun op1 => op1 ^^^ immI imm) s

/-- ori: `op1 | immI` (R204). -/
def execOri (rd rs1 : RegIdx) (imm : BitVec 12) (s : State) : Out :=
  aluImm (.ori rd rs1 imm) rd rs1 (fun op1 => op1 ||| immI imm) s

/-- andi: `op1 & immI` (R205). -/
def execAndi (rd rs1 : RegIdx) (imm : BitVec 12) (s : State) : Out :=
  aluImm (.andi rd rs1 imm) rd rs1 (fun op1 => op1 &&& immI imm) s

/-- slli: `op1 << shamt6` (R206). -/
def execSlli (rd rs1 : RegIdx) (shamt : BitVec 6) (s : State) : Out :=
  aluImm (.slli rd rs1 shamt) rd rs1 (fun op1 => shiftLeft64 op1 shamt) s

/-- srli: `op1 >>u shamt6` (R207). -/
def execSrli (rd rs1 : RegIdx) (shamt : BitVec 6) (s : State) : Out :=
  aluImm (.srli rd rs1 shamt) rd rs1 (fun op1 => shiftRightLogical64 op1 shamt) s

/-- srai: `op1 >>s shamt6` (R208). -/
def execSrai (rd rs1 : RegIdx) (shamt : BitVec 6) (s : State) : Out :=
  aluImm (.srai rd rs1 shamt) rd rs1 (fun op1 => shiftRightArith64 op1 shamt) s

end Sys2Proof.Machine
end

