-- ==== Sys2Proof/Machine/IntReg.lean ====
section
/-! DEFINITION. Integer register-register instructions, OP (spec/42_integer_register.md). -/

namespace Sys2Proof.Machine

/-- add: `op1 + op2` modulo 2^64 (R230). -/
def execAdd (rd rs1 rs2 : RegIdx) (s : State) : Out :=
  aluReg (.add rd rs1 rs2) rd rs1 rs2 (fun op1 op2 => op1 + op2) s

/-- sub: `op1 - op2` modulo 2^64 (R231). -/
def execSub (rd rs1 rs2 : RegIdx) (s : State) : Out :=
  aluReg (.sub rd rs1 rs2) rd rs1 rs2 (fun op1 op2 => op1 - op2) s

/-- sll: `op1 << op2[5:0]` (R232, R240). -/
def execSll (rd rs1 rs2 : RegIdx) (s : State) : Out :=
  aluReg (.sll rd rs1 rs2) rd rs1 rs2 (fun op1 op2 => shiftLeft64 op1 (amount6 op2)) s

/-- slt: `zext_64(op1 <s op2)` (R233). -/
def execSlt (rd rs1 rs2 : RegIdx) (s : State) : Out :=
  aluReg (.slt rd rs1 rs2) rd rs1 rs2 (fun op1 op2 => boolWord (lessSigned op1 op2)) s

/-- sltu: `zext_64(op1 <u op2)` (R234). -/
def execSltu (rd rs1 rs2 : RegIdx) (s : State) : Out :=
  aluReg (.sltu rd rs1 rs2) rd rs1 rs2 (fun op1 op2 => boolWord (lessUnsigned op1 op2)) s

/-- xor: `op1 ^ op2` (R235). -/
def execXor (rd rs1 rs2 : RegIdx) (s : State) : Out :=
  aluReg (.xor rd rs1 rs2) rd rs1 rs2 (fun op1 op2 => op1 ^^^ op2) s

/-- srl: `op1 >>u op2[5:0]` (R236, R240). -/
def execSrl (rd rs1 rs2 : RegIdx) (s : State) : Out :=
  aluReg (.srl rd rs1 rs2) rd rs1 rs2 (fun op1 op2 => shiftRightLogical64 op1 (amount6 op2)) s

/-- sra: `op1 >>s op2[5:0]` (R237, R240). -/
def execSra (rd rs1 rs2 : RegIdx) (s : State) : Out :=
  aluReg (.sra rd rs1 rs2) rd rs1 rs2 (fun op1 op2 => shiftRightArith64 op1 (amount6 op2)) s

/-- or: `op1 | op2` (R238). -/
def execOr (rd rs1 rs2 : RegIdx) (s : State) : Out :=
  aluReg (.or rd rs1 rs2) rd rs1 rs2 (fun op1 op2 => op1 ||| op2) s

/-- and: `op1 & op2` (R239). -/
def execAnd (rd rs1 rs2 : RegIdx) (s : State) : Out :=
  aluReg (.and rd rs1 rs2) rd rs1 rs2 (fun op1 op2 => op1 &&& op2) s

end Sys2Proof.Machine
end

