-- ==== Sys2Proof/Machine/LoadStore.lean ====
section
/-! DEFINITION. Loads and stores (spec/46_loads_stores.md). -/

namespace Sys2Proof.Machine

/-- lb: 1 byte, sign-extended (R340). -/
def execLb (rd rs1 : RegIdx) (imm : BitVec 12) (s : State) : Out :=
  load (.lb rd rs1 imm) rd rs1 imm .byte (fun v => v.signExtend 64) s

/-- lh: 2 bytes, sign-extended (R341). -/
def execLh (rd rs1 : RegIdx) (imm : BitVec 12) (s : State) : Out :=
  load (.lh rd rs1 imm) rd rs1 imm .half (fun v => v.signExtend 64) s

/-- lw: 4 bytes, sign-extended (R342). -/
def execLw (rd rs1 : RegIdx) (imm : BitVec 12) (s : State) : Out :=
  load (.lw rd rs1 imm) rd rs1 imm .word (fun v => v.signExtend 64) s

/-- ld: 8 bytes, which fill the register (R343). -/
def execLd (rd rs1 : RegIdx) (imm : BitVec 12) (s : State) : Out :=
  load (.ld rd rs1 imm) rd rs1 imm .dword (fun v => v.signExtend 64) s

/-- lbu: 1 byte, zero-extended (R344). -/
def execLbu (rd rs1 : RegIdx) (imm : BitVec 12) (s : State) : Out :=
  load (.lbu rd rs1 imm) rd rs1 imm .byte (fun v => v.setWidth 64) s

/-- lhu: 2 bytes, zero-extended (R345). -/
def execLhu (rd rs1 : RegIdx) (imm : BitVec 12) (s : State) : Out :=
  load (.lhu rd rs1 imm) rd rs1 imm .half (fun v => v.setWidth 64) s

/-- lwu: 4 bytes, zero-extended (R346). -/
def execLwu (rd rs1 : RegIdx) (imm : BitVec 12) (s : State) : Out :=
  load (.lwu rd rs1 imm) rd rs1 imm .word (fun v => v.setWidth 64) s

/-- sb: the low byte of `rs2` stored (R347). -/
def execSb (rs1 rs2 : RegIdx) (imm : BitVec 12) (s : State) : Out :=
  store (.sb rs1 rs2 imm) rs1 rs2 imm .byte s

/-- sh: the low 2 bytes of `rs2` stored (R348). -/
def execSh (rs1 rs2 : RegIdx) (imm : BitVec 12) (s : State) : Out :=
  store (.sh rs1 rs2 imm) rs1 rs2 imm .half s

/-- sw: the low 4 bytes of `rs2` stored (R349). -/
def execSw (rs1 rs2 : RegIdx) (imm : BitVec 12) (s : State) : Out :=
  store (.sw rs1 rs2 imm) rs1 rs2 imm .word s

/-- sd: all 8 bytes of `rs2` stored (R350). -/
def execSd (rs1 rs2 : RegIdx) (imm : BitVec 12) (s : State) : Out :=
  store (.sd rs1 rs2 imm) rs1 rs2 imm .dword s

end Sys2Proof.Machine
end

