-- ==== Sys2Proof/Machine/System.lean ====
section
/-! DEFINITION. The halt sentinel (spec/30_encoding.md R97; 60_exceptions.md R403). -/

namespace Sys2Proof.Machine

/-- halt: the status becomes HALTED, nothing is written and the PC stays (R403; 40_pipeline.md R133). -/
def execHalt (s : State) : Out := .next (s.stopHalt (encode .halt))

end Sys2Proof.Machine
end

