-- ==== Sys2Proof/Machine/Upper.lean ====
section
/-! DEFINITION. Upper-immediate instructions (spec/44_upper_immediate.md). -/

namespace Sys2Proof.Machine

/-- lui: the sign-extended upper immediate alone (R290). -/
def execLui (rd : RegIdx) (imm20 : BitVec 20) (s : State) : Out :=
  aluUpper (.lui rd imm20) rd (immU imm20) s

/-- auipc: this instruction's own address plus the upper immediate, modulo 2^64 (R291). -/
def execAuipc (rd : RegIdx) (imm20 : BitVec 20) (s : State) : Out :=
  aluUpper (.auipc rd imm20) rd (s.pc + immU imm20) s

end Sys2Proof.Machine
end

