-- ==== Sys2Proof/Machine/WordOps.lean ====
section
/-! DEFINITION. Word instructions, OP-IMM-32 and OP-32: the operation on the low 32 bits, the
result sign-extended (spec/43_word_ops.md, R269). -/

namespace Sys2Proof.Machine

/-- addiw: `sext_64((op1 + immI)[31:0])` (R260). -/
def execAddiw (rd rs1 : RegIdx) (imm : BitVec 12) (s : State) : Out :=
  aluImm (.addiw rd rs1 imm) rd rs1 (fun op1 => sext32 (low32 (op1 + immI imm))) s

/-- slliw: `sext_64((op1[31:0] << shamt5)[31:0])` (R261). -/
def execSlliw (rd rs1 : RegIdx) (shamt : BitVec 5) (s : State) : Out :=
  aluImm (.slliw rd rs1 shamt) rd rs1 (fun op1 => sext32 (shiftLeft32 (low32 op1) shamt)) s

/-- srliw: `sext_64(op1[31:0] >>u shamt5)` (R262). -/
def execSrliw (rd rs1 : RegIdx) (shamt : BitVec 5) (s : State) : Out :=
  aluImm (.srliw rd rs1 shamt) rd rs1 (fun op1 => sext32 (shiftRightLogical32 (low32 op1) shamt)) s

/-- sraiw: `sext_64(op1[31:0] >>s shamt5)` (R263). -/
def execSraiw (rd rs1 : RegIdx) (shamt : BitVec 5) (s : State) : Out :=
  aluImm (.sraiw rd rs1 shamt) rd rs1 (fun op1 => sext32 (shiftRightArith32 (low32 op1) shamt)) s

/-- addw: `sext_64((op1[31:0] + op2[31:0])[31:0])` (R264). -/
def execAddw (rd rs1 rs2 : RegIdx) (s : State) : Out :=
  aluReg (.addw rd rs1 rs2) rd rs1 rs2 (fun op1 op2 => sext32 (low32 op1 + low32 op2)) s

/-- subw: `sext_64((op1[31:0] - op2[31:0])[31:0])` (R265). -/
def execSubw (rd rs1 rs2 : RegIdx) (s : State) : Out :=
  aluReg (.subw rd rs1 rs2) rd rs1 rs2 (fun op1 op2 => sext32 (low32 op1 - low32 op2)) s

/-- sllw: `sext_64((op1[31:0] << op2[4:0])[31:0])` (R266, R270). -/
def execSllw (rd rs1 rs2 : RegIdx) (s : State) : Out :=
  aluReg (.sllw rd rs1 rs2) rd rs1 rs2 (fun op1 op2 => sext32 (shiftLeft32 (low32 op1) (amount5 op2))) s

/-- srlw: `sext_64(op1[31:0] >>u op2[4:0])` (R267, R270). -/
def execSrlw (rd rs1 rs2 : RegIdx) (s : State) : Out :=
  aluReg (.srlw rd rs1 rs2) rd rs1 rs2 (fun op1 op2 => sext32 (shiftRightLogical32 (low32 op1) (amount5 op2))) s

/-- sraw: `sext_64(op1[31:0] >>s op2[4:0])` (R268, R270). -/
def execSraw (rd rs1 rs2 : RegIdx) (s : State) : Out :=
  aluReg (.sraw rd rs1 rs2) rd rs1 rs2 (fun op1 op2 => sext32 (shiftRightArith32 (low32 op1) (amount5 op2))) s

end Sys2Proof.Machine
end

