-- ==== Sys2Proof/Machine/Sequencer.lean ====
section
/-! DEFINITION. The fetch and decode stages in front of `exec` (spec/40_pipeline.md R145). -/

namespace Sys2Proof.Machine

/-- A step in RUNNING, with the tests in the order of 60_exceptions.md R405: the fetch's admission,
the halt word and the lookup (both in `decode`), then the instruction, whose own data access is
tested in its meaning. -/
def runningStep (s : State) : Out :=
  if s.admits s.pc .word .fetch then
    match decode s.fetchWord with
    | .ok i => exec i s
    | .error _ => .next (s.raiseIllegal s.fetchWord)
  else .fault (.fetchRefused s.pc)

/-- A `step` request: ignored, with no new record, unless the status is RUNNING (10_state.md R32;
40_pipeline.md R130, R148). -/
def stepRequest (s : State) : Out :=
  match s.status with
  | .running => runningStep s
  | .halted => .next s
  | .illegal => .next s

/-- The state with a word at the PC and what its fetch needs besides: the status RUNNING and the
fetch admitted (log entry 9). -/
def State.placeWord (s : State) (raw : Word32) : State :=
  { s with
    mem := writeBytes s.mem s.pc (bytesOfWord raw)
    status := .running
    refused := s.refused.filter fun r => !r.covers s.pc .word .fetch }

end Sys2Proof.Machine
end

