-- ==== Sys2Proof/Machine/Step.lean ====
section
/-! DEFINITION. One step of the machine. -/

namespace Sys2Proof.Machine

/-- One step request (spec/40_pipeline.md R145, R148). -/
def step (s : State) : Host.Outcome State Fault Refusal := stepRequest s

/-- `s` with a table word (bits numbered as spec/opcode_table.json numbers them) where `step` fetches. -/
def State.withFetchWord (s : State) (nbits w : Nat) : State := s.placeWord (tableWord nbits w)

end Sys2Proof.Machine
end

