-- ==== Sys2Proof/Machine/Pseudo.lean ====
section
/-! DEFINITION. The pseudo-instructions and their expansions (spec/30_encoding.md R105). -/

namespace Sys2Proof.Machine

/-- The low part of a 32-bit constant or offset, `lo12` (R105). -/
def lo12 (v : Word32) : BitVec 12 := v.extractLsb' 0 12

/-- The high part, `((v - sext(lo12)) >> 12) & 0xFFFFF` (R105). -/
def hi20 (v : Word32) : BitVec 20 := (v - (lo12 v).signExtend 32).extractLsb' 12 20

/-- The pseudo-instructions that expand into in-scope instructions (R105). -/
inductive Pseudo where
  | nop
  | li12 (rd : RegIdx) (imm : BitVec 12)
  | li32 (rd : RegIdx) (imm : Word32)
  | mv (rd rs : RegIdx)
  | not (rd rs : RegIdx)
  | neg (rd rs : RegIdx)
  | negw (rd rs : RegIdx)
  | sextW (rd rs : RegIdx)
  | seqz (rd rs : RegIdx)
  | snez (rd rs : RegIdx)
  | sltz (rd rs : RegIdx)
  | sgtz (rd rs : RegIdx)
  | beqz (rs : RegIdx) (offset : BitVec 13)
  | bnez (rs : RegIdx) (offset : BitVec 13)
  | blez (rs : RegIdx) (offset : BitVec 13)
  | bgez (rs : RegIdx) (offset : BitVec 13)
  | bltz (rs : RegIdx) (offset : BitVec 13)
  | bgtz (rs : RegIdx) (offset : BitVec 13)
  | bgt (rs rt : RegIdx) (offset : BitVec 13)
  | ble (rs rt : RegIdx) (offset : BitVec 13)
  | bgtu (rs rt : RegIdx) (offset : BitVec 13)
  | bleu (rs rt : RegIdx) (offset : BitVec 13)
  | j (offset : BitVec 21)
  | jalLink (offset : BitVec 21)
  | jr (rs : RegIdx)
  | jalrLink (rs : RegIdx)
  | ret
  | call (offset : Word32)
  | tail (offset : Word32)
  | la (rd : RegIdx) (offset : Word32)
deriving DecidableEq, Repr

/-- The expansion, row by row of R105's table. -/
def Pseudo.expand : Pseudo → List Instr
  | .nop => [.addi 0 0 0]
  | .li12 rd imm => [.addi rd 0 imm]
  | .li32 rd imm => [.lui rd (hi20 imm), .addiw rd rd (lo12 imm)]
  | .mv rd rs => [.addi rd rs 0]
  | .not rd rs => [.xori rd rs (-1)]
  | .neg rd rs => [.sub rd 0 rs]
  | .negw rd rs => [.subw rd 0 rs]
  | .sextW rd rs => [.addiw rd rs 0]
  | .seqz rd rs => [.sltiu rd rs 1]
  | .snez rd rs => [.sltu rd 0 rs]
  | .sltz rd rs => [.slt rd rs 0]
  | .sgtz rd rs => [.slt rd 0 rs]
  | .beqz rs offset => [.beq rs 0 offset]
  | .bnez rs offset => [.bne rs 0 offset]
  | .blez rs offset => [.bge 0 rs offset]
  | .bgez rs offset => [.bge rs 0 offset]
  | .bltz rs offset => [.blt rs 0 offset]
  | .bgtz rs offset => [.blt 0 rs offset]
  | .bgt rs rt offset => [.blt rt rs offset]
  | .ble rs rt offset => [.bge rt rs offset]
  | .bgtu rs rt offset => [.bltu rt rs offset]
  | .bleu rs rt offset => [.bgeu rt rs offset]
  | .j offset => [.jal 0 offset]
  | .jalLink offset => [.jal 1 offset]
  | .jr rs => [.jalr 0 rs 0]
  | .jalrLink rs => [.jalr 1 rs 0]
  | .ret => [.jalr 0 1 0]
  | .call offset => [.auipc 1 (hi20 offset), .jalr 1 1 (lo12 offset)]
  | .tail offset => [.auipc 6 (hi20 offset), .jalr 0 6 (lo12 offset)]
  | .la rd offset => [.auipc rd (hi20 offset), .addi rd rd (lo12 offset)]

end Sys2Proof.Machine
end

