-- ==== Sys2Proof/Machine/Assembler.lean ====
section
/-! DEFINITION. Assembly lines (spec/30_encoding.md R102 to R106; 10_state.md R23): register names, the
syntax of each format as a list of operands, and assembling a line into its words. AsmText reads a line
of text into the form this file starts from. -/

namespace Sys2Proof.Machine

/-- `x0` to `x31` (R103). -/
def xNames : List String :=
  ["x0", "x1", "x2", "x3", "x4", "x5", "x6", "x7", "x8", "x9", "x10", "x11", "x12", "x13", "x14", "x15"] ++
  ["x16", "x17", "x18", "x19", "x20", "x21", "x22", "x23", "x24", "x25", "x26", "x27", "x28", "x29", "x30", "x31"]

/-- The ABI aliases of x0 to x31, in order (10_state.md R23). -/
def abiNames : List String :=
  ["zero", "ra", "sp", "gp", "tp", "t0", "t1", "t2", "s0", "s1", "a0", "a1", "a2", "a3", "a4", "a5"] ++
  ["a6", "a7", "s2", "s3", "s4", "s5", "s6", "s7", "s8", "s9", "s10", "s11", "t3", "t4", "t5", "t6"]

/-- The place of a name in a list, counted from `start`. -/
def indexFrom (name : String) : Nat → List String → Option Nat
  | _, [] => none
  | start, n :: rest => if n = name then some start else indexFrom name (start + 1) rest

/-- The register a name stands for: an x-name or an alias, `fp` being `s0` (R103). -/
def regOfName (name : String) : Option RegIdx :=
  match indexFrom name 0 xNames with
  | some k => some (BitVec.ofNat 5 k)
  | none =>
    if name = "fp" then some 8
    else (indexFrom name 0 abiNames).map (BitVec.ofNat 5)

/-- The x-name of a register (R103). -/
def regName (r : RegIdx) : String := xNames.getD r.toNat "x0"

/-- An operand of an assembly line: a register, a number, `imm(base)`, or a label (R102, R104). -/
inductive Operand where
  | reg (name : String)
  | num (value : Int)
  | mem (displacement : Int) (base : String)
  | label (name : String)
deriving DecidableEq, Repr

/-- A line: the operation and its operands in order. -/
structure AsmLine where
  op : String
  args : List Operand
deriving DecidableEq, Repr

/-! Range checks (R102, R104) -/

def imm12? (v : Int) : Option (BitVec 12) :=
  if -2048 ≤ v ∧ v ≤ 2047 then some (BitVec.ofInt 12 v) else none
def imm20? (v : Int) : Option (BitVec 20) :=
  if 0 ≤ v ∧ v ≤ 0xFFFFF then some (BitVec.ofInt 20 v) else none
def shamt6? (v : Int) : Option (BitVec 6) := if 0 ≤ v ∧ v ≤ 63 then some (BitVec.ofInt 6 v) else none
def shamt5? (v : Int) : Option (BitVec 5) := if 0 ≤ v ∧ v ≤ 31 then some (BitVec.ofInt 5 v) else none
def offset13? (v : Int) : Option (BitVec 13) :=
  if v % 2 = 0 ∧ -4096 ≤ v ∧ v ≤ 4094 then some (BitVec.ofInt 13 v) else none
def offset21? (v : Int) : Option (BitVec 21) :=
  if v % 2 = 0 ∧ -1048576 ≤ v ∧ v ≤ 1048574 then some (BitVec.ofInt 21 v) else none

/-- The signed byte distance an offset operand stands for: a number, or the distance from the line's
own address to a label (R104). -/
def distance (labels : String → Option Addr) (pc : Addr) : Operand → Option Int
  | .num v => some v
  | .label name => (labels name).map fun target => (target - pc).toInt
  | .reg _ => none
  | .mem _ _ => none

/-! The operations of each syntactic form (R102) -/

def opR : String → Option (RegIdx → RegIdx → RegIdx → Instr)
  | "add" => some .add
  | "sub" => some .sub
  | "sll" => some .sll
  | "slt" => some .slt
  | "sltu" => some .sltu
  | "xor" => some .xor
  | "srl" => some .srl
  | "sra" => some .sra
  | "or" => some .or
  | "and" => some .and
  | "addw" => some .addw
  | "subw" => some .subw
  | "sllw" => some .sllw
  | "srlw" => some .srlw
  | "sraw" => some .sraw
  | _ => none

def opI : String → Option (RegIdx → RegIdx → BitVec 12 → Instr)
  | "addi" => some .addi
  | "slti" => some .slti
  | "sltiu" => some .sltiu
  | "xori" => some .xori
  | "ori" => some .ori
  | "andi" => some .andi
  | "addiw" => some .addiw
  | "jalr" => some .jalr
  | _ => none

def opShift6 : String → Option (RegIdx → RegIdx → BitVec 6 → Instr)
  | "slli" => some .slli
  | "srli" => some .srli
  | "srai" => some .srai
  | _ => none

def opShift5 : String → Option (RegIdx → RegIdx → BitVec 5 → Instr)
  | "slliw" => some .slliw
  | "srliw" => some .srliw
  | "sraiw" => some .sraiw
  | _ => none

/-- The forms `op rd, imm(rs1)`: the loads and jalr. -/
def opDisp : String → Option (RegIdx → RegIdx → BitVec 12 → Instr)
  | "lb" => some .lb
  | "lh" => some .lh
  | "lw" => some .lw
  | "ld" => some .ld
  | "lbu" => some .lbu
  | "lhu" => some .lhu
  | "lwu" => some .lwu
  | "jalr" => some .jalr
  | _ => none

/-- The stores, as functions of base, stored register and displacement. -/
def opS : String → Option (RegIdx → RegIdx → BitVec 12 → Instr)
  | "sb" => some .sb
  | "sh" => some .sh
  | "sw" => some .sw
  | "sd" => some .sd
  | _ => none

def opSB : String → Option (RegIdx → RegIdx → BitVec 13 → Instr)
  | "beq" => some .beq
  | "bne" => some .bne
  | "blt" => some .blt
  | "bge" => some .bge
  | "bltu" => some .bltu
  | "bgeu" => some .bgeu
  | _ => none

def opU : String → Option (RegIdx → BitVec 20 → Instr)
  | "lui" => some .lui
  | "auipc" => some .auipc
  | _ => none

/-- One core instruction from its line (R102, R104, R106); `none` where the assembler rejects it. -/
def parseCore (labels : String → Option Addr) (pc : Addr) (line : AsmLine) : Option Instr :=
  match line.args with
  | [] => if line.op = "halt" then some .halt else none
  | [.reg a, .reg b, .reg c] => do return (← opR line.op) (← regOfName a) (← regOfName b) (← regOfName c)
  | [.reg a, .mem d b] =>
    match opDisp line.op with
    | some f => do return f (← regOfName a) (← regOfName b) (← imm12? d)
    | none => do return (← opS line.op) (← regOfName b) (← regOfName a) (← imm12? d)
  | [.reg a, .reg b, third] =>
    match opSB line.op with
    | some f => do return f (← regOfName a) (← regOfName b) (← offset13? (← distance labels pc third))
    | none =>
      match third with
      | .num v =>
        match opI line.op, opShift6 line.op with
        | some f, _ => do return f (← regOfName a) (← regOfName b) (← imm12? v)
        | none, some f => do return f (← regOfName a) (← regOfName b) (← shamt6? v)
        | none, none => do return (← opShift5 line.op) (← regOfName a) (← regOfName b) (← shamt5? v)
      | .reg _ | .mem _ _ | .label _ => none
  | [.reg a, second] =>
    if line.op = "jal" then do
      return .jal (← regOfName a) (← offset21? (← distance labels pc second))
    else
      match second with
      | .num v => do return (← opU line.op) (← regOfName a) (← imm20? v)
      | .reg _ | .mem _ _ | .label _ => none
  | _ => none

/-- A number that fits 32 signed bits: a distance of call, tail and la (log entry 12), or the constant of
`li` (log entry 15). -/
def offset32? (v : Int) : Option Word32 :=
  if -2147483648 ≤ v ∧ v ≤ 2147483647 then some (BitVec.ofInt 32 v) else none

/-- The two-register pseudo-instructions (R105). -/
def pseudoRR : String → Option (RegIdx → RegIdx → Pseudo)
  | "mv" => some .mv
  | "not" => some .not
  | "neg" => some .neg
  | "negw" => some .negw
  | "sext.w" => some .sextW
  | "seqz" => some .seqz
  | "snez" => some .snez
  | "sltz" => some .sltz
  | "sgtz" => some .sgtz
  | _ => none

/-- The branch pseudo-instructions on one register (R105). -/
def pseudoBranchZ : String → Option (RegIdx → BitVec 13 → Pseudo)
  | "beqz" => some .beqz
  | "bnez" => some .bnez
  | "blez" => some .blez
  | "bgez" => some .bgez
  | "bltz" => some .bltz
  | "bgtz" => some .bgtz
  | _ => none

/-- The branch pseudo-instructions on two registers (R105). -/
def pseudoBranch : String → Option (RegIdx → RegIdx → BitVec 13 → Pseudo)
  | "bgt" => some .bgt
  | "ble" => some .ble
  | "bgtu" => some .bgtu
  | "bleu" => some .bleu
  | _ => none

/-- `li`: the 12-bit form where the constant fits it, else the 32-bit form (R105). DESIGN CHOICE (log
entry 15): R105 says only "32-bit imm"; the 32-bit form takes a signed constant, -2^31 to 2^31 - 1, and
rejects 0x80000000 to 0xFFFFFFFF. -/
def parseLi (rd : RegIdx) (v : Int) : Option Pseudo :=
  match imm12? v with
  | some imm => some (.li12 rd imm)
  | none => (offset32? v).map (.li32 rd)

/-- One pseudo-instruction from its line (R105). -/
def parsePseudo (labels : String → Option Addr) (pc : Addr) (line : AsmLine) : Option Pseudo :=
  match line.args with
  | [] => if line.op = "nop" then some .nop else if line.op = "ret" then some .ret else none
  | [.reg a] =>
    if line.op = "jr" then (regOfName a).map .jr
    else if line.op = "jalr" then (regOfName a).map .jalrLink
    else none
  | [.reg a, .reg b] => do return (← pseudoRR line.op) (← regOfName a) (← regOfName b)
  | [.reg a, .reg b, third] =>
    do return (← pseudoBranch line.op) (← regOfName a) (← regOfName b) (← offset13? (← distance labels pc third))
  | [.reg a, second] =>
    match pseudoBranchZ line.op with
    | some f => do return f (← regOfName a) (← offset13? (← distance labels pc second))
    | none =>
      if line.op = "la" ∨ line.op = "lla" then do
        return .la (← regOfName a) (← offset32? (← distance labels pc second))
      else if line.op = "li" then
        match second with
        | .num v => do parseLi (← regOfName a) v
        | .reg _ | .mem _ _ | .label _ => none
      else none
  | [target] =>
    if line.op = "j" then do return .j (← offset21? (← distance labels pc target))
    else if line.op = "jal" then do return .jalLink (← offset21? (← distance labels pc target))
    else if line.op = "call" then do return .call (← offset32? (← distance labels pc target))
    else if line.op = "tail" then do return .tail (← offset32? (← distance labels pc target))
    else none
  | _ => none

/-- The instructions of a line: a core instruction, or a pseudo-instruction's expansion. -/
def parseLine (labels : String → Option Addr) (pc : Addr) (line : AsmLine) : Option (List Instr) :=
  match parseCore labels pc line with
  | some i => some [i]
  | none => (parsePseudo labels pc line).map Pseudo.expand

/-- The data line `.word v`, with which an assembler emits the halt sentinel (R106). -/
def parseData (line : AsmLine) : Option Word32 :=
  match line.args with
  | [.num v] => if line.op = ".word" ∧ 0 ≤ v ∧ v ≤ 0xFFFFFFFF then some (BitVec.ofInt 32 v) else none
  | _ => none

/-- The words of a line (R102 to R106). -/
def assembleLine (labels : String → Option Addr) (pc : Addr) (line : AsmLine) : Option (List Word32) :=
  match parseData line with
  | some raw => some [raw]
  | none => (parseLine labels pc line).map fun is => is.map encode

/-! Writing an instruction as a line (R102) -/

def lineR (op : String) (rd rs1 rs2 : RegIdx) : AsmLine :=
  ⟨op, [.reg (regName rd), .reg (regName rs1), .reg (regName rs2)]⟩
def lineI (op : String) (rd rs1 : RegIdx) (imm : BitVec 12) : AsmLine :=
  ⟨op, [.reg (regName rd), .reg (regName rs1), .num imm.toInt]⟩
def lineShift (op : String) (rd rs1 : RegIdx) (shamt : Nat) : AsmLine :=
  ⟨op, [.reg (regName rd), .reg (regName rs1), .num shamt]⟩
def lineDisp (op : String) (r base : RegIdx) (imm : BitVec 12) : AsmLine :=
  ⟨op, [.reg (regName r), .mem imm.toInt (regName base)]⟩
def lineSB (op : String) (rs1 rs2 : RegIdx) (offset : BitVec 13) : AsmLine :=
  ⟨op, [.reg (regName rs1), .reg (regName rs2), .num offset.toInt]⟩
def lineU (op : String) (rd : RegIdx) (imm20 : BitVec 20) : AsmLine :=
  ⟨op, [.reg (regName rd), .num imm20.toNat]⟩

/-- The line of an instruction (R102, R106). -/
def disassemble : Instr → AsmLine
  | .addi rd rs1 imm => lineI "addi" rd rs1 imm
  | .slti rd rs1 imm => lineI "slti" rd rs1 imm
  | .sltiu rd rs1 imm => lineI "sltiu" rd rs1 imm
  | .xori rd rs1 imm => lineI "xori" rd rs1 imm
  | .ori rd rs1 imm => lineI "ori" rd rs1 imm
  | .andi rd rs1 imm => lineI "andi" rd rs1 imm
  | .slli rd rs1 shamt => lineShift "slli" rd rs1 shamt.toNat
  | .srli rd rs1 shamt => lineShift "srli" rd rs1 shamt.toNat
  | .srai rd rs1 shamt => lineShift "srai" rd rs1 shamt.toNat
  | .add rd rs1 rs2 => lineR "add" rd rs1 rs2
  | .sub rd rs1 rs2 => lineR "sub" rd rs1 rs2
  | .sll rd rs1 rs2 => lineR "sll" rd rs1 rs2
  | .slt rd rs1 rs2 => lineR "slt" rd rs1 rs2
  | .sltu rd rs1 rs2 => lineR "sltu" rd rs1 rs2
  | .xor rd rs1 rs2 => lineR "xor" rd rs1 rs2
  | .srl rd rs1 rs2 => lineR "srl" rd rs1 rs2
  | .sra rd rs1 rs2 => lineR "sra" rd rs1 rs2
  | .or rd rs1 rs2 => lineR "or" rd rs1 rs2
  | .and rd rs1 rs2 => lineR "and" rd rs1 rs2
  | .addiw rd rs1 imm => lineI "addiw" rd rs1 imm
  | .slliw rd rs1 shamt => lineShift "slliw" rd rs1 shamt.toNat
  | .srliw rd rs1 shamt => lineShift "srliw" rd rs1 shamt.toNat
  | .sraiw rd rs1 shamt => lineShift "sraiw" rd rs1 shamt.toNat
  | .addw rd rs1 rs2 => lineR "addw" rd rs1 rs2
  | .subw rd rs1 rs2 => lineR "subw" rd rs1 rs2
  | .sllw rd rs1 rs2 => lineR "sllw" rd rs1 rs2
  | .srlw rd rs1 rs2 => lineR "srlw" rd rs1 rs2
  | .sraw rd rs1 rs2 => lineR "sraw" rd rs1 rs2
  | .lui rd imm20 => lineU "lui" rd imm20
  | .auipc rd imm20 => lineU "auipc" rd imm20
  | .jal rd offset => ⟨"jal", [.reg (regName rd), .num offset.toInt]⟩
  | .jalr rd rs1 imm => lineDisp "jalr" rd rs1 imm
  | .beq rs1 rs2 offset => lineSB "beq" rs1 rs2 offset
  | .bne rs1 rs2 offset => lineSB "bne" rs1 rs2 offset
  | .blt rs1 rs2 offset => lineSB "blt" rs1 rs2 offset
  | .bge rs1 rs2 offset => lineSB "bge" rs1 rs2 offset
  | .bltu rs1 rs2 offset => lineSB "bltu" rs1 rs2 offset
  | .bgeu rs1 rs2 offset => lineSB "bgeu" rs1 rs2 offset
  | .lb rd rs1 imm => lineDisp "lb" rd rs1 imm
  | .lh rd rs1 imm => lineDisp "lh" rd rs1 imm
  | .lw rd rs1 imm => lineDisp "lw" rd rs1 imm
  | .ld rd rs1 imm => lineDisp "ld" rd rs1 imm
  | .lbu rd rs1 imm => lineDisp "lbu" rd rs1 imm
  | .lhu rd rs1 imm => lineDisp "lhu" rd rs1 imm
  | .lwu rd rs1 imm => lineDisp "lwu" rd rs1 imm
  | .sb rs1 rs2 imm => lineDisp "sb" rs2 rs1 imm
  | .sh rs1 rs2 imm => lineDisp "sh" rs2 rs1 imm
  | .sw rs1 rs2 imm => lineDisp "sw" rs2 rs1 imm
  | .sd rs1 rs2 imm => lineDisp "sd" rs2 rs1 imm
  | .halt => ⟨"halt", []⟩

end Sys2Proof.Machine
end

