-- ==== Sys2Proof/Machine/Boot.lean ====
section
/-! DEFINITION. The block's ports and the reset input (spec/10_state.md R32; 70_reset_and_hazards.md
R450; 20_memory.md R60). -/

namespace Sys2Proof.Machine

/-- What the host and the Memory Store fix before the first step: the open parameters `mem_init` and
`mem_admits` (00_scope.md R8) and the program image. -/
structure BootParams where
  /-- `mem_init`: any contents, by the cells that differ from `Config.unlistedByte`. -/
  memInit : Memory
  /-- `mem_admits`, by the accesses it refuses. -/
  refused : List RefusedRegion
  /-- The flat program image, byte `k` for address `k`. -/
  image : List Byte
deriving DecidableEq, Repr

/-- The state before the first step: registers 0, PC 0, RUNNING, no record, the image at address 0
over `mem_init` (R34 to R36, R60, R450). -/
def State.boot (p : BootParams) : State :=
  { State.reset with mem := writeBytes p.memInit 0 p.image, refused := p.refused }

/-- The `reset` input, in any state: the reset state with the image loaded again (R32, R450). -/
def inputReset (p : BootParams) (_ : State) : State := State.boot p

/-- The outputs `status`, `pc` and `retired` (R32). -/
structure Outputs where
  status : BitVec 2
  pc : Addr
  retired : Option Record
deriving DecidableEq, Repr

def State.outputs (s : State) : Outputs where
  status := s.status.code
  pc := s.pc
  retired := s.retired

/-- `reg_obs(i)` (R32). -/
def State.regObs (s : State) (r : RegIdx) : Word := s.readReg r

/-- The data of `mem_read`, zero-extended to 64 bits (R32); also the state dump's read capability. -/
def State.memReadPort (s : State) (a : Addr) (w : Width) : Word := (memRead s.mem a w.bytes).setWidth 64

/-- A request on the memory port (R32). -/
inductive MemRequest where
  | read (kind : AccessKind) (address : Addr) (width : Width)
  | write (address : Addr) (width : Width) (data : Word)
deriving DecidableEq, Repr

/-- `mem_admits` on a request (20_memory.md R59). -/
def State.admitsRequest (s : State) : MemRequest → Bool
  | .read k a w => s.admits a w k
  | .write a w _ => s.admits a w .store

/-- The request of the memory access stage, for loads and stores only (40_pipeline.md R141). -/
def dataRequest (s : State) : Instr → List MemRequest
  | .lb _ rs1 imm | .lbu _ rs1 imm => [.read .load (loadAddr (s.readReg rs1) imm) .byte]
  | .lh _ rs1 imm | .lhu _ rs1 imm => [.read .load (loadAddr (s.readReg rs1) imm) .half]
  | .lw _ rs1 imm | .lwu _ rs1 imm => [.read .load (loadAddr (s.readReg rs1) imm) .word]
  | .ld _ rs1 imm => [.read .load (loadAddr (s.readReg rs1) imm) .dword]
  | .sb rs1 rs2 imm => [.write (storeAddr (s.readReg rs1) imm) .byte (s.readReg rs2)]
  | .sh rs1 rs2 imm => [.write (storeAddr (s.readReg rs1) imm) .half (s.readReg rs2)]
  | .sw rs1 rs2 imm => [.write (storeAddr (s.readReg rs1) imm) .word (s.readReg rs2)]
  | .sd rs1 rs2 imm => [.write (storeAddr (s.readReg rs1) imm) .dword (s.readReg rs2)]
  | .addi _ _ _ | .slti _ _ _ | .sltiu _ _ _ | .xori _ _ _ | .ori _ _ _ | .andi _ _ _ => []
  | .slli _ _ _ | .srli _ _ _ | .srai _ _ _ => []
  | .add _ _ _ | .sub _ _ _ | .sll _ _ _ | .slt _ _ _ | .sltu _ _ _ => []
  | .xor _ _ _ | .srl _ _ _ | .sra _ _ _ | .or _ _ _ | .and _ _ _ => []
  | .addiw _ _ _ | .slliw _ _ _ | .srliw _ _ _ | .sraiw _ _ _ => []
  | .addw _ _ _ | .subw _ _ _ | .sllw _ _ _ | .srlw _ _ _ | .sraw _ _ _ => []
  | .lui _ _ | .auipc _ _ | .jal _ _ | .jalr _ _ _ => []
  | .beq _ _ _ | .bne _ _ _ | .blt _ _ _ | .bge _ _ _ | .bltu _ _ _ | .bgeu _ _ _ => []
  | .halt => []

/-- The requests a step issues: none unless RUNNING; the fetch; then a load's read or a store's write,
and none after a halt or an illegal word (R32; 40_pipeline.md R143). DEDUCED (log entry 14): R32 does not
say which requests the port shows in a step that is stuck; here a refused request is shown and is the
step's last, so a refused fetch stands alone, its word never decoded. -/
def stepRequests (s : State) : List MemRequest :=
  match s.status with
  | .running =>
    .read .fetch s.pc .word ::
      (if s.admits s.pc .word .fetch then
        match decode s.fetchWord with
        | .ok i => dataRequest s i
        | .error _ => []
      else [])
  | .halted | .illegal => []

end Sys2Proof.Machine
end

