-- ==== Sys2Proof/Machine/Driver.lean ====
section
/-! DEFINITION. The Simulation Driver, outside the block: the loop over steps, how a run ends, and
the process exit codes (spec/40_pipeline.md R149; 60_exceptions.md R417). -/

namespace Sys2Proof.Machine

/-- How a driven run stands when the driver stops requesting steps (R149). -/
inductive RunEnd where
  /-- The returned instruction was halt: success, with the state to dump. -/
  | success (final : State)
  /-- The returned instruction was illegal: failure, reporting the PC and the raw word. -/
  | illegalInstruction (pc : Addr) (raw : Word32) (final : State)
  /-- The host's step limit; the run did not finish and has no outcome. -/
  | limitReached (final : State)
  /-- The core is stuck on a refused access; the run never ends by itself. -/
  | stuck (reason : Fault) (final : State)
  /-- The model has no meaning for the instruction. -/
  | notRun (reason : Refusal) (final : State)
deriving DecidableEq, Repr

/-- What the driver does with the record a step returned: end the run, or go on (R149). -/
def afterStep (t : State) : Option RunEnd :=
  match t.retired with
  | none => none
  | some r =>
    if r.isHalt then some (.success t)
    else if r.isLegal = some false then some (.illegalInstruction r.pc r.raw t)
    else none

/-- The driver's loop under a step limit (R149; log entry 8). -/
def drive : Nat → State → RunEnd
  | 0, s => .limitReached s
  | n + 1, s =>
    match step s with
    | .next t =>
      match afterStep t with
      | some e => e
      | none => drive n t
    | .fault f => .stuck f s
    | .refused r => .notRun r s

/-- A run from `s` under `step_limit : Option Nat` ends as `e`: with no limit, some number of steps
reaches an end that is not the limit (00_scope.md R8; R149). -/
def RunsTo (stepLimit : Option Nat) (s : State) (e : RunEnd) : Prop :=
  match stepLimit with
  | some n => drive n s = e
  | none => ∃ n, drive n s = e ∧ ∀ t, e ≠ .limitReached t

/-- The host's process exit code; a run cut by the limit or stuck has none (60_exceptions.md R417). -/
def RunEnd.exitCode : RunEnd → Option Nat
  | .success _ => some Config.exitHalt
  | .illegalInstruction _ _ _ => some Config.exitIllegal
  | .limitReached _ => none
  | .stuck _ _ => none
  | .notRun _ _ => none

end Sys2Proof.Machine
end

