-- ==== Sys2Proof/Safety.lean ====
section
/-! DEFINITION. The terms claims use: runs, safe runs, the machine's invariant, what a step writes,
and how an instruction completes. -/

namespace Sys2Proof.Machine

/-- Every access is admitted, the default of spec/20_memory.md R59. -/
def State.admitsAll (s : State) : Prop := ∀ a w k, s.admits a w k = true

/-- `t` is reached from `s` by steps. -/
inductive Reaches (s : State) : State → Prop where
  | refl : Reaches s s
  | tail {t u : State} (before : Reaches s t) (last : step t = .next u) : Reaches s u

/-- No step of a run from `s` is stuck, refused, or an illegal instruction. -/
def SafeRun (s : State) : Prop :=
  ∀ t, Reaches s t → t.status ≠ .illegal ∧ (∃ u, step t = .next u)

/-- spec/10_state.md R31: a record is a halt's, an illegal word's, or has every field that its
opcode's format defines and every value its resource flags call for. -/
def Record.complete (r : Record) : Prop :=
  r.isHalt = true ∨ r.isLegal = some false ∨
    ∃ m f, majorOf r.opcode = some m ∧ r.isLegal = some true ∧ r.flags = some f ∧
      (r.rd.isSome = m.format.definesRd) ∧ (r.funct3.isSome = m.format.definesFunct3) ∧
      (r.rs1.isSome = m.format.definesRs1) ∧ (r.rs2.isSome = m.format.definesRs2) ∧
      (r.funct7.isSome = m.format.definesFunct7) ∧
      (r.op1.isSome = f.readsRs1) ∧ (r.op2.isSome = f.readsRs2) ∧
      (r.result.isSome = f.doesArithLogic) ∧ (r.addr.isSome = (f.readsMem || f.writesMem)) ∧
      (r.memResult.isSome = f.readsMem) ∧ r.nextPC.isSome = true

/-- The machine's invariant: memory in canonical form; a HALTED state holds the record of a halt at
its PC and an ILLEGAL state the record of an illegal word at its PC (10_state.md R27;
60_exceptions.md R402, R403); the record is complete (R31). -/
structure State.Inv (s : State) : Prop where
  memory : s.mem.wf = true
  haltRecord : s.status = .halted →
    ∃ r, s.retired = some r ∧ r.isHalt = true ∧ r.raw = haltWord ∧ r.pc = s.pc
  illegalRecord : s.status = .illegal →
    ∃ r, s.retired = some r ∧ r.isHalt = false ∧ r.isLegal = some false ∧ r.pc = s.pc ∧
      r.raw ≠ haltWord ∧ lookup r.raw = none
  recordComplete : ∀ r, s.retired = some r → r.complete

/-- From `s` to `t` the register file changes by at most a write of `v` to `rd`, discarded for x0
(10_state.md R21, R22). -/
def OnlyRegister (s t : State) (rd : RegIdx) (v : Word) : Prop :=
  ∀ r, t.readReg r = if r = rd ∧ r ≠ 0 then v else s.readReg r

/-- No register changes. -/
def SameRegisters (s t : State) : Prop := ∀ r, t.readReg r = s.readReg r

/-- No byte of memory changes. -/
def SameMemory (s t : State) : Prop := ∀ a, t.readByte a = s.readByte a

/-- The run status stays, and `mem_admits` with it. -/
def SameControl (s t : State) : Prop := t.status = s.status ∧ t.refused = s.refused

/-- `exec i s` answers a next state in which `rd` holds `v` (nothing is written for x0), the PC is
`next`, and every other register, every byte of memory, the run status and `mem_admits` are as before. -/
def Yields (i : Instr) (s : State) (rd : RegIdx) (v : Word) (next : Addr) : Prop :=
  ∃ t, exec i s = .next t ∧ OnlyRegister s t rd v ∧ t.pc = next ∧ SameMemory s t ∧ SameControl s t

/-- `exec i s` answers a next state in which the PC is `next` and every register, every byte of memory,
the run status and `mem_admits` are as before. -/
def Moves (i : Instr) (s : State) (next : Addr) : Prop :=
  ∃ t, exec i s = .next t ∧ SameRegisters s t ∧ t.pc = next ∧ SameMemory s t ∧ SameControl s t

/-- The PC an instruction leaves: `pc + 4` but for jal, jalr and a taken branch (40_pipeline.md R138);
the halt leaves the PC (R133). -/
def nextPcOf (s : State) : Instr → Addr
  | .jal _ offset => s.pc + offset.signExtend 64
  | .jalr _ rs1 imm => (s.readReg rs1 + imm.signExtend 64) &&& ~~~1
  | .beq rs1 rs2 offset =>
    if s.readReg rs1 = s.readReg rs2 then s.pc + offset.signExtend 64 else s.pc + 4
  | .bne rs1 rs2 offset =>
    if s.readReg rs1 ≠ s.readReg rs2 then s.pc + offset.signExtend 64 else s.pc + 4
  | .blt rs1 rs2 offset =>
    if (s.readReg rs1).toInt < (s.readReg rs2).toInt then s.pc + offset.signExtend 64 else s.pc + 4
  | .bge rs1 rs2 offset =>
    if (s.readReg rs2).toInt ≤ (s.readReg rs1).toInt then s.pc + offset.signExtend 64 else s.pc + 4
  | .bltu rs1 rs2 offset =>
    if (s.readReg rs1).toNat < (s.readReg rs2).toNat then s.pc + offset.signExtend 64 else s.pc + 4
  | .bgeu rs1 rs2 offset =>
    if (s.readReg rs2).toNat ≤ (s.readReg rs1).toNat then s.pc + offset.signExtend 64 else s.pc + 4
  | .halt => s.pc
  | .addi _ _ _ | .slti _ _ _ | .sltiu _ _ _ | .xori _ _ _ | .ori _ _ _ | .andi _ _ _ => s.pc + 4
  | .slli _ _ _ | .srli _ _ _ | .srai _ _ _ => s.pc + 4
  | .add _ _ _ | .sub _ _ _ | .sll _ _ _ | .slt _ _ _ | .sltu _ _ _ => s.pc + 4
  | .xor _ _ _ | .srl _ _ _ | .sra _ _ _ | .or _ _ _ | .and _ _ _ => s.pc + 4
  | .addiw _ _ _ | .slliw _ _ _ | .srliw _ _ _ | .sraiw _ _ _ => s.pc + 4
  | .addw _ _ _ | .subw _ _ _ | .sllw _ _ _ | .srlw _ _ _ | .sraw _ _ _ => s.pc + 4
  | .lui _ _ | .auipc _ _ => s.pc + 4
  | .lb _ _ _ | .lh _ _ _ | .lw _ _ _ | .ld _ _ _ | .lbu _ _ _ | .lhu _ _ _ | .lwu _ _ _ => s.pc + 4
  | .sb _ _ _ | .sh _ _ _ | .sw _ _ _ | .sd _ _ _ => s.pc + 4

/-- A store kind and its width in bytes (46_loads_stores.md R347 to R350). -/
def storeBytesOf : Kind → Option Nat
  | .sb => some 1
  | .sh => some 2
  | .sw => some 4
  | .sd => some 8
  | .addi | .slti | .sltiu | .xori | .ori | .andi | .slli | .srli | .srai => none
  | .add | .sub | .sll | .slt | .sltu | .xor | .srl | .sra | .or | .and => none
  | .addiw | .slliw | .srliw | .sraiw | .addw | .subw | .sllw | .srlw | .sraw => none
  | .lui | .auipc | .jal | .jalr | .beq | .bne | .blt | .bge | .bltu | .bgeu => none
  | .lb | .lh | .lw | .ld | .lbu | .lhu | .lwu => none

/-- The word instructions of 43_word_ops.md. -/
def isWordOp : Kind → Bool
  | .addiw | .slliw | .srliw | .sraiw | .addw | .subw | .sllw | .srlw | .sraw => true
  | .addi | .slti | .sltiu | .xori | .ori | .andi | .slli | .srli | .srai => false
  | .add | .sub | .sll | .slt | .sltu | .xor | .srl | .sra | .or | .and => false
  | .lui | .auipc | .jal | .jalr | .beq | .bne | .blt | .bge | .bltu | .bgeu => false
  | .lb | .lh | .lw | .ld | .lbu | .lhu | .lwu => false
  | .sb | .sh | .sw | .sd => false

end Sys2Proof.Machine
end

