-- ==== Sys2Proof/Certificates/Slice0/Obligations.lean ====
section
/-! DEFINITION. The statements for the provers. Rule numbers are those of spec/; a docstring that
says "derived" names the decision of the spec or the log entry its statement rests on. -/

open Sys2Proof Sys2Proof.Machine

/-! ### Encoding -/

/-- Derived (30_encoding.md sections 1 to 4): every well-formed instruction's word decodes to it. -/
def Obligations.DecodeOfEncodeIsIdentity : Prop :=
  ∀ i : Instr, i.WellFormed → decode (encode i) = .ok i

/-- Derived (30_encoding.md sections 1 to 4): a word that decodes is the word of what it decodes to, so
no legal word has a bit the decoder ignores, and what it decodes to is well-formed. -/
def Obligations.EncodeOfDecodeIsIdentity : Prop :=
  ∀ (raw : Word32) (i : Instr), decode raw = .ok i → encode i = raw ∧ i.WellFormed

/-- Derived (opcode_table.json, INDEX.md): the decoder gives a row's instruction exactly on the words of
the row's mask and pattern, a word that matches no row is illegal, and no word matches two rows. -/
def Obligations.DecoderAgreesWithOpcodeTable : Prop :=
  (∀ (raw : Word32) (row : TableRow), row ∈ opcodeTable →
    (row.matches raw ↔ ∃ i, decode raw = .ok i ∧ i.kind = row.kind)) ∧
  (∀ raw : Word32, (∀ row, row ∈ opcodeTable → ¬ row.matches raw) →
    decode raw = .error (.illegalWord raw)) ∧
  (∀ (raw : Word32) (row row' : TableRow), row ∈ opcodeTable → row' ∈ opcodeTable →
    row.matches raw → row'.matches raw → row = row')

/-- R97: only the exact word 0xFEEDFEED halts, its opcode bits are no major opcode and the decode table has no
entry for it; every other word is decoded by the lookup. -/
def Obligations.OnlyTheSentinelDecodesToHalt : Prop :=
  (∀ raw : Word32, decode raw = .ok .halt ↔ raw = 0xFEEDFEED) ∧
  lookup 0xFEEDFEED = none ∧ majorOf (opcodeOf 0xFEEDFEED) = none ∧ opcodeOf 0xFEEDFEED = 0b1101101 ∧
  (∀ raw : Word32, raw ≠ 0xFEEDFEED →
    (∀ k, lookup raw = some k ↔ ∃ i, decode raw = .ok i ∧ i.kind = some k) ∧
    (lookup raw = none ↔ decode raw = .error (.illegalWord raw)))

/-- Derived (30_encoding.md sections 3 and 4; decisions D6, D9, D23): the illegal words, by group. -/
def Obligations.ReservedEncodingsAreIllegal : Prop :=
  ∀ raw : Word32,
    (decode raw = .error (.illegalWord raw) ↔ raw ≠ 0xFEEDFEED ∧ lookup raw = none) ∧
    -- the compressed space
    (raw.extractLsb' 0 2 ≠ 0b11 → lookup raw = none) ∧
    -- MISC-MEM, SYSTEM, AMO, floating point, vector and custom opcodes
    (raw.extractLsb' 0 7 ∈ [0b0001111#7, 0b1110011#7, 0b0101111#7, 0b0000111#7, 0b0100111#7,
        0b1000011#7, 0b1000111#7, 0b1001011#7, 0b1001111#7, 0b1010011#7, 0b1010111#7,
        0b0001011#7, 0b0101011#7, 0b1011011#7, 0b1111011#7] → lookup raw = none) ∧
    -- OP and OP-32 with another funct7, the M extension's among them
    (raw.extractLsb' 0 7 = 0b0110011 ∨ raw.extractLsb' 0 7 = 0b0111011 →
      raw.extractLsb' 25 7 ≠ 0b0000000 → raw.extractLsb' 25 7 ≠ 0b0100000 → lookup raw = none) ∧
    -- funct7 = 0100000 outside sub, sra, subw, sraw
    (raw.extractLsb' 0 7 = 0b0110011 ∨ raw.extractLsb' 0 7 = 0b0111011 →
      raw.extractLsb' 25 7 = 0b0100000 →
      raw.extractLsb' 12 3 ≠ 0b000 → raw.extractLsb' 12 3 ≠ 0b101 → lookup raw = none) ∧
    -- OP-32 with funct3 010, 011, 100, 110, 111
    (raw.extractLsb' 0 7 = 0b0111011 → raw.extractLsb' 12 3 ∉ [0b000#3, 0b001#3, 0b101#3] →
      lookup raw = none) ∧
    -- OP-IMM shifts with another funct6
    (raw.extractLsb' 0 7 = 0b0010011 → raw.extractLsb' 12 3 = 0b001 →
      raw.extractLsb' 26 6 ≠ 0b000000 → lookup raw = none) ∧
    (raw.extractLsb' 0 7 = 0b0010011 → raw.extractLsb' 12 3 = 0b101 →
      raw.extractLsb' 26 6 ≠ 0b000000 → raw.extractLsb' 26 6 ≠ 0b010000 → lookup raw = none) ∧
    -- OP-IMM-32: a 6-bit amount, another funct7, another funct3
    (raw.extractLsb' 0 7 = 0b0011011 → raw.extractLsb' 12 3 = 0b001 →
      raw.extractLsb' 25 7 ≠ 0b0000000 → lookup raw = none) ∧
    (raw.extractLsb' 0 7 = 0b0011011 → raw.extractLsb' 12 3 = 0b101 →
      raw.extractLsb' 25 7 ≠ 0b0000000 → raw.extractLsb' 25 7 ≠ 0b0100000 → lookup raw = none) ∧
    (raw.extractLsb' 0 7 = 0b0011011 → raw.extractLsb' 12 3 ∉ [0b000#3, 0b001#3, 0b101#3] →
      lookup raw = none) ∧
    -- the holes of table A
    (raw.extractLsb' 0 7 = 0b0000011 → raw.extractLsb' 12 3 = 0b111 → lookup raw = none) ∧
    (raw.extractLsb' 0 7 = 0b0100011 → 4 ≤ (raw.extractLsb' 12 3).toNat → lookup raw = none) ∧
    (raw.extractLsb' 0 7 = 0b1100011 → raw.extractLsb' 12 3 ∈ [0b010#3, 0b011#3] → lookup raw = none) ∧
    (raw.extractLsb' 0 7 = 0b1100111 → raw.extractLsb' 12 3 ≠ 0b000 → lookup raw = none)

/-- Derived (worked examples of 41 to 46 and 30_encoding.md section 4): words the spec prints, with the
instruction it prints beside them. -/
def Obligations.PublishedWordsDecodeAsPrinted : Prop :=
  decode 0xFFF30293 = .ok (.addi 5 6 (-1)) ∧
  decode 0x43C35293 = .ok (.srai 5 6 60) ∧
  decode 0x402081B3 = .ok (.sub 3 1 2) ∧
  decode 0x4043529B = .ok (.sraiw 5 6 4) ∧
  decode 0x0020D1BB = .ok (.srlw 3 1 2) ∧
  decode 0x800002B7 = .ok (.lui 5 0x80000) ∧
  decode 0x00001297 = .ok (.auipc 5 1) ∧
  decode 0x008000EF = .ok (.jal 1 8) ∧
  decode 0xF01FF06F = .ok (.jal 0 (-256)) ∧
  decode 0x004080E7 = .ok (.jalr 1 1 4) ∧
  decode 0xFE2088E3 = .ok (.beq 1 2 (-16)) ∧
  decode 0xFF830283 = .ok (.lb 5 6 (-8)) ∧
  decode 0xFE732FA3 = .ok (.sw 6 7 (-1)) ∧
  decode 0xFEEDFEED = .ok .halt ∧
  decode 0x00000073 = .error (.illegalWord 0x00000073)

/-! ### What each instruction does -/

/-- R200 to R205: the OP-IMM adds, compares and logic operations. -/
def Obligations.OpImmAluResults : Prop :=
  ∀ (rd rs1 : RegIdx) (imm : BitVec 12) (s : State),
    (encode (.addi rd rs1 imm) = (imm ++ rs1 ++ 0b000#3 ++ rd ++ 0b0010011#7 : Word32) ∧
      Yields (.addi rd rs1 imm) s rd (s.readReg rs1 + imm.signExtend 64) (s.pc + 4) ∧
      (∀ t, exec (.addi rd rs1 imm) s = .next t →
        ∃ r, t.retired = some r ∧ (r.isNop = true ↔ rd = 0 ∧ rs1 = 0 ∧ imm = 0))) ∧
    (encode (.slti rd rs1 imm) = (imm ++ rs1 ++ 0b010#3 ++ rd ++ 0b0010011#7 : Word32) ∧
      Yields (.slti rd rs1 imm) s rd (if (s.readReg rs1).toInt < imm.toInt then 1 else 0) (s.pc + 4)) ∧
    (encode (.sltiu rd rs1 imm) = (imm ++ rs1 ++ 0b011#3 ++ rd ++ 0b0010011#7 : Word32) ∧
      Yields (.sltiu rd rs1 imm) s rd
        (if (s.readReg rs1).toNat < (imm.signExtend 64).toNat then 1 else 0) (s.pc + 4)) ∧
    (encode (.xori rd rs1 imm) = (imm ++ rs1 ++ 0b100#3 ++ rd ++ 0b0010011#7 : Word32) ∧
      Yields (.xori rd rs1 imm) s rd (s.readReg rs1 ^^^ imm.signExtend 64) (s.pc + 4)) ∧
    (encode (.ori rd rs1 imm) = (imm ++ rs1 ++ 0b110#3 ++ rd ++ 0b0010011#7 : Word32) ∧
      Yields (.ori rd rs1 imm) s rd (s.readReg rs1 ||| imm.signExtend 64) (s.pc + 4)) ∧
    (encode (.andi rd rs1 imm) = (imm ++ rs1 ++ 0b111#3 ++ rd ++ 0b0010011#7 : Word32) ∧
      Yields (.andi rd rs1 imm) s rd (s.readReg rs1 &&& imm.signExtend 64) (s.pc + 4))

/-- Derived (41_integer_immediate.md; decision D6 for the discriminator): slli multiplies, srli divides the
unsigned and srai the signed value by 2^shamt, rounding down. -/
def Obligations.OpImmShiftResults : Prop :=
  ∀ (rd rs1 : RegIdx) (shamt : BitVec 6) (s : State),
    (encode (.slli rd rs1 shamt) = (0b000000#6 ++ shamt ++ rs1 ++ 0b001#3 ++ rd ++ 0b0010011#7 : Word32) ∧
      Yields (.slli rd rs1 shamt) s rd
        (BitVec.ofNat 64 ((s.readReg rs1).toNat * 2 ^ shamt.toNat)) (s.pc + 4)) ∧
    (encode (.srli rd rs1 shamt) = (0b000000#6 ++ shamt ++ rs1 ++ 0b101#3 ++ rd ++ 0b0010011#7 : Word32) ∧
      Yields (.srli rd rs1 shamt) s rd
        (BitVec.ofNat 64 ((s.readReg rs1).toNat / 2 ^ shamt.toNat)) (s.pc + 4)) ∧
    (encode (.srai rd rs1 shamt) = (0b010000#6 ++ shamt ++ rs1 ++ 0b101#3 ++ rd ++ 0b0010011#7 : Word32) ∧
      Yields (.srai rd rs1 shamt) s rd
        (BitVec.ofInt 64 ((s.readReg rs1).toInt / 2 ^ shamt.toNat)) (s.pc + 4))

/-- R230, R231, R233, R234, R235, R238, R239: the OP instructions that are not shifts. -/
def Obligations.OpAluResults : Prop :=
  ∀ (rd rs1 rs2 : RegIdx) (s : State),
    (encode (.add rd rs1 rs2) = (0b0000000#7 ++ rs2 ++ rs1 ++ 0b000#3 ++ rd ++ 0b0110011#7 : Word32) ∧
      Yields (.add rd rs1 rs2) s rd (s.readReg rs1 + s.readReg rs2) (s.pc + 4)) ∧
    (encode (.sub rd rs1 rs2) = (0b0100000#7 ++ rs2 ++ rs1 ++ 0b000#3 ++ rd ++ 0b0110011#7 : Word32) ∧
      Yields (.sub rd rs1 rs2) s rd (s.readReg rs1 - s.readReg rs2) (s.pc + 4)) ∧
    (encode (.slt rd rs1 rs2) = (0b0000000#7 ++ rs2 ++ rs1 ++ 0b010#3 ++ rd ++ 0b0110011#7 : Word32) ∧
      Yields (.slt rd rs1 rs2) s rd
        (if (s.readReg rs1).toInt < (s.readReg rs2).toInt then 1 else 0) (s.pc + 4)) ∧
    (encode (.sltu rd rs1 rs2) = (0b0000000#7 ++ rs2 ++ rs1 ++ 0b011#3 ++ rd ++ 0b0110011#7 : Word32) ∧
      Yields (.sltu rd rs1 rs2) s rd
        (if (s.readReg rs1).toNat < (s.readReg rs2).toNat then 1 else 0) (s.pc + 4)) ∧
    (encode (.xor rd rs1 rs2) = (0b0000000#7 ++ rs2 ++ rs1 ++ 0b100#3 ++ rd ++ 0b0110011#7 : Word32) ∧
      Yields (.xor rd rs1 rs2) s rd (s.readReg rs1 ^^^ s.readReg rs2) (s.pc + 4)) ∧
    (encode (.or rd rs1 rs2) = (0b0000000#7 ++ rs2 ++ rs1 ++ 0b110#3 ++ rd ++ 0b0110011#7 : Word32) ∧
      Yields (.or rd rs1 rs2) s rd (s.readReg rs1 ||| s.readReg rs2) (s.pc + 4)) ∧
    (encode (.and rd rs1 rs2) = (0b0000000#7 ++ rs2 ++ rs1 ++ 0b111#3 ++ rd ++ 0b0110011#7 : Word32) ∧
      Yields (.and rd rs1 rs2) s rd (s.readReg rs1 &&& s.readReg rs2) (s.pc + 4))

/-- Derived (42_integer_register.md; decision D7 for the amount, `op2` modulo 64): sll, srl, sra. -/
def Obligations.OpShiftResults : Prop :=
  ∀ (rd rs1 rs2 : RegIdx) (s : State),
    (encode (.sll rd rs1 rs2) = (0b0000000#7 ++ rs2 ++ rs1 ++ 0b001#3 ++ rd ++ 0b0110011#7 : Word32) ∧
      Yields (.sll rd rs1 rs2) s rd
        (BitVec.ofNat 64 ((s.readReg rs1).toNat * 2 ^ ((s.readReg rs2).toNat % 64))) (s.pc + 4)) ∧
    (encode (.srl rd rs1 rs2) = (0b0000000#7 ++ rs2 ++ rs1 ++ 0b101#3 ++ rd ++ 0b0110011#7 : Word32) ∧
      Yields (.srl rd rs1 rs2) s rd
        (BitVec.ofNat 64 ((s.readReg rs1).toNat / 2 ^ ((s.readReg rs2).toNat % 64))) (s.pc + 4)) ∧
    (encode (.sra rd rs1 rs2) = (0b0100000#7 ++ rs2 ++ rs1 ++ 0b101#3 ++ rd ++ 0b0110011#7 : Word32) ∧
      Yields (.sra rd rs1 rs2) s rd
        (BitVec.ofInt 64 ((s.readReg rs1).toInt / 2 ^ ((s.readReg rs2).toNat % 64))) (s.pc + 4))

/-- R260, R264, R265: addiw, addw, subw. -/
def Obligations.WordAluResults : Prop :=
  ∀ (rd rs1 rs2 : RegIdx) (imm : BitVec 12) (s : State),
    (encode (.addiw rd rs1 imm) = (imm ++ rs1 ++ 0b000#3 ++ rd ++ 0b0011011#7 : Word32) ∧
      Yields (.addiw rd rs1 imm) s rd
        (((s.readReg rs1 + imm.signExtend 64).setWidth 32).signExtend 64) (s.pc + 4)) ∧
    (encode (.addw rd rs1 rs2) = (0b0000000#7 ++ rs2 ++ rs1 ++ 0b000#3 ++ rd ++ 0b0111011#7 : Word32) ∧
      Yields (.addw rd rs1 rs2) s rd
        (((s.readReg rs1).setWidth 32 + (s.readReg rs2).setWidth 32).signExtend 64) (s.pc + 4)) ∧
    (encode (.subw rd rs1 rs2) = (0b0100000#7 ++ rs2 ++ rs1 ++ 0b000#3 ++ rd ++ 0b0111011#7 : Word32) ∧
      Yields (.subw rd rs1 rs2) s rd
        (((s.readReg rs1).setWidth 32 - (s.readReg rs2).setWidth 32).signExtend 64) (s.pc + 4))

/-- Derived (43_word_ops.md; decisions D6 and D7): the word shifts, on the low 32 bits, the result
sign-extended; the register forms take the amount modulo 32. -/
def Obligations.WordShiftResults : Prop :=
  ∀ (rd rs1 rs2 : RegIdx) (shamt : BitVec 5) (s : State),
    let low := (s.readReg rs1).setWidth 32
    let amount := (s.readReg rs2).toNat % 32
    (encode (.slliw rd rs1 shamt) = (0b0000000#7 ++ shamt ++ rs1 ++ 0b001#3 ++ rd ++ 0b0011011#7 : Word32) ∧
      Yields (.slliw rd rs1 shamt) s rd
        ((BitVec.ofNat 32 (low.toNat * 2 ^ shamt.toNat)).signExtend 64) (s.pc + 4)) ∧
    (encode (.srliw rd rs1 shamt) = (0b0000000#7 ++ shamt ++ rs1 ++ 0b101#3 ++ rd ++ 0b0011011#7 : Word32) ∧
      Yields (.srliw rd rs1 shamt) s rd
        ((BitVec.ofNat 32 (low.toNat / 2 ^ shamt.toNat)).signExtend 64) (s.pc + 4)) ∧
    (encode (.sraiw rd rs1 shamt) = (0b0100000#7 ++ shamt ++ rs1 ++ 0b101#3 ++ rd ++ 0b0011011#7 : Word32) ∧
      Yields (.sraiw rd rs1 shamt) s rd (BitVec.ofInt 64 (low.toInt / 2 ^ shamt.toNat)) (s.pc + 4)) ∧
    (encode (.sllw rd rs1 rs2) = (0b0000000#7 ++ rs2 ++ rs1 ++ 0b001#3 ++ rd ++ 0b0111011#7 : Word32) ∧
      Yields (.sllw rd rs1 rs2) s rd ((BitVec.ofNat 32 (low.toNat * 2 ^ amount)).signExtend 64) (s.pc + 4)) ∧
    (encode (.srlw rd rs1 rs2) = (0b0000000#7 ++ rs2 ++ rs1 ++ 0b101#3 ++ rd ++ 0b0111011#7 : Word32) ∧
      Yields (.srlw rd rs1 rs2) s rd ((BitVec.ofNat 32 (low.toNat / 2 ^ amount)).signExtend 64) (s.pc + 4)) ∧
    (encode (.sraw rd rs1 rs2) = (0b0100000#7 ++ rs2 ++ rs1 ++ 0b101#3 ++ rd ++ 0b0111011#7 : Word32) ∧
      Yields (.sraw rd rs1 rs2) s rd (BitVec.ofInt 64 (low.toInt / 2 ^ amount)) (s.pc + 4))

/-- R290, R291: lui and auipc. -/
def Obligations.UpperImmediateResults : Prop :=
  ∀ (rd : RegIdx) (imm20 : BitVec 20) (s : State),
    (encode (.lui rd imm20) = (imm20 ++ rd ++ 0b0110111#7 : Word32) ∧
      Yields (.lui rd imm20) s rd (imm20.signExtend 64 <<< 12) (s.pc + 4)) ∧
    (encode (.auipc rd imm20) = (imm20 ++ rd ++ 0b0010111#7 : Word32) ∧
      Yields (.auipc rd imm20) s rd (s.pc + (imm20.signExtend 64 <<< 12)) (s.pc + 4))

/-- R310: jal, its encoding, its flags, that every word of its opcode is a jal, and that an even offset from an
even PC leads to an even target. -/
def Obligations.JalResult : Prop :=
  (∀ (rd : RegIdx) (offset : BitVec 21) (s : State),
    encode (.jal rd offset) =
      (offset.extractLsb' 20 1 ++ offset.extractLsb' 1 10 ++ offset.extractLsb' 11 1
        ++ offset.extractLsb' 12 8 ++ rd ++ 0b1101111#7 : Word32) ∧
    Yields (.jal rd offset) s rd (s.pc + 4) (s.pc + offset.signExtend 64) ∧
    (s.pc.getLsbD 0 = false → offset.getLsbD 0 = false → (s.pc + offset.signExtend 64).getLsbD 0 = false)) ∧
  (∀ raw : Word32, raw.extractLsb' 0 7 = 0b1101111 →
    decode raw = .ok (.jal (raw.extractLsb' 7 5)
      (raw.extractLsb' 31 1 ++ raw.extractLsb' 12 8 ++ raw.extractLsb' 20 1 ++ raw.extractLsb' 21 10 ++ 0#1))) ∧
  descriptor .jal = ⟨false, false, true, false, false, true⟩

/-- Derived (45_control_transfer.md; decision D9 for funct3): jalr, the target from the old base register
with bit 0 cleared, the link into `rd`. -/
def Obligations.JalrResult : Prop :=
  ∀ (rd rs1 : RegIdx) (imm : BitVec 12) (s : State),
    encode (.jalr rd rs1 imm) = (imm ++ rs1 ++ 0b000#3 ++ rd ++ 0b1100111#7 : Word32) ∧
    Yields (.jalr rd rs1 imm) s rd (s.pc + 4) ((s.readReg rs1 + imm.signExtend 64) &&& 0xFFFFFFFFFFFFFFFE)

/-- R312 to R317: the six branches. -/
def Obligations.BranchResults : Prop :=
  ∀ (rs1 rs2 : RegIdx) (offset : BitVec 13) (s : State),
    let word := fun f3 : BitVec 3 =>
      (offset.extractLsb' 12 1 ++ offset.extractLsb' 5 6 ++ rs2 ++ rs1 ++ f3
        ++ offset.extractLsb' 1 4 ++ offset.extractLsb' 11 1 ++ 0b1100011#7 : Word32)
    let goto := fun taken : Bool => if taken then s.pc + offset.signExtend 64 else s.pc + 4
    let op1 := s.readReg rs1
    let op2 := s.readReg rs2
    (encode (.beq rs1 rs2 offset) = word 0b000 ∧ Moves (.beq rs1 rs2 offset) s (goto (op1 = op2))) ∧
    (encode (.bne rs1 rs2 offset) = word 0b001 ∧ Moves (.bne rs1 rs2 offset) s (goto (op1 ≠ op2))) ∧
    (encode (.blt rs1 rs2 offset) = word 0b100 ∧
      Moves (.blt rs1 rs2 offset) s (goto (op1.toInt < op2.toInt))) ∧
    (encode (.bge rs1 rs2 offset) = word 0b101 ∧
      Moves (.bge rs1 rs2 offset) s (goto (op2.toInt ≤ op1.toInt))) ∧
    (encode (.bltu rs1 rs2 offset) = word 0b110 ∧
      Moves (.bltu rs1 rs2 offset) s (goto (op1.toNat < op2.toNat))) ∧
    (encode (.bgeu rs1 rs2 offset) = word 0b111 ∧
      Moves (.bgeu rs1 rs2 offset) s (goto (op2.toNat ≤ op1.toNat)))

/-- R340 to R346: the loads, where the access is admitted. -/
def Obligations.LoadResults : Prop :=
  ∀ (rd rs1 : RegIdx) (imm : BitVec 12) (s : State),
    let a := s.readReg rs1 + imm.signExtend 64
    (encode (.lb rd rs1 imm) = (imm ++ rs1 ++ 0b000#3 ++ rd ++ 0b0000011#7 : Word32) ∧
      (s.admits a .byte .load = true →
        Yields (.lb rd rs1 imm) s rd ((memRead s.mem a 1).signExtend 64) (s.pc + 4))) ∧
    (encode (.lh rd rs1 imm) = (imm ++ rs1 ++ 0b001#3 ++ rd ++ 0b0000011#7 : Word32) ∧
      (s.admits a .half .load = true →
        Yields (.lh rd rs1 imm) s rd ((memRead s.mem a 2).signExtend 64) (s.pc + 4))) ∧
    (encode (.lw rd rs1 imm) = (imm ++ rs1 ++ 0b010#3 ++ rd ++ 0b0000011#7 : Word32) ∧
      (s.admits a .word .load = true →
        Yields (.lw rd rs1 imm) s rd ((memRead s.mem a 4).signExtend 64) (s.pc + 4))) ∧
    (encode (.ld rd rs1 imm) = (imm ++ rs1 ++ 0b011#3 ++ rd ++ 0b0000011#7 : Word32) ∧
      (s.admits a .dword .load = true →
        Yields (.ld rd rs1 imm) s rd (memRead s.mem a 8) (s.pc + 4))) ∧
    (encode (.lbu rd rs1 imm) = (imm ++ rs1 ++ 0b100#3 ++ rd ++ 0b0000011#7 : Word32) ∧
      (s.admits a .byte .load = true →
        Yields (.lbu rd rs1 imm) s rd ((memRead s.mem a 1).setWidth 64) (s.pc + 4))) ∧
    (encode (.lhu rd rs1 imm) = (imm ++ rs1 ++ 0b101#3 ++ rd ++ 0b0000011#7 : Word32) ∧
      (s.admits a .half .load = true →
        Yields (.lhu rd rs1 imm) s rd ((memRead s.mem a 2).setWidth 64) (s.pc + 4))) ∧
    (encode (.lwu rd rs1 imm) = (imm ++ rs1 ++ 0b110#3 ++ rd ++ 0b0000011#7 : Word32) ∧
      (s.admits a .word .load = true →
        Yields (.lwu rd rs1 imm) s rd ((memRead s.mem a 4).setWidth 64) (s.pc + 4)))

/-- Derived (20_memory.md sections 2 and 3; decisions D2, D3): `MemRead` of each width is the bytes from the
address on, modulo 2^64, the first least significant, at any alignment. -/
def Obligations.MemReadIsLittleEndian : Prop :=
  ∀ (m : Memory) (a : Addr),
    memRead m a 1 = m.readByte a ∧
    memRead m a 2 = (m.readByte (a + 1) ++ m.readByte a : BitVec 16) ∧
    memRead m a 4 =
      (m.readByte (a + 3) ++ m.readByte (a + 2) ++ m.readByte (a + 1) ++ m.readByte a : BitVec 32) ∧
    memRead m a 8 =
      (m.readByte (a + 7) ++ m.readByte (a + 6) ++ m.readByte (a + 5) ++ m.readByte (a + 4)
        ++ m.readByte (a + 3) ++ m.readByte (a + 2) ++ m.readByte (a + 1) ++ m.readByte a : BitVec 64)

/-- R347 to R350: the stores, where the access is admitted: the low bytes of `rs2` at the address
the base and the S-immediate give, and no other byte, register or status changes. -/
def Obligations.StoreResults : Prop :=
  ∀ (rs1 rs2 : RegIdx) (imm : BitVec 12) (s : State),
    let a := storeAddr (s.readReg rs1) imm
    let word := fun f3 : BitVec 3 =>
      (imm.extractLsb' 5 7 ++ rs2 ++ rs1 ++ f3 ++ imm.extractLsb' 0 5 ++ 0b0100011#7 : Word32)
    let stores := fun (i : Instr) (n : Nat) =>
      ∃ t, exec i s = .next t ∧ SameRegisters s t ∧ t.pc = s.pc + 4 ∧ SameControl s t ∧
        (∀ b, t.readByte b = (memWrite s.mem a n (s.readReg rs2)).readByte b) ∧
        (∀ b, (∀ k, k < n → b ≠ a + BitVec.ofNat 64 k) → t.readByte b = s.readByte b)
    a = s.readReg rs1 + imm.signExtend 64 ∧
    (encode (.sb rs1 rs2 imm) = word 0b000 ∧
      (s.admits a .byte .store = true → stores (.sb rs1 rs2 imm) 1)) ∧
    (encode (.sh rs1 rs2 imm) = word 0b001 ∧
      (s.admits a .half .store = true → stores (.sh rs1 rs2 imm) 2)) ∧
    (encode (.sw rs1 rs2 imm) = word 0b010 ∧
      (s.admits a .word .store = true → stores (.sw rs1 rs2 imm) 4)) ∧
    (encode (.sd rs1 rs2 imm) = word 0b011 ∧
      (s.admits a .dword .store = true → stores (.sd rs1 rs2 imm) 8))

/-- Derived (20_memory.md sections 2 and 3; decisions D2, D3): `MemWrite` puts the value's byte `k` at
`a + k` modulo 2^64 and leaves every other byte, at any alignment and in any memory. -/
def Obligations.MemWriteIsLittleEndian : Prop :=
  ∀ (m : Memory) (a : Addr) (v : Word) (w : Width),
    (∀ k, k < w.bytes →
      (memWrite m a w.bytes v).readByte (a + BitVec.ofNat 64 k) = (v >>> (8 * k)).setWidth 8) ∧
    (∀ b, (∀ k, k < w.bytes → b ≠ a + BitVec.ofNat 64 k) →
      (memWrite m a w.bytes v).readByte b = m.readByte b)

/-- Derived (46_loads_stores.md section 3, 90_conflicts.md C11): a load of the width and address of the
store before it gives the stored value's low bits, extended by the load's rule. -/
def Obligations.StoreThenLoadRoundTrip : Prop :=
  ∀ (rs1 rs2 rd : RegIdx) (imm : BitVec 12) (s : State), s.admitsAll → rd ≠ 0 →
    let after := fun (st ld : Instr) (v : Word) =>
      ∃ t u, exec st s = .next t ∧ exec ld t = .next u ∧ u.readReg rd = v
    let v := s.readReg rs2
    after (.sb rs1 rs2 imm) (.lb rd rs1 imm) ((v.setWidth 8).signExtend 64) ∧
    after (.sb rs1 rs2 imm) (.lbu rd rs1 imm) ((v.setWidth 8).setWidth 64) ∧
    after (.sh rs1 rs2 imm) (.lh rd rs1 imm) ((v.setWidth 16).signExtend 64) ∧
    after (.sh rs1 rs2 imm) (.lhu rd rs1 imm) ((v.setWidth 16).setWidth 64) ∧
    after (.sw rs1 rs2 imm) (.lw rd rs1 imm) ((v.setWidth 32).signExtend 64) ∧
    after (.sw rs1 rs2 imm) (.lwu rd rs1 imm) ((v.setWidth 32).setWidth 64) ∧
    after (.sd rs1 rs2 imm) (.ld rd rs1 imm) v

/-- Derived (20_memory.md section 3; decision D5, D16): a load or store whose access is refused is stuck,
also a load into x0; no other state is given. -/
def Obligations.RefusedDataAccessIsStuck : Prop :=
  ∀ (r rs1 : RegIdx) (imm : BitVec 12) (s : State),
    let a := s.readReg rs1 + imm.signExtend 64
    (s.admits a .byte .load = false →
      exec (.lb r rs1 imm) s = .fault (.loadRefused a .byte) ∧
      exec (.lbu r rs1 imm) s = .fault (.loadRefused a .byte)) ∧
    (s.admits a .half .load = false →
      exec (.lh r rs1 imm) s = .fault (.loadRefused a .half) ∧
      exec (.lhu r rs1 imm) s = .fault (.loadRefused a .half)) ∧
    (s.admits a .word .load = false →
      exec (.lw r rs1 imm) s = .fault (.loadRefused a .word) ∧
      exec (.lwu r rs1 imm) s = .fault (.loadRefused a .word)) ∧
    (s.admits a .dword .load = false → exec (.ld r rs1 imm) s = .fault (.loadRefused a .dword)) ∧
    (s.admits a .byte .store = false → exec (.sb rs1 r imm) s = .fault (.storeRefused a .byte)) ∧
    (s.admits a .half .store = false → exec (.sh rs1 r imm) s = .fault (.storeRefused a .half)) ∧
    (s.admits a .word .store = false → exec (.sw rs1 r imm) s = .fault (.storeRefused a .word)) ∧
    (s.admits a .dword .store = false → exec (.sd rs1 r imm) s = .fault (.storeRefused a .dword))

/-! ### The step -/

/-- Derived (40_pipeline.md section 5): in RUNNING, with the fetch admitted, a step is `exec` of the
instruction the word at the PC decodes to. -/
def Obligations.StepRunsTheDecodedInstruction : Prop :=
  ∀ (s : State) (i : Instr), s.status = .running → s.admits s.pc .word .fetch = true →
    decode s.fetchWord = .ok i → step s = exec i s

/-- Derived (log entry 9): from any state, with an instruction's word placed where the step fetches, the
next step runs that instruction. -/
def Obligations.PlacedWordRunsNext : Prop :=
  ∀ (s : State) (i : Instr), i.WellFormed →
    (s.withFetchWord 32 (encode i).toNat).pc = s.pc ∧
    step (s.withFetchWord 32 (encode i).toNat) = exec i (s.withFetchWord 32 (encode i).toNat)

/-- Derived (60_exceptions.md section 1, R402; 40_pipeline.md sections 2 and 5, R136, R147): the illegal
instruction: ILLEGAL, the PC kept, isLegal = 0 and the raw word in the record, and no register or memory
byte changed. That `result`, `addr` and `nextPC` are absent is the model's choice (log entry 5, DEDUCED). -/
def Obligations.IllegalWordEndsTheRun : Prop :=
  ∀ s : State, s.status = .running → s.admits s.pc .word .fetch = true →
    s.fetchWord ≠ 0xFEEDFEED → lookup s.fetchWord = none →
    ∃ t r, step s = .next t ∧ t.status = .illegal ∧ t.pc = s.pc ∧ SameRegisters s t ∧ SameMemory s t ∧
      t.refused = s.refused ∧ t.retired = some r ∧ r.isLegal = some false ∧ r.isHalt = false ∧
      r.pc = s.pc ∧ r.raw = s.fetchWord ∧ r.result = none ∧ r.addr = none ∧ r.nextPC = none

/-- R403: the halt sentinel at any PC: HALTED, the PC kept, no register or memory byte changed. -/
def Obligations.HaltSentinelEndsTheRun : Prop :=
  (∀ s : State, ∃ t r, exec .halt s = .next t ∧ t.status = .halted ∧ t.pc = s.pc ∧ SameRegisters s t ∧
    SameMemory s t ∧ t.refused = s.refused ∧ t.retired = some r ∧ r.isHalt = true ∧
    r.raw = 0xFEEDFEED ∧ r.pc = s.pc) ∧
  (∀ s : State, s.status = .running → s.admits s.pc .word .fetch = true → s.fetchWord = 0xFEEDFEED →
    step s = exec .halt s)

/-- Derived (60_exceptions.md section 2; decision D5): a refused fetch is stuck whatever the word is, before
the halt test. -/
def Obligations.RefusedFetchIsStuck : Prop :=
  ∀ s : State, s.status = .running → s.admits s.pc .word .fetch = false →
    step s = .fault (.fetchRefused s.pc)

/-- Derived (40_pipeline.md section 5; decision D13): HALTED and ILLEGAL are left by no number of steps. -/
def Obligations.TerminalStatesAreFinal : Prop :=
  ∀ s t : State, s.status ≠ .running → Reaches s t → t = s

/-- R400: a step in RUNNING ends in exactly one of a commit, a halt, an illegal instruction, or no
transition because `mem_admits` refuses its fetch, or the data access of the instruction it decodes to. -/
def Obligations.StepEndsInOneOutcome : Prop :=
  ∀ s : State, s.status = .running →
    (∃ t, step s = .next t ∧ t.status = .running ∧ s.fetchWord ≠ 0xFEEDFEED ∧
      (lookup s.fetchWord).isSome = true) ∨
    (∃ t, step s = .next t ∧ t.status = .halted ∧ s.fetchWord = 0xFEEDFEED) ∨
    (∃ t, step s = .next t ∧ t.status = .illegal ∧ s.fetchWord ≠ 0xFEEDFEED ∧ lookup s.fetchWord = none) ∨
    (∃ f, step s = .fault f ∧
      (s.admits s.pc .word .fetch = false ∨
        (s.admits s.pc .word .fetch = true ∧
          ∃ i q, decode s.fetchWord = .ok i ∧ q ∈ dataRequest s i ∧ s.admitsRequest q = false)))

/-- Derived (10_state.md section 6, 20_memory.md section 3; decisions D1, D5): a step issues the fetch and at
most one data request, and it is stuck exactly if one of them is refused. That a refused request is among
those it issues is the model's choice (log entry 14, DEDUCED). -/
def Obligations.StuckExactlyOnARefusedRequest : Prop :=
  ∀ s : State, s.status = .running →
    ((∃ f, step s = .fault f) ↔ ∃ q, q ∈ stepRequests s ∧ s.admitsRequest q = false) ∧
    (stepRequests s).head? = some (.read .fetch s.pc .word) ∧ (stepRequests s).length ≤ 2

/-- R98: the canonical NOP is legal, writes nothing, advances the PC by 4 and is marked, and runs as the addi it
is; no other word is marked. -/
def Obligations.CanonicalNopOnlyAdvances : Prop :=
  (∀ s : State, s.status = .running → s.admits s.pc .word .fetch = true → s.fetchWord = 0x00000013 →
    ∃ t r, step s = .next t ∧ SameRegisters s t ∧ SameMemory s t ∧ SameControl s t ∧ t.pc = s.pc + 4 ∧
      t.retired = some r ∧ r.isNop = true ∧ r.isLegal = some true ∧ exec (.addi 0 0 0) s = .next t) ∧
  (∀ s t : State, s.status = .running → s.fetchWord ≠ 0x00000013 → step s = .next t →
    ∃ r, t.retired = some r ∧ r.isNop = false)

/-! ### The record, commit and the stages -/

/-- Derived (40_pipeline.md sections 2 and 5, R136, R147): every step in RUNNING that completes returns its
record, with the fetch's PC and word. That a halt's and an illegal word's hold no resource flags and nothing
past decode is the model's choice of what is absent (log entry 5, DEDUCED). -/
def Obligations.EveryStepReturnsItsRecord : Prop :=
  ∀ s t : State, s.status = .running → step s = .next t →
    ∃ r, t.retired = some r ∧ r.pc = s.pc ∧ r.raw = s.fetchWord ∧ r.opcode = s.fetchWord.extractLsb' 0 7 ∧
      (r.isHalt = true ↔ s.fetchWord = 0xFEEDFEED) ∧
      (r.isLegal = some false ↔ s.fetchWord ≠ 0xFEEDFEED ∧ lookup s.fetchWord = none) ∧
      (r.isHalt = true ∨ r.isLegal = some false →
        r.flags = none ∧ r.op1 = none ∧ r.op2 = none ∧ r.result = none ∧ r.addr = none ∧
        r.memResult = none ∧ r.nextPC = none)

/-- R137: a source register is read into the record exactly if the kind's resource flags say so; lui, auipc and
jal read none, and a read of x0 yields 0. -/
def Obligations.OperandsReadExactlyAsFlagged : Prop :=
  (∀ s : State, s.readReg 0 = 0) ∧
  (∀ k ∈ [Kind.lui, .auipc, .jal], (descriptor k).readsRs1 = false ∧ (descriptor k).readsRs2 = false) ∧
  ∀ (i : Instr) (k : Kind) (s t : State), i.kind = some k → exec i s = .next t →
    ∃ r, t.retired = some r ∧ r.flags = some (descriptor k) ∧
      r.op1 = (if (descriptor k).readsRs1 then some (s.readReg ((encode i).extractLsb' 15 5)) else none) ∧
      r.op2 = (if (descriptor k).readsRs2 then some (s.readReg ((encode i).extractLsb' 20 5)) else none)

/-- R142: commit writes `rd` with the loaded value or the result exactly if `writesRd`, never x0, and the PC
with the record's next PC. -/
def Obligations.CommitWritesResultAndPc : Prop :=
  ∀ (i : Instr) (k : Kind) (s t : State), i.kind = some k → exec i s = .next t →
    ∃ r, t.retired = some r ∧ r.nextPC = some t.pc ∧
      (if (descriptor k).writesRd then
        ∃ v, (if (descriptor k).readsMem then r.memResult else r.result) = some v ∧
          OnlyRegister s t ((encode i).extractLsb' 7 5) v
      else SameRegisters s t)

/-- R138: the next PC of every instruction. -/
def Obligations.NextPcOfEveryInstruction : Prop :=
  ∀ (i : Instr) (s t : State), exec i s = .next t → t.pc = nextPcOf s i

/-- Derived (10_state.md section 1, 40_pipeline.md section 5): a step changes a register only in RUNNING, only
the fetched word's `rd`, and only if the kind it is looked up as has `writesRd`. -/
def Obligations.OnlyCommitWritesTheRegisterFile : Prop :=
  ∀ (s t : State) (r : RegIdx), step s = .next t → t.readReg r ≠ s.readReg r →
    s.status = .running ∧ r ≠ 0 ∧ r = s.fetchWord.extractLsb' 7 5 ∧
      ∃ k, lookup s.fetchWord = some k ∧ (descriptor k).writesRd = true

/-- Derived (20_memory.md section 2, 10_state.md section 6): a step changes a byte of memory only as a store,
within the store's own bytes. -/
def Obligations.OnlyStoresChangeMemory : Prop :=
  ∀ (s t : State) (b : Addr), step s = .next t → t.readByte b ≠ s.readByte b →
    s.status = .running ∧ ∃ k n, lookup s.fetchWord = some k ∧ storeBytesOf k = some n ∧
      ∃ j, j < n ∧ b = storeAddr (s.readReg (s.fetchWord.extractLsb' 15 5)) (immSOf s.fetchWord) +
        BitVec.ofNat 64 j

/-- R21: x0 reads 0 in every state, a write to it changes nothing, and no instruction whose `rd` bits are 0
changes a register. -/
def Obligations.RegisterZeroIsHardwired : Prop :=
  (∀ s : State, s.readReg 0 = 0) ∧ (∀ (s : State) (v : Word), s.writeReg 0 v = s) ∧
  (∀ (i : Instr) (s t : State), (encode i).extractLsb' 7 5 = 0 → exec i s = .next t → SameRegisters s t)

/-- R269: a word instruction's result depends on the low 32 bits of the registers alone and is the sign
extension of its own low 32 bits. -/
def Obligations.WordLaw : Prop :=
  ∀ (i : Instr) (k : Kind) (s s' t t' : State), i.kind = some k → isWordOp k = true →
    (∀ r, (s.readReg r).setWidth 32 = (s'.readReg r).setWidth 32) →
    exec i s = .next t → exec i s' = .next t' →
    let rd := (encode i).extractLsb' 7 5
    t.readReg rd = t'.readReg rd ∧ t.readReg rd = ((t.readReg rd).setWidth 32).signExtend 64

/-- Derived (20_memory.md section 5): a word stored where the next step fetches is what that step fetches,
with no fence and no delay. -/
def Obligations.StoreIsSeenByTheNextFetch : Prop :=
  ∀ (rs1 rs2 : RegIdx) (imm : BitVec 12) (s t : State), exec (.sw rs1 rs2 imm) s = .next t →
    storeAddr (s.readReg rs1) imm = s.pc + 4 → t.fetchWord = (s.readReg rs2).setWidth 32

/-! ### Invariants -/

/-- Derived (10_state.md sections 3 and 5, log entry 1 for the memory form): every step keeps the machine's
invariant. -/
def Obligations.StepKeepsTheInvariant : Prop :=
  ∀ s t : State, s.Inv → step s = .next t → t.Inv

/-- Derived (10_state.md section 7, log entry 1): the reset state and every booted state with a canonical
`mem_init` meet the invariant. -/
def Obligations.ResetMeetsTheInvariant : Prop :=
  State.reset.Inv ∧ ∀ p : BootParams, p.memInit.wf = true → (State.boot p).Inv

/-- Derived (45_control_transfer.md, target alignment; decision D10): an even PC stays even. -/
def Obligations.StepKeepsThePcEven : Prop :=
  ∀ s t : State, s.pc.getLsbD 0 = false → step s = .next t → t.pc.getLsbD 0 = false

/-- Derived (log entry 2; 10_state.md section 3): no step changes `mem_admits`, and the run status leaves
RUNNING for good. -/
def Obligations.RunKeepsAdmissionAndTerminalStatus : Prop :=
  ∀ s t : State, Reaches s t → t.refused = s.refused ∧ (s.status ≠ .running → t.status = s.status)

/-! ### Reset, ports and the driver -/

/-- Derived (10_state.md section 7, 20_memory.md section 4, 70_reset_and_hazards.md section 1; decisions D4,
D11, D12, D13): the state before the first step, from whatever state `reset` is raised in. -/
def Obligations.BootLoadsTheImage : Prop :=
  ∀ (p : BootParams) (before : State), p.image.length ≤ 2 ^ 64 →
    let s := inputReset p before
    (∀ k (h : k < p.image.length), s.readByte (BitVec.ofNat 64 k) = p.image[k]) ∧
    (∀ a : Addr, p.image.length ≤ a.toNat → s.readByte a = p.memInit.readByte a) ∧
    (∀ r, s.readReg r = 0) ∧ s.pc = 0 ∧ s.status = .running ∧ s.retired = none ∧ s.refused = p.refused

/-- Derived (10_state.md section 6, 60_exceptions.md section 1; decision D24): the outputs after a step. -/
def Obligations.OutputsAfterAStep : Prop :=
  ∀ s t : State, s.status = .running → step s = .next t →
    t.outputs.status =
      (if s.fetchWord = 0xFEEDFEED then 0b01 else if lookup s.fetchWord = none then 0b10 else 0b00) ∧
    (t.outputs.status ≠ 0b00 → t.outputs.pc = s.pc)

/-- Derived (40_pipeline.md section 6, 60_exceptions.md section 7; decision D18, log entry 7): how a driven run
ends and the exit code it gives. -/
def Obligations.DriverEndsAndExitCodes : Prop :=
  ∀ (n : Nat) (s : State), s.status = .running →
    (∀ t, drive n s = .success t →
      t.status = .halted ∧ t.fetchWord = 0xFEEDFEED ∧ (drive n s).exitCode = some 0) ∧
    (∀ pc raw t, drive n s = .illegalInstruction pc raw t →
      t.status = .illegal ∧ t.pc = pc ∧ t.fetchWord = raw ∧ lookup raw = none ∧
      ∃ c, (drive n s).exitCode = some c ∧ c ≠ 0 ∧ c ≠ Config.exitLoadFailure) ∧
    (∀ t, drive n s = .limitReached t → t.status = .running ∧ (drive n s).exitCode = none) ∧
    (∀ f t, drive n s = .stuck f t → t.status = .running ∧ step t = .fault f) ∧
    (∀ r t, drive n s ≠ .notRun r t)

/-- Derived (40_pipeline.md section 6; decision D14): a larger step limit does not change how a run ends once
it has ended, so the end of a run without a limit is unique. -/
def Obligations.RunEndIsIndependentOfTheLimit : Prop :=
  (∀ (n k : Nat) (s : State), (∀ t, drive n s ≠ .limitReached t) → drive (n + k) s = drive n s) ∧
  (∀ (s : State) (e e' : RunEnd), RunsTo none s e → RunsTo none s e' → e = e')

/-! ### Assembly -/

/-- Derived (30_encoding.md section 6): `li` with a 32-bit constant leaves its sign extension in `rd`, the PC
8 further, and every other register, every byte of memory, the run status and `mem_admits` as before. -/
def Obligations.LoadImmediateExpansion : Prop :=
  ∀ (rd : RegIdx) (imm : Word32) (s : State), rd ≠ 0 →
    (Pseudo.li32 rd imm).expand = [.lui rd (hi20 imm), .addiw rd rd (lo12 imm)] ∧
    ∃ t u, exec (.lui rd (hi20 imm)) s = .next t ∧ exec (.addiw rd rd (lo12 imm)) t = .next u ∧
      OnlyRegister s u rd (imm.signExtend 64) ∧ u.pc = s.pc + 8 ∧ SameMemory s u ∧ SameControl s u

/-- Derived (30_encoding.md section 6, log entry 12 for the bound): `la` leaves `pc + offset` in `rd`, and
`call` goes there (bit 0 cleared) with the link after its two words in x1. -/
def Obligations.PcRelativeExpansions : Prop :=
  ∀ (offset : Word32) (s : State), offset.toInt ≤ 0x7FFFF7FF →
    (∀ rd : RegIdx, rd ≠ 0 →
      (Pseudo.la rd offset).expand = [.auipc rd (hi20 offset), .addi rd rd (lo12 offset)] ∧
      ∃ t u, exec (.auipc rd (hi20 offset)) s = .next t ∧ exec (.addi rd rd (lo12 offset)) t = .next u ∧
        OnlyRegister s u rd (s.pc + offset.signExtend 64)) ∧
    (Pseudo.call offset).expand = [.auipc 1 (hi20 offset), .jalr 1 1 (lo12 offset)] ∧
    ∃ t u, exec (.auipc 1 (hi20 offset)) s = .next t ∧ exec (.jalr 1 1 (lo12 offset)) t = .next u ∧
      OnlyRegister s u 1 (s.pc + 8) ∧ u.pc = (s.pc + offset.signExtend 64) &&& 0xFFFFFFFFFFFFFFFE

/-- Derived (30_encoding.md section 6): the line written for a well-formed instruction assembles to its word,
wherever it stands and whatever the labels. -/
def Obligations.WrittenLineAssemblesBack : Prop :=
  ∀ (labels : String → Option Addr) (pc : Addr) (i : Instr), i.WellFormed →
    assembleLine labels pc (disassemble i) = some [encode i]
end

