-- ==== Sys2Proof/Laws/Memory.lean ====
section
/-! SUPPORT. Laws of the Memory Store: a read after a write, bytes a write leaves alone, and the
canonical form. -/

namespace Sys2Proof.Machine

/-! ### Cells -/

@[simp] theorem Memory.lookup_erase_self (m : Memory) (a : Nat) :
    (m.erase a).lookup a = Config.unlistedByte := by
  induction m with
  | nil => rfl
  | cons c rest ih =>
    obtain ⟨k, b⟩ := c
    by_cases h : k = a
    · simpa [Memory.erase, h] using ih
    · simpa [Memory.erase, Memory.lookup, h] using ih

theorem Memory.lookup_erase_other (m : Memory) {a b : Nat} (h : b ≠ a) :
    (m.erase a).lookup b = m.lookup b := by
  induction m with
  | nil => rfl
  | cons c rest ih =>
    obtain ⟨k, v⟩ := c
    by_cases hk : k = a
    · subst hk
      simpa [Memory.erase, Memory.lookup, Ne.symm h] using ih
    · by_cases hb : k = b
      · simp [Memory.erase, Memory.lookup, hb, h]
      · simpa [Memory.erase, Memory.lookup, hk, hb] using ih

theorem Memory.lookup_insert_other (m : Memory) (a : Nat) (v : Byte) {b : Nat} (h : b ≠ a) :
    (Memory.insert a v m).lookup b = m.lookup b := by
  induction m with
  | nil => simp [Memory.insert, Memory.lookup, Ne.symm h]
  | cons c rest ih =>
    obtain ⟨k, w⟩ := c
    by_cases hk : a < k
    · simp [Memory.insert, hk, Memory.lookup, Ne.symm h]
    · simp [Memory.insert, hk, Memory.lookup, ih]

theorem Memory.lookup_insert_self (m : Memory) (a : Nat) (v : Byte) (h : ∀ c ∈ m, c.1 ≠ a) :
    (Memory.insert a v m).lookup a = v := by
  induction m with
  | nil => simp [Memory.insert, Memory.lookup]
  | cons c rest ih =>
    obtain ⟨k, w⟩ := c
    have hk : k ≠ a := h (k, w) (by simp)
    by_cases hlt : a < k
    · simp [Memory.insert, hlt, Memory.lookup]
    · simpa [Memory.insert, hlt, Memory.lookup, hk] using ih fun d hd => h d (by simp [hd])

theorem Memory.erase_keys (m : Memory) (a : Nat) : ∀ c ∈ m.erase a, c.1 ≠ a := by
  intro c hc
  simpa using (List.mem_filter.mp hc).2

/-! ### Bytes -/

/-- A byte read where one was just written (spec/20_memory.md R63, R64). -/
@[simp] theorem Memory.readByte_writeByte_self (m : Memory) (a : Addr) (b : Byte) :
    (m.writeByte a b).readByte a = b := by
  unfold Memory.writeByte Memory.readByte
  split
  · simp_all
  · exact Memory.lookup_insert_self _ _ _ (Memory.erase_keys m _)

/-- A byte elsewhere is left alone (R55). -/
theorem Memory.readByte_writeByte_other (m : Memory) {a b : Addr} (v : Byte) (h : b ≠ a) :
    (m.writeByte a v).readByte b = m.readByte b := by
  have hn : b.toNat ≠ a.toNat := fun e => h (BitVec.eq_of_toNat_eq e)
  unfold Memory.writeByte Memory.readByte
  split
  · exact Memory.lookup_erase_other m hn
  · rw [Memory.lookup_insert_other _ _ _ hn, Memory.lookup_erase_other m hn]

/-- Both cases in one equation. -/
theorem Memory.readByte_writeByte (m : Memory) (a b : Addr) (v : Byte) :
    (m.writeByte a v).readByte b = if b = a then v else m.readByte b := by
  by_cases h : b = a
  · simp [h]
  · simp [h, Memory.readByte_writeByte_other m v h]

/-! ### Multi-byte writes -/

/-- Addresses `a + i` and `a + k` differ for distinct small offsets. -/
theorem addr_add_ne (a : Addr) {i k : Nat} (hi : i < 2 ^ 64) (hk : k < 2 ^ 64) (h : i ≠ k) :
    a + BitVec.ofNat 64 i ≠ a + BitVec.ofNat 64 k := by
  intro e
  have e' : BitVec.ofNat 64 i = BitVec.ofNat 64 k := by simpa using e
  have := congrArg BitVec.toNat e'
  simp only [BitVec.toNat_ofNat] at this
  rw [Nat.mod_eq_of_lt hi, Nat.mod_eq_of_lt hk] at this
  exact h this

/-- `MemWrite` leaves every byte outside its `n` bytes alone (R55). -/
theorem readByte_memWrite_other (m : Memory) (a : Addr) (v : Word) (b : Addr) :
    ∀ n, (∀ k, k < n → b ≠ a + BitVec.ofNat 64 k) → (memWrite m a n v).readByte b = m.readByte b := by
  intro n
  induction n with
  | zero => intro _; rfl
  | succ n ih =>
    intro h
    rw [memWrite, Memory.readByte_writeByte_other _ _ (h n (Nat.lt_succ_self n))]
    exact ih fun k hk => h k (Nat.lt_succ_of_lt hk)

/-- `MemWrite` puts byte `k` of the value at `a + k` (R54, R56). -/
theorem readByte_memWrite_stored (m : Memory) (a : Addr) (v : Word) {n k : Nat} (hn : n < 2 ^ 64)
    (hk : k < n) : (memWrite m a n v).readByte (a + BitVec.ofNat 64 k) = v.extractLsb' (8 * k) 8 := by
  induction n with
  | zero => omega
  | succ n ih =>
    rw [memWrite]
    by_cases h : k = n
    · subst h; simp
    · rw [Memory.readByte_writeByte_other _ _ (addr_add_ne a (by omega) (by omega) h)]
      exact ih (by omega) (by omega)

/-- `MemRead` depends on its `n` bytes alone. -/
theorem memRead_congr (m m' : Memory) (a : Addr) (n : Nat)
    (h : ∀ k, k < n → m.readByte (a + BitVec.ofNat 64 k) = m'.readByte (a + BitVec.ofNat 64 k)) :
    memRead m a n = memRead m' a n := by
  induction n generalizing a with
  | zero => rfl
  | succ n ih =>
    have h0 := h 0 (Nat.succ_pos n)
    simp only [BitVec.add_zero] at h0
    have hrest : memRead m (a + 1) n = memRead m' (a + 1) n := by
      apply ih
      intro k hk
      have := h (k + 1) (by omega)
      have e : a + BitVec.ofNat 64 (k + 1) = a + 1 + BitVec.ofNat 64 k := by
        rw [BitVec.add_assoc]
        congr 1
        rw [BitVec.ofNat_add, BitVec.add_comm]
        rfl
      rwa [e] at this
    simp only [memRead, h0, hrest]

/-- Bit `i` of `MemRead` is bit `i % 8` of byte `i / 8` (R54). -/
theorem getLsbD_memRead (m : Memory) (a : Addr) (n i : Nat) (hi : i < 8 * n) :
    (memRead m a n).getLsbD i = (m.readByte (a + BitVec.ofNat 64 (i / 8))).getLsbD (i % 8) := by
  induction n generalizing a i with
  | zero => omega
  | succ n ih =>
    simp only [memRead, BitVec.getLsbD_append]
    by_cases h : i < 8
    · have h8 : i / 8 = 0 := by omega
      have hm : i % 8 = i := by omega
      simp [h, h8, hm]
    · have e : a + BitVec.ofNat 64 (i / 8) = a + 1 + BitVec.ofNat 64 ((i - 8) / 8) := by
        have : i / 8 = (i - 8) / 8 + 1 := by omega
        rw [this, BitVec.add_assoc, BitVec.ofNat_add]
        congr 1
        rw [BitVec.add_comm]
        rfl
      have hm : i % 8 = (i - 8) % 8 := by omega
      simp only [h]
      rw [e, hm]
      exact ih (a + 1) (i - 8) (by omega)

/-- A read of the bytes just written gives the low `8n` bits of the value (R63; 46_loads_stores.md R352). -/
theorem memRead_memWrite (m : Memory) (a : Addr) (v : Word) (n : Nat) (hn : n ≤ 8) :
    memRead (memWrite m a n v) a n = v.extractLsb' 0 (8 * n) := by
  apply BitVec.eq_of_getLsbD_eq
  intro i hi
  rw [getLsbD_memRead _ _ _ _ hi, readByte_memWrite_stored m a v (by omega) (by omega)]
  simp only [BitVec.getLsbD_extractLsb', hi, decide_true, Bool.true_and, Nat.zero_add]
  have h1 : i % 8 < 8 := Nat.mod_lt _ (by decide)
  have h2 : 8 * (i / 8) + i % 8 = i := Nat.div_add_mod i 8
  simp [h1, h2]

/-! ### Runs of bytes -/

theorem readByte_writeBytes_other (m : Memory) (a b : Addr) (bytes : List Byte)
    (h : ∀ k, k < bytes.length → b ≠ a + BitVec.ofNat 64 k) :
    (writeBytes m a bytes).readByte b = m.readByte b := by
  induction bytes generalizing m a with
  | nil => rfl
  | cons c rest ih =>
    rw [writeBytes, ih]
    · have h0 := h 0 (by simp)
      simp only [BitVec.add_zero] at h0
      exact Memory.readByte_writeByte_other m c h0
    · intro k hk e
      apply h (k + 1) (by simpa using hk)
      rw [e, BitVec.add_assoc, BitVec.ofNat_add, BitVec.add_comm (BitVec.ofNat 64 k)]
      rfl

/-- Byte `k` of a run that does not wrap onto itself is read at `a + k`. -/
theorem readByte_writeBytes_stored (m : Memory) (a : Addr) (bytes : List Byte) (hl : bytes.length ≤ 2 ^ 64)
    (k : Nat) (hk : k < bytes.length) :
    (writeBytes m a bytes).readByte (a + BitVec.ofNat 64 k) = bytes[k] := by
  have next : ∀ (a : Addr) (j : Nat), a + BitVec.ofNat 64 (j + 1) = a + 1 + BitVec.ofNat 64 j := by
    intro a j
    rw [BitVec.add_assoc, BitVec.ofNat_add, BitVec.add_comm (BitVec.ofNat 64 j)]
    rfl
  induction bytes generalizing m a k with
  | nil => cases hk
  | cons b rest ih =>
    simp only [List.length_cons] at hl hk
    cases k with
    | zero =>
      rw [writeBytes, readByte_writeBytes_other]
      · simp
      · intro j hj
        rw [← next]
        exact addr_add_ne a (by omega) (by omega) (by omega)
    | succ k =>
      rw [writeBytes, next]
      exact ih _ _ (by omega) k (by omega)

/-! ### The canonical form -/

theorem Memory.wfFrom_mono {m : Memory} {lo lo' : Nat} (h : lo' ≤ lo) (hw : m.wfFrom lo = true) :
    m.wfFrom lo' = true := by
  cases m with
  | nil => rfl
  | cons c rest =>
    simp only [Memory.wfFrom, Bool.and_eq_true, decide_eq_true_eq] at hw ⊢
    exact ⟨⟨⟨le_trans h hw.1.1.1, hw.1.1.2⟩, hw.1.2⟩, hw.2⟩

theorem Memory.wfFrom_erase (m : Memory) (a lo : Nat) (hw : m.wfFrom lo = true) :
    (m.erase a).wfFrom lo = true := by
  induction m generalizing lo with
  | nil => rfl
  | cons c rest ih =>
    obtain ⟨k, b⟩ := c
    simp only [Memory.wfFrom, Bool.and_eq_true, decide_eq_true_eq] at hw
    by_cases h : k = a
    · have : (Memory.erase ((k, b) :: rest) a) = Memory.erase rest a := by simp [Memory.erase, h]
      rw [this]
      exact ih lo (Memory.wfFrom_mono (by omega) hw.2)
    · have : (Memory.erase ((k, b) :: rest) a) = (k, b) :: Memory.erase rest a := by
        simp [Memory.erase, h]
      rw [this]
      simp only [Memory.wfFrom, Bool.and_eq_true, decide_eq_true_eq]
      exact ⟨hw.1, ih (k + 1) hw.2⟩

theorem Memory.wfFrom_insert (m : Memory) (a : Nat) (b : Byte) (lo : Nat) (hlo : lo ≤ a)
    (ha : a < 2 ^ 64) (hb : b ≠ Config.unlistedByte) (hk : ∀ c ∈ m, c.1 ≠ a) (hw : m.wfFrom lo = true) :
    (Memory.insert a b m).wfFrom lo = true := by
  induction m generalizing lo with
  | nil =>
    simp only [Memory.insert, Memory.wfFrom, Bool.and_eq_true, decide_eq_true_eq, and_true]
    exact ⟨⟨hlo, ha⟩, hb⟩
  | cons c rest ih =>
    obtain ⟨k, v⟩ := c
    have hka : k ≠ a := hk (k, v) (by simp)
    simp only [Memory.wfFrom, Bool.and_eq_true, decide_eq_true_eq] at hw
    by_cases h : a < k
    · simp only [Memory.insert, h, if_true, Memory.wfFrom, Bool.and_eq_true, decide_eq_true_eq]
      exact ⟨⟨⟨hlo, ha⟩, hb⟩, ⟨⟨by omega, hw.1.1.2⟩, hw.1.2⟩, hw.2⟩
    · simp only [Memory.insert, h, if_false, Memory.wfFrom, Bool.and_eq_true, decide_eq_true_eq]
      exact ⟨hw.1, ih (k + 1) (by omega) (fun d hd => hk d (by simp [hd])) hw.2⟩

/-- A byte write keeps the canonical form. -/
theorem Memory.wf_writeByte (m : Memory) (a : Addr) (b : Byte) (hw : m.wf = true) :
    (m.writeByte a b).wf = true := by
  unfold Memory.writeByte Memory.wf
  split
  · exact Memory.wfFrom_erase m _ 0 hw
  · exact Memory.wfFrom_insert _ _ _ 0 (Nat.zero_le _) a.isLt ‹_› (Memory.erase_keys m _)
      (Memory.wfFrom_erase m _ 0 hw)

/-- `MemWrite` keeps the canonical form. -/
theorem Memory.wf_memWrite (m : Memory) (a : Addr) (n : Nat) (v : Word) (hw : m.wf = true) :
    (memWrite m a n v).wf = true := by
  induction n with
  | zero => exact hw
  | succ n ih => exact Memory.wf_writeByte _ _ _ ih

/-- A run of bytes keeps the canonical form. -/
theorem Memory.wf_writeBytes (m : Memory) (a : Addr) (bytes : List Byte) (hw : m.wf = true) :
    (writeBytes m a bytes).wf = true := by
  induction bytes generalizing m a with
  | nil => exact hw
  | cons b rest ih => exact ih _ _ (Memory.wf_writeByte m a b hw)

end Sys2Proof.Machine
end

