-- ==== Sys2Proof/Laws/State.lean ====
section
/-! SUPPORT. One lemma per field and update of the state, and the register file's laws. -/

namespace Sys2Proof.Machine

/-! ### Registers -/

@[simp] theorem State.readReg_zero (s : State) : s.readReg 0#5 = 0#64 := rfl

@[simp] theorem State.writeReg_zero (s : State) (v : Word) : s.writeReg 0#5 v = s := rfl

/-- Reading a register needs the register file alone. -/
theorem State.readReg_congr {s t : State} (h : t.regs = s.regs) (r : RegIdx) : t.readReg r = s.readReg r := by
  unfold State.readReg
  rw [h]

/-- Reading after a write: the written register holds the value, x0 still 0, every other its own
(spec/10_state.md R21, R22). -/
theorem State.readReg_writeReg (s : State) (rd : RegIdx) (v : Word) (r : RegIdx) :
    (s.writeReg rd v).readReg r = if r = rd ∧ r ≠ 0 then v else s.readReg r := by
  by_cases hd : rd = 0
  · subst hd
    by_cases hr : r = 0 <;> simp [hr, State.writeReg]
  · by_cases hr : r = 0
    · simp [hr, State.readReg]
    · have hd' : rd.toNat ≠ 0 := fun e => hd (BitVec.eq_of_toNat_eq e)
      have hr' : r.toNat ≠ 0 := fun e => hr (BitVec.eq_of_toNat_eq e)
      have hdl := rd.isLt
      have hrl := r.isLt
      simp only [State.readReg, State.writeReg, hd, hr, if_false, ne_eq, not_false_eq_true, and_true]
      by_cases he : r = rd
      · subst he
        have : r.toNat - 1 < 31 := by omega
        simp [this]
      · have hne : rd.toNat - 1 ≠ r.toNat - 1 := by
          intro e
          exact he (BitVec.eq_of_toNat_eq (by omega))
        simp [hne, he]

@[simp] theorem State.writeReg_pc (s : State) (r : RegIdx) (v : Word) : (s.writeReg r v).pc = s.pc := by
  unfold State.writeReg; split <;> rfl
@[simp] theorem State.writeReg_status (s : State) (r : RegIdx) (v : Word) :
    (s.writeReg r v).status = s.status := by
  unfold State.writeReg; split <;> rfl
@[simp] theorem State.writeReg_retired (s : State) (r : RegIdx) (v : Word) :
    (s.writeReg r v).retired = s.retired := by
  unfold State.writeReg; split <;> rfl
@[simp] theorem State.writeReg_mem (s : State) (r : RegIdx) (v : Word) : (s.writeReg r v).mem = s.mem := by
  unfold State.writeReg; split <;> rfl
@[simp] theorem State.writeReg_refused (s : State) (r : RegIdx) (v : Word) :
    (s.writeReg r v).refused = s.refused := by
  unfold State.writeReg; split <;> rfl

/-! ### Commit -/

section Commit
variable (s : State) (raw : Word32) (w : Option (RegIdx × Word)) (o : StageOutputs)

@[simp] theorem State.commit_pc : (s.commit raw w o).pc = o.nextPC := rfl
@[simp] theorem State.commit_retired :
    (s.commit raw w o).retired = some ((Record.decoded s.pc raw).filled o) := rfl
@[simp] theorem State.commit_status : (s.commit raw w o).status = s.status := by
  cases w <;> simp [State.commit]
@[simp] theorem State.commit_mem : (s.commit raw w o).mem = s.mem := by
  cases w <;> simp [State.commit]
@[simp] theorem State.commit_refused : (s.commit raw w o).refused = s.refused := by
  cases w <;> simp [State.commit]
@[simp] theorem State.commit_readByte (a : Addr) : (s.commit raw w o).readByte a = s.readByte a := by
  simp [State.readByte]
@[simp] theorem State.commit_readReg_none (r : RegIdx) :
    (s.commit raw none o).readReg r = s.readReg r := rfl
theorem State.commit_readReg_some (rd : RegIdx) (v : Word) (r : RegIdx) :
    (s.commit raw (some (rd, v)) o).readReg r = if r = rd ∧ r ≠ 0 then v else s.readReg r :=
  State.readReg_writeReg s rd v r

end Commit

/-! ### Halt and illegal -/

section Ends
variable (s : State) (raw : Word32)

@[simp] theorem State.stopHalt_pc : (s.stopHalt raw).pc = s.pc := rfl
@[simp] theorem State.stopHalt_status : (s.stopHalt raw).status = .halted := rfl
@[simp] theorem State.stopHalt_mem : (s.stopHalt raw).mem = s.mem := rfl
@[simp] theorem State.stopHalt_refused : (s.stopHalt raw).refused = s.refused := rfl
@[simp] theorem State.stopHalt_retired : (s.stopHalt raw).retired = some (Record.decoded s.pc raw) := rfl
@[simp] theorem State.stopHalt_readReg (r : RegIdx) : (s.stopHalt raw).readReg r = s.readReg r := rfl
@[simp] theorem State.stopHalt_readByte (a : Addr) : (s.stopHalt raw).readByte a = s.readByte a := rfl
@[simp] theorem State.raiseIllegal_pc : (s.raiseIllegal raw).pc = s.pc := rfl
@[simp] theorem State.raiseIllegal_status : (s.raiseIllegal raw).status = .illegal := rfl
@[simp] theorem State.raiseIllegal_mem : (s.raiseIllegal raw).mem = s.mem := rfl
@[simp] theorem State.raiseIllegal_refused : (s.raiseIllegal raw).refused = s.refused := rfl
@[simp] theorem State.raiseIllegal_retired :
    (s.raiseIllegal raw).retired = some (Record.decoded s.pc raw) := rfl
@[simp] theorem State.raiseIllegal_readReg (r : RegIdx) : (s.raiseIllegal raw).readReg r = s.readReg r := rfl
@[simp] theorem State.raiseIllegal_readByte (a : Addr) :
    (s.raiseIllegal raw).readByte a = s.readByte a := rfl

end Ends

/-! ### Reset -/

/-- Every register reads 0 after reset (R34). -/
@[simp] theorem State.reset_readReg (r : RegIdx) : State.reset.readReg r = 0 := by
  unfold State.readReg State.reset
  split
  · rfl
  · rw [Vector.getElem?_replicate]
    split <;> rfl

/-- The memory of the reset state has the canonical form. -/
theorem State.reset_memory_wf : State.reset.mem.wf = true := rfl

/-- A loaded image keeps the canonical form of `mem_init`. -/
theorem State.boot_memory_wf (p : BootParams) (h : p.memInit.wf = true) : (State.boot p).mem.wf = true :=
  Memory.wf_writeBytes _ _ _ h

/-! ### Records -/

section Records
variable (pc : Addr) (raw : Word32)

theorem Record.withFields_pc (r : Record) : (r.withFields raw).pc = r.pc := by
  unfold Record.withFields; split <;> rfl
theorem Record.withFields_raw (r : Record) : (r.withFields raw).raw = r.raw := by
  unfold Record.withFields; split <;> rfl

/-- The record of a halt step ends at the halt test (40_pipeline.md R133). -/
theorem Record.decoded_halt (h : raw = haltWord) :
    Record.decoded pc raw = { Record.fetched pc raw with isHalt := true } := by
  simp [Record.decoded, h]

/-- The record of an illegal word (40_pipeline.md R136). -/
theorem Record.decoded_illegal (h : raw ≠ haltWord) (hl : lookup raw = none) :
    Record.decoded pc raw =
      { ({ Record.fetched pc raw with isNop := decide (raw = nopWord) }.withFields raw) with
        isLegal := some false } := by
  simp [Record.decoded, h, hl]

/-- The record of a legal word at the end of decode (40_pipeline.md R134 to R136). -/
theorem Record.decoded_legal (h : raw ≠ haltWord) {k : Kind} (hl : lookup raw = some k) :
    Record.decoded pc raw =
      { ({ Record.fetched pc raw with isNop := decide (raw = nopWord) }.withFields raw) with
        isLegal := some true, flags := some (descriptor k) } := by
  simp [Record.decoded, h, hl]

/-- Every record holds the PC and the raw word (40_pipeline.md R131). -/
theorem Record.decoded_pc : (Record.decoded pc raw).pc = pc := by
  unfold Record.decoded
  simp only
  split
  · rfl
  · split <;> exact Record.withFields_pc raw _
theorem Record.decoded_raw : (Record.decoded pc raw).raw = raw := by
  unfold Record.decoded
  simp only
  split
  · rfl
  · split <;> exact Record.withFields_raw raw _

end Records

end Sys2Proof.Machine
end

