-- ==== Sys2Proof/Laws/Ops.lean ====
section
/-! SUPPORT. One lemma per shared operation: everything it can do. -/

namespace Sys2Proof.Machine

/-- The register-immediate shape always completes. -/
theorem aluImm_completes (i : Instr) (rd rs1 : RegIdx) (f : Word → Word) (s : State) :
    ∃ t, aluImm i rd rs1 f s = .next t ∧ OnlyRegister s t rd (f (s.readReg rs1)) ∧
      t.pc = pcPlus4 s.pc ∧ t.mem = s.mem ∧ SameControl s t ∧
      t.retired = some ((Record.decoded s.pc (encode i)).filled
        { op1 := some (s.readReg rs1), result := some (f (s.readReg rs1)), nextPC := pcPlus4 s.pc }) :=
  ⟨_, rfl, fun r => State.commit_readReg_some _ _ _ _ _ r, rfl, by simp, by simp [SameControl], by simp⟩

/-- The register-register shape always completes. -/
theorem aluReg_completes (i : Instr) (rd rs1 rs2 : RegIdx) (f : Word → Word → Word) (s : State) :
    ∃ t, aluReg i rd rs1 rs2 f s = .next t ∧
      OnlyRegister s t rd (f (s.readReg rs1) (s.readReg rs2)) ∧
      t.pc = pcPlus4 s.pc ∧ t.mem = s.mem ∧ SameControl s t ∧
      t.retired = some ((Record.decoded s.pc (encode i)).filled
        { op1 := some (s.readReg rs1), op2 := some (s.readReg rs2),
          result := some (f (s.readReg rs1) (s.readReg rs2)), nextPC := pcPlus4 s.pc }) :=
  ⟨_, rfl, fun r => State.commit_readReg_some _ _ _ _ _ r, rfl, by simp, by simp [SameControl], by simp⟩

/-- The upper-immediate shape always completes. -/
theorem aluUpper_completes (i : Instr) (rd : RegIdx) (v : Word) (s : State) :
    ∃ t, aluUpper i rd v s = .next t ∧ OnlyRegister s t rd v ∧
      t.pc = pcPlus4 s.pc ∧ t.mem = s.mem ∧ SameControl s t ∧
      t.retired = some ((Record.decoded s.pc (encode i)).filled
        { result := some v, nextPC := pcPlus4 s.pc }) :=
  ⟨_, rfl, fun r => State.commit_readReg_some _ _ _ _ _ r, rfl, by simp, by simp [SameControl], by simp⟩

/-- The jump shape always completes. -/
theorem jump_completes (i : Instr) (rd : RegIdx) (op1 : Option Word) (target : Addr) (s : State) :
    ∃ t, jump i rd op1 target s = .next t ∧ OnlyRegister s t rd (pcPlus4 s.pc) ∧
      t.pc = target ∧ t.mem = s.mem ∧ SameControl s t ∧
      t.retired = some ((Record.decoded s.pc (encode i)).filled
        { op1 := op1, result := some (pcPlus4 s.pc), nextPC := target }) :=
  ⟨_, rfl, fun r => State.commit_readReg_some _ _ _ _ _ r, rfl, by simp, by simp [SameControl], by simp⟩

/-- The branch shape always completes. -/
theorem branch_completes (i : Instr) (rs1 rs2 : RegIdx) (offset : BitVec 13) (cond : Word → Word → Bool)
    (s : State) :
    ∃ t, branch i rs1 rs2 offset cond s = .next t ∧ SameRegisters s t ∧
      t.pc = (if cond (s.readReg rs1) (s.readReg rs2) then branchTarget s.pc offset else pcPlus4 s.pc) ∧
      t.mem = s.mem ∧ SameControl s t ∧
      t.retired = some ((Record.decoded s.pc (encode i)).filled
        { op1 := some (s.readReg rs1), op2 := some (s.readReg rs2), nextPC := t.pc }) :=
  ⟨_, rfl, fun _ => rfl, rfl, by simp, by simp [SameControl], by simp⟩

/-- An admitted load completes. -/
theorem load_completes (i : Instr) (rd rs1 : RegIdx) (imm : BitVec 12) (w : Width)
    (extend : BitVec (8 * w.bytes) → Word) (s : State)
    (h : s.admits (loadAddr (s.readReg rs1) imm) w .load = true) :
    ∃ t, load i rd rs1 imm w extend s = .next t ∧
      OnlyRegister s t rd (extend (memRead s.mem (loadAddr (s.readReg rs1) imm) w.bytes)) ∧
      t.pc = pcPlus4 s.pc ∧ t.mem = s.mem ∧ SameControl s t ∧
      t.retired = some ((Record.decoded s.pc (encode i)).filled
        { op1 := some (s.readReg rs1), addr := some (loadAddr (s.readReg rs1) imm),
          memResult := some (extend (memRead s.mem (loadAddr (s.readReg rs1) imm) w.bytes)),
          nextPC := pcPlus4 s.pc }) := by
  unfold load
  simp only [h, if_true]
  exact ⟨_, rfl, fun r => State.commit_readReg_some _ _ _ _ _ r, rfl, by simp, by simp [SameControl], by simp⟩

/-- A refused load is stuck. -/
theorem load_stuck (i : Instr) (rd rs1 : RegIdx) (imm : BitVec 12) (w : Width)
    (extend : BitVec (8 * w.bytes) → Word) (s : State)
    (h : s.admits (loadAddr (s.readReg rs1) imm) w .load = false) :
    load i rd rs1 imm w extend s = .fault (.loadRefused (loadAddr (s.readReg rs1) imm) w) := by
  simp [load, h]

/-- An admitted store completes. -/
theorem store_completes (i : Instr) (rs1 rs2 : RegIdx) (imm : BitVec 12) (w : Width) (s : State)
    (h : s.admits (storeAddr (s.readReg rs1) imm) w .store = true) :
    ∃ t, store i rs1 rs2 imm w s = .next t ∧ SameRegisters s t ∧ t.pc = pcPlus4 s.pc ∧
      t.mem = memWrite s.mem (storeAddr (s.readReg rs1) imm) w.bytes (s.readReg rs2) ∧ SameControl s t ∧
      t.retired = some ((Record.decoded s.pc (encode i)).filled
        { op1 := some (s.readReg rs1), op2 := some (s.readReg rs2),
          addr := some (storeAddr (s.readReg rs1) imm), nextPC := pcPlus4 s.pc }) := by
  unfold store
  simp only [h, if_true]
  exact ⟨_, rfl, fun _ => rfl, rfl, by simp, by simp [SameControl], by simp⟩

/-- A refused store is stuck. -/
theorem store_stuck (i : Instr) (rs1 rs2 : RegIdx) (imm : BitVec 12) (w : Width) (s : State)
    (h : s.admits (storeAddr (s.readReg rs1) imm) w .store = false) :
    store i rs1 rs2 imm w s = .fault (.storeRefused (storeAddr (s.readReg rs1) imm) w) := by
  simp [store, h]

/-- A load is stuck or completes. -/
theorem load_cases {i : Instr} {rd rs1 : RegIdx} {imm : BitVec 12} {w : Width}
    {extend : BitVec (8 * w.bytes) → Word} {s t : State} (h : load i rd rs1 imm w extend s = .next t) :
    s.admits (loadAddr (s.readReg rs1) imm) w .load = true := by
  by_contra hn
  rw [load_stuck _ _ _ _ _ _ _ (by simpa using hn)] at h
  cases h

/-- A store that answers a next state was admitted. -/
theorem store_cases {i : Instr} {rs1 rs2 : RegIdx} {imm : BitVec 12} {w : Width} {s t : State}
    (h : store i rs1 rs2 imm w s = .next t) :
    s.admits (storeAddr (s.readReg rs1) imm) w .store = true := by
  by_contra hn
  rw [store_stuck _ _ _ _ _ _ (by simpa using hn)] at h
  cases h

/-! ### The step -/

/-- A terminal state steps to itself (40_pipeline.md R148). -/
theorem step_terminal {s : State} (h : s.status ≠ .running) : step s = .next s := by
  unfold step stepRequest
  split <;> simp_all

/-- Everything a step in RUNNING can do: stuck on the fetch, the decoded instruction, or the illegal
instruction (40_pipeline.md R145). -/
theorem step_running {s : State} (h : s.status = .running) :
    step s = if s.admits s.pc .word .fetch then
        (match decode s.fetchWord with
         | .ok i => exec i s
         | .error _ => .next (s.raiseIllegal s.fetchWord))
      else .fault (.fetchRefused s.pc) := by
  unfold step stepRequest
  rw [h]
  rfl

end Sys2Proof.Machine
end

