-- ==== Sys2Proof/Laws/Exec.lean ====
section
/-! SUPPORT. Each instruction as its shared operation: one equation per constructor, which a proof
rewrites with instead of unfolding `exec`. -/

namespace Sys2Proof.Machine

/-! ### IntImm -/

theorem exec_addi (rd rs1 : RegIdx) (imm : BitVec 12) (s : State) :
    exec (.addi rd rs1 imm) s = aluImm (.addi rd rs1 imm) rd rs1 (fun op1 => op1 + immI imm) s := rfl
theorem exec_slti (rd rs1 : RegIdx) (imm : BitVec 12) (s : State) :
    exec (.slti rd rs1 imm) s =
      aluImm (.slti rd rs1 imm) rd rs1 (fun op1 => boolWord (lessSigned op1 (immI imm))) s := rfl
theorem exec_sltiu (rd rs1 : RegIdx) (imm : BitVec 12) (s : State) :
    exec (.sltiu rd rs1 imm) s =
      aluImm (.sltiu rd rs1 imm) rd rs1 (fun op1 => boolWord (lessUnsigned op1 (immI imm))) s := rfl
theorem exec_xori (rd rs1 : RegIdx) (imm : BitVec 12) (s : State) :
    exec (.xori rd rs1 imm) s = aluImm (.xori rd rs1 imm) rd rs1 (fun op1 => op1 ^^^ immI imm) s := rfl
theorem exec_ori (rd rs1 : RegIdx) (imm : BitVec 12) (s : State) :
    exec (.ori rd rs1 imm) s = aluImm (.ori rd rs1 imm) rd rs1 (fun op1 => op1 ||| immI imm) s := rfl
theorem exec_andi (rd rs1 : RegIdx) (imm : BitVec 12) (s : State) :
    exec (.andi rd rs1 imm) s = aluImm (.andi rd rs1 imm) rd rs1 (fun op1 => op1 &&& immI imm) s := rfl
theorem exec_slli (rd rs1 : RegIdx) (shamt : BitVec 6) (s : State) :
    exec (.slli rd rs1 shamt) s =
      aluImm (.slli rd rs1 shamt) rd rs1 (fun op1 => shiftLeft64 op1 shamt) s := rfl
theorem exec_srli (rd rs1 : RegIdx) (shamt : BitVec 6) (s : State) :
    exec (.srli rd rs1 shamt) s =
      aluImm (.srli rd rs1 shamt) rd rs1 (fun op1 => shiftRightLogical64 op1 shamt) s := rfl
theorem exec_srai (rd rs1 : RegIdx) (shamt : BitVec 6) (s : State) :
    exec (.srai rd rs1 shamt) s =
      aluImm (.srai rd rs1 shamt) rd rs1 (fun op1 => shiftRightArith64 op1 shamt) s := rfl

/-! ### IntReg -/

theorem exec_add (rd rs1 rs2 : RegIdx) (s : State) :
    exec (.add rd rs1 rs2) s = aluReg (.add rd rs1 rs2) rd rs1 rs2 (fun op1 op2 => op1 + op2) s := rfl
theorem exec_sub (rd rs1 rs2 : RegIdx) (s : State) :
    exec (.sub rd rs1 rs2) s = aluReg (.sub rd rs1 rs2) rd rs1 rs2 (fun op1 op2 => op1 - op2) s := rfl
theorem exec_sll (rd rs1 rs2 : RegIdx) (s : State) :
    exec (.sll rd rs1 rs2) s =
      aluReg (.sll rd rs1 rs2) rd rs1 rs2 (fun op1 op2 => shiftLeft64 op1 (amount6 op2)) s := rfl
theorem exec_slt (rd rs1 rs2 : RegIdx) (s : State) :
    exec (.slt rd rs1 rs2) s =
      aluReg (.slt rd rs1 rs2) rd rs1 rs2 (fun op1 op2 => boolWord (lessSigned op1 op2)) s := rfl
theorem exec_sltu (rd rs1 rs2 : RegIdx) (s : State) :
    exec (.sltu rd rs1 rs2) s =
      aluReg (.sltu rd rs1 rs2) rd rs1 rs2 (fun op1 op2 => boolWord (lessUnsigned op1 op2)) s := rfl
theorem exec_xor (rd rs1 rs2 : RegIdx) (s : State) :
    exec (.xor rd rs1 rs2) s = aluReg (.xor rd rs1 rs2) rd rs1 rs2 (fun op1 op2 => op1 ^^^ op2) s := rfl
theorem exec_srl (rd rs1 rs2 : RegIdx) (s : State) :
    exec (.srl rd rs1 rs2) s =
      aluReg (.srl rd rs1 rs2) rd rs1 rs2 (fun op1 op2 => shiftRightLogical64 op1 (amount6 op2)) s := rfl
theorem exec_sra (rd rs1 rs2 : RegIdx) (s : State) :
    exec (.sra rd rs1 rs2) s =
      aluReg (.sra rd rs1 rs2) rd rs1 rs2 (fun op1 op2 => shiftRightArith64 op1 (amount6 op2)) s := rfl
theorem exec_or (rd rs1 rs2 : RegIdx) (s : State) :
    exec (.or rd rs1 rs2) s = aluReg (.or rd rs1 rs2) rd rs1 rs2 (fun op1 op2 => op1 ||| op2) s := rfl
theorem exec_and (rd rs1 rs2 : RegIdx) (s : State) :
    exec (.and rd rs1 rs2) s = aluReg (.and rd rs1 rs2) rd rs1 rs2 (fun op1 op2 => op1 &&& op2) s := rfl

/-! ### WordOps -/

theorem exec_addiw (rd rs1 : RegIdx) (imm : BitVec 12) (s : State) :
    exec (.addiw rd rs1 imm) s =
      aluImm (.addiw rd rs1 imm) rd rs1 (fun op1 => sext32 (low32 (op1 + immI imm))) s := rfl
theorem exec_slliw (rd rs1 : RegIdx) (shamt : BitVec 5) (s : State) :
    exec (.slliw rd rs1 shamt) s =
      aluImm (.slliw rd rs1 shamt) rd rs1 (fun op1 => sext32 (shiftLeft32 (low32 op1) shamt)) s := rfl
theorem exec_srliw (rd rs1 : RegIdx) (shamt : BitVec 5) (s : State) :
    exec (.srliw rd rs1 shamt) s =
      aluImm (.srliw rd rs1 shamt) rd rs1 (fun op1 => sext32 (shiftRightLogical32 (low32 op1) shamt)) s := rfl
theorem exec_sraiw (rd rs1 : RegIdx) (shamt : BitVec 5) (s : State) :
    exec (.sraiw rd rs1 shamt) s =
      aluImm (.sraiw rd rs1 shamt) rd rs1 (fun op1 => sext32 (shiftRightArith32 (low32 op1) shamt)) s := rfl
theorem exec_addw (rd rs1 rs2 : RegIdx) (s : State) :
    exec (.addw rd rs1 rs2) s =
      aluReg (.addw rd rs1 rs2) rd rs1 rs2 (fun op1 op2 => sext32 (low32 op1 + low32 op2)) s := rfl
theorem exec_subw (rd rs1 rs2 : RegIdx) (s : State) :
    exec (.subw rd rs1 rs2) s =
      aluReg (.subw rd rs1 rs2) rd rs1 rs2 (fun op1 op2 => sext32 (low32 op1 - low32 op2)) s := rfl
theorem exec_sllw (rd rs1 rs2 : RegIdx) (s : State) :
    exec (.sllw rd rs1 rs2) s =
      aluReg (.sllw rd rs1 rs2) rd rs1 rs2 (fun op1 op2 => sext32 (shiftLeft32 (low32 op1) (amount5 op2))) s := rfl
theorem exec_srlw (rd rs1 rs2 : RegIdx) (s : State) :
    exec (.srlw rd rs1 rs2) s =
      aluReg (.srlw rd rs1 rs2) rd rs1 rs2 (fun op1 op2 => sext32 (shiftRightLogical32 (low32 op1) (amount5 op2))) s := rfl
theorem exec_sraw (rd rs1 rs2 : RegIdx) (s : State) :
    exec (.sraw rd rs1 rs2) s =
      aluReg (.sraw rd rs1 rs2) rd rs1 rs2 (fun op1 op2 => sext32 (shiftRightArith32 (low32 op1) (amount5 op2))) s := rfl

/-! ### Upper -/

theorem exec_lui (rd : RegIdx) (imm20 : BitVec 20) (s : State) :
    exec (.lui rd imm20) s = aluUpper (.lui rd imm20) rd (immU imm20) s := rfl
theorem exec_auipc (rd : RegIdx) (imm20 : BitVec 20) (s : State) :
    exec (.auipc rd imm20) s = aluUpper (.auipc rd imm20) rd (s.pc + immU imm20) s := rfl

/-! ### Control -/

theorem exec_jal (rd : RegIdx) (offset : BitVec 21) (s : State) :
    exec (.jal rd offset) s = jump (.jal rd offset) rd none (jalTarget s.pc offset) s := rfl
theorem exec_jalr (rd rs1 : RegIdx) (imm : BitVec 12) (s : State) :
    exec (.jalr rd rs1 imm) s =
      jump (.jalr rd rs1 imm) rd (some (s.readReg rs1)) (jalrTarget (s.readReg rs1) imm) s := rfl
theorem exec_beq (rs1 rs2 : RegIdx) (offset : BitVec 13) (s : State) :
    exec (.beq rs1 rs2 offset) s =
      branch (.beq rs1 rs2 offset) rs1 rs2 offset (fun op1 op2 => op1 == op2) s := rfl
theorem exec_bne (rs1 rs2 : RegIdx) (offset : BitVec 13) (s : State) :
    exec (.bne rs1 rs2 offset) s =
      branch (.bne rs1 rs2 offset) rs1 rs2 offset (fun op1 op2 => op1 != op2) s := rfl
theorem exec_blt (rs1 rs2 : RegIdx) (offset : BitVec 13) (s : State) :
    exec (.blt rs1 rs2 offset) s =
      branch (.blt rs1 rs2 offset) rs1 rs2 offset (fun op1 op2 => lessSigned op1 op2) s := rfl
theorem exec_bge (rs1 rs2 : RegIdx) (offset : BitVec 13) (s : State) :
    exec (.bge rs1 rs2 offset) s =
      branch (.bge rs1 rs2 offset) rs1 rs2 offset (fun op1 op2 => !lessSigned op1 op2) s := rfl
theorem exec_bltu (rs1 rs2 : RegIdx) (offset : BitVec 13) (s : State) :
    exec (.bltu rs1 rs2 offset) s =
      branch (.bltu rs1 rs2 offset) rs1 rs2 offset (fun op1 op2 => lessUnsigned op1 op2) s := rfl
theorem exec_bgeu (rs1 rs2 : RegIdx) (offset : BitVec 13) (s : State) :
    exec (.bgeu rs1 rs2 offset) s =
      branch (.bgeu rs1 rs2 offset) rs1 rs2 offset (fun op1 op2 => !lessUnsigned op1 op2) s := rfl

/-! ### LoadStore -/

theorem exec_lb (rd rs1 : RegIdx) (imm : BitVec 12) (s : State) :
    exec (.lb rd rs1 imm) s = load (.lb rd rs1 imm) rd rs1 imm .byte (fun v => v.signExtend 64) s := rfl
theorem exec_lh (rd rs1 : RegIdx) (imm : BitVec 12) (s : State) :
    exec (.lh rd rs1 imm) s = load (.lh rd rs1 imm) rd rs1 imm .half (fun v => v.signExtend 64) s := rfl
theorem exec_lw (rd rs1 : RegIdx) (imm : BitVec 12) (s : State) :
    exec (.lw rd rs1 imm) s = load (.lw rd rs1 imm) rd rs1 imm .word (fun v => v.signExtend 64) s := rfl
theorem exec_ld (rd rs1 : RegIdx) (imm : BitVec 12) (s : State) :
    exec (.ld rd rs1 imm) s = load (.ld rd rs1 imm) rd rs1 imm .dword (fun v => v.signExtend 64) s := rfl
theorem exec_lbu (rd rs1 : RegIdx) (imm : BitVec 12) (s : State) :
    exec (.lbu rd rs1 imm) s = load (.lbu rd rs1 imm) rd rs1 imm .byte (fun v => v.setWidth 64) s := rfl
theorem exec_lhu (rd rs1 : RegIdx) (imm : BitVec 12) (s : State) :
    exec (.lhu rd rs1 imm) s = load (.lhu rd rs1 imm) rd rs1 imm .half (fun v => v.setWidth 64) s := rfl
theorem exec_lwu (rd rs1 : RegIdx) (imm : BitVec 12) (s : State) :
    exec (.lwu rd rs1 imm) s = load (.lwu rd rs1 imm) rd rs1 imm .word (fun v => v.setWidth 64) s := rfl
theorem exec_sb (rs1 rs2 : RegIdx) (imm : BitVec 12) (s : State) :
    exec (.sb rs1 rs2 imm) s = store (.sb rs1 rs2 imm) rs1 rs2 imm .byte s := rfl
theorem exec_sh (rs1 rs2 : RegIdx) (imm : BitVec 12) (s : State) :
    exec (.sh rs1 rs2 imm) s = store (.sh rs1 rs2 imm) rs1 rs2 imm .half s := rfl
theorem exec_sw (rs1 rs2 : RegIdx) (imm : BitVec 12) (s : State) :
    exec (.sw rs1 rs2 imm) s = store (.sw rs1 rs2 imm) rs1 rs2 imm .word s := rfl
theorem exec_sd (rs1 rs2 : RegIdx) (imm : BitVec 12) (s : State) :
    exec (.sd rs1 rs2 imm) s = store (.sd rs1 rs2 imm) rs1 rs2 imm .dword s := rfl

/-! ### System -/

theorem exec_halt (s : State) :
    exec .halt s = .next (s.stopHalt (encode .halt)) := rfl

end Sys2Proof.Machine
end

