-- ==== Sys2Proof/Laws/Decode.lean ====
section
/-! SUPPORT. Fields of encoded words, and words put together again from their fields. -/

namespace Sys2Proof

/-! ### R format -/

section R
variable (f7 : BitVec 7) (rs2 rs1 : RegIdx) (f3 : BitVec 3) (rd : RegIdx) (m : Major)

theorem opcodeOf_encodeR : opcodeOf (encodeR f7 rs2 rs1 f3 rd m) = m.code := by
  apply BitVec.eq_of_getLsbD_eq
  intro i hi
  simp only [opcodeOf, encodeR, BitVec.getLsbD_extractLsb', BitVec.getLsbD_append]
  grind
theorem rdOf_encodeR : rdOf (encodeR f7 rs2 rs1 f3 rd m) = rd := by
  apply BitVec.eq_of_getLsbD_eq
  intro i hi
  simp only [rdOf, encodeR, BitVec.getLsbD_extractLsb', BitVec.getLsbD_append]
  grind
theorem funct3Of_encodeR : funct3Of (encodeR f7 rs2 rs1 f3 rd m) = f3 := by
  apply BitVec.eq_of_getLsbD_eq
  intro i hi
  simp only [funct3Of, encodeR, BitVec.getLsbD_extractLsb', BitVec.getLsbD_append]
  grind
theorem rs1Of_encodeR : rs1Of (encodeR f7 rs2 rs1 f3 rd m) = rs1 := by
  apply BitVec.eq_of_getLsbD_eq
  intro i hi
  simp only [rs1Of, encodeR, BitVec.getLsbD_extractLsb', BitVec.getLsbD_append]
  grind
theorem rs2Of_encodeR : rs2Of (encodeR f7 rs2 rs1 f3 rd m) = rs2 := by
  apply BitVec.eq_of_getLsbD_eq
  intro i hi
  simp only [rs2Of, encodeR, BitVec.getLsbD_extractLsb', BitVec.getLsbD_append]
  grind
theorem funct7Of_encodeR : funct7Of (encodeR f7 rs2 rs1 f3 rd m) = f7 := by
  apply BitVec.eq_of_getLsbD_eq
  intro i hi
  simp only [funct7Of, encodeR, BitVec.getLsbD_extractLsb', BitVec.getLsbD_append]
  grind

end R

/-! ### I format -/

section I
variable (imm : BitVec 12) (rs1 : RegIdx) (f3 : BitVec 3) (rd : RegIdx) (m : Major)

theorem opcodeOf_encodeI : opcodeOf (encodeI imm rs1 f3 rd m) = m.code := by
  apply BitVec.eq_of_getLsbD_eq
  intro i hi
  simp only [opcodeOf, encodeI, BitVec.getLsbD_extractLsb', BitVec.getLsbD_append]
  grind
theorem rdOf_encodeI : rdOf (encodeI imm rs1 f3 rd m) = rd := by
  apply BitVec.eq_of_getLsbD_eq
  intro i hi
  simp only [rdOf, encodeI, BitVec.getLsbD_extractLsb', BitVec.getLsbD_append]
  grind
theorem funct3Of_encodeI : funct3Of (encodeI imm rs1 f3 rd m) = f3 := by
  apply BitVec.eq_of_getLsbD_eq
  intro i hi
  simp only [funct3Of, encodeI, BitVec.getLsbD_extractLsb', BitVec.getLsbD_append]
  grind
theorem rs1Of_encodeI : rs1Of (encodeI imm rs1 f3 rd m) = rs1 := by
  apply BitVec.eq_of_getLsbD_eq
  intro i hi
  simp only [rs1Of, encodeI, BitVec.getLsbD_extractLsb', BitVec.getLsbD_append]
  grind
theorem immIOf_encodeI : immIOf (encodeI imm rs1 f3 rd m) = imm := by
  apply BitVec.eq_of_getLsbD_eq
  intro i hi
  simp only [immIOf, encodeI, BitVec.getLsbD_extractLsb', BitVec.getLsbD_append]
  grind

end I

/-! ### I format, shifts -/

section Shift6
variable (f6 shamt : BitVec 6) (rs1 : RegIdx) (f3 : BitVec 3) (rd : RegIdx)

theorem opcodeOf_encodeShift6 : opcodeOf (encodeShift6 f6 shamt rs1 f3 rd) = Major.opImm.code := by
  apply BitVec.eq_of_getLsbD_eq
  intro i hi
  simp only [opcodeOf, encodeShift6, BitVec.getLsbD_extractLsb', BitVec.getLsbD_append]
  grind
theorem rdOf_encodeShift6 : rdOf (encodeShift6 f6 shamt rs1 f3 rd) = rd := by
  apply BitVec.eq_of_getLsbD_eq
  intro i hi
  simp only [rdOf, encodeShift6, BitVec.getLsbD_extractLsb', BitVec.getLsbD_append]
  grind
theorem funct3Of_encodeShift6 : funct3Of (encodeShift6 f6 shamt rs1 f3 rd) = f3 := by
  apply BitVec.eq_of_getLsbD_eq
  intro i hi
  simp only [funct3Of, encodeShift6, BitVec.getLsbD_extractLsb', BitVec.getLsbD_append]
  grind
theorem rs1Of_encodeShift6 : rs1Of (encodeShift6 f6 shamt rs1 f3 rd) = rs1 := by
  apply BitVec.eq_of_getLsbD_eq
  intro i hi
  simp only [rs1Of, encodeShift6, BitVec.getLsbD_extractLsb', BitVec.getLsbD_append]
  grind
theorem shamt6Of_encodeShift6 : shamt6Of (encodeShift6 f6 shamt rs1 f3 rd) = shamt := by
  apply BitVec.eq_of_getLsbD_eq
  intro i hi
  simp only [shamt6Of, encodeShift6, BitVec.getLsbD_extractLsb', BitVec.getLsbD_append]
  grind
theorem funct6Of_encodeShift6 : funct6Of (encodeShift6 f6 shamt rs1 f3 rd) = f6 := by
  apply BitVec.eq_of_getLsbD_eq
  intro i hi
  simp only [funct6Of, encodeShift6, BitVec.getLsbD_extractLsb', BitVec.getLsbD_append]
  grind

end Shift6

/-- The OP-IMM-32 shift layout is the R layout with the amount in the place of `rs2` (R82). -/
theorem encodeShift5_eq_encodeR (f7 : BitVec 7) (shamt : BitVec 5) (rs1 : RegIdx) (f3 : BitVec 3)
    (rd : RegIdx) : encodeShift5 f7 shamt rs1 f3 rd = encodeR f7 shamt rs1 f3 rd .opImm32 := rfl

/-- The amount of an OP-IMM-32 shift stands in the bits of `rs2` (R81). -/
theorem shamt5Of_eq_rs2Of (raw : Word32) : shamt5Of raw = rs2Of raw := rfl

/-! ### S, SB, U and UJ formats -/

section S
variable (imm : BitVec 12) (rs2 rs1 : RegIdx) (f3 : BitVec 3)

theorem opcodeOf_encodeS : opcodeOf (encodeS imm rs2 rs1 f3) = Major.store.code := by
  apply BitVec.eq_of_getLsbD_eq
  intro i hi
  simp only [opcodeOf, encodeS, BitVec.getLsbD_extractLsb', BitVec.getLsbD_append]
  grind
theorem funct3Of_encodeS : funct3Of (encodeS imm rs2 rs1 f3) = f3 := by
  apply BitVec.eq_of_getLsbD_eq
  intro i hi
  simp only [funct3Of, encodeS, BitVec.getLsbD_extractLsb', BitVec.getLsbD_append]
  grind
theorem rs1Of_encodeS : rs1Of (encodeS imm rs2 rs1 f3) = rs1 := by
  apply BitVec.eq_of_getLsbD_eq
  intro i hi
  simp only [rs1Of, encodeS, BitVec.getLsbD_extractLsb', BitVec.getLsbD_append]
  grind
theorem rs2Of_encodeS : rs2Of (encodeS imm rs2 rs1 f3) = rs2 := by
  apply BitVec.eq_of_getLsbD_eq
  intro i hi
  simp only [rs2Of, encodeS, BitVec.getLsbD_extractLsb', BitVec.getLsbD_append]
  grind
theorem immSOf_encodeS : immSOf (encodeS imm rs2 rs1 f3) = imm := by
  apply BitVec.eq_of_getLsbD_eq
  intro i hi
  simp only [immSOf, encodeS, BitVec.getLsbD_extractLsb', BitVec.getLsbD_append]
  grind

end S

section SB
variable (imm : BitVec 13) (rs2 rs1 : RegIdx) (f3 : BitVec 3)

theorem opcodeOf_encodeSB : opcodeOf (encodeSB imm rs2 rs1 f3) = Major.branch.code := by
  apply BitVec.eq_of_getLsbD_eq
  intro i hi
  simp only [opcodeOf, encodeSB, BitVec.getLsbD_extractLsb', BitVec.getLsbD_append]
  grind
theorem funct3Of_encodeSB : funct3Of (encodeSB imm rs2 rs1 f3) = f3 := by
  apply BitVec.eq_of_getLsbD_eq
  intro i hi
  simp only [funct3Of, encodeSB, BitVec.getLsbD_extractLsb', BitVec.getLsbD_append]
  grind
theorem rs1Of_encodeSB : rs1Of (encodeSB imm rs2 rs1 f3) = rs1 := by
  apply BitVec.eq_of_getLsbD_eq
  intro i hi
  simp only [rs1Of, encodeSB, BitVec.getLsbD_extractLsb', BitVec.getLsbD_append]
  grind
theorem rs2Of_encodeSB : rs2Of (encodeSB imm rs2 rs1 f3) = rs2 := by
  apply BitVec.eq_of_getLsbD_eq
  intro i hi
  simp only [rs2Of, encodeSB, BitVec.getLsbD_extractLsb', BitVec.getLsbD_append]
  grind
/-- The offset of an SB word, if it is even. -/
theorem immBOf_encodeSB (h : evenOffset imm = true) : immBOf (encodeSB imm rs2 rs1 f3) = imm := by
  have h0 : imm.getLsbD 0 = false := by simpa [evenOffset] using h
  apply BitVec.eq_of_getLsbD_eq
  intro i hi
  simp only [immBOf, encodeSB, BitVec.getLsbD_extractLsb', BitVec.getLsbD_append]
  by_cases hz : i = 0
  · subst hz
    rw [h0]
    rfl
  · grind

end SB

section U
variable (imm20 : BitVec 20) (rd : RegIdx) (m : Major)

theorem opcodeOf_encodeU : opcodeOf (encodeU imm20 rd m) = m.code := by
  apply BitVec.eq_of_getLsbD_eq
  intro i hi
  simp only [opcodeOf, encodeU, BitVec.getLsbD_extractLsb', BitVec.getLsbD_append]
  grind
theorem rdOf_encodeU : rdOf (encodeU imm20 rd m) = rd := by
  apply BitVec.eq_of_getLsbD_eq
  intro i hi
  simp only [rdOf, encodeU, BitVec.getLsbD_extractLsb', BitVec.getLsbD_append]
  grind
theorem immUOf_encodeU : immUOf (encodeU imm20 rd m) = imm20 := by
  apply BitVec.eq_of_getLsbD_eq
  intro i hi
  simp only [immUOf, encodeU, BitVec.getLsbD_extractLsb', BitVec.getLsbD_append]
  grind

end U

section UJ
variable (imm : BitVec 21) (rd : RegIdx)

theorem opcodeOf_encodeUJ : opcodeOf (encodeUJ imm rd) = Major.jal.code := by
  apply BitVec.eq_of_getLsbD_eq
  intro i hi
  simp only [opcodeOf, encodeUJ, BitVec.getLsbD_extractLsb', BitVec.getLsbD_append]
  grind
theorem rdOf_encodeUJ : rdOf (encodeUJ imm rd) = rd := by
  apply BitVec.eq_of_getLsbD_eq
  intro i hi
  simp only [rdOf, encodeUJ, BitVec.getLsbD_extractLsb', BitVec.getLsbD_append]
  grind
/-- The offset of a UJ word, if it is even. -/
theorem immJOf_encodeUJ (h : evenOffset imm = true) : immJOf (encodeUJ imm rd) = imm := by
  have h0 : imm.getLsbD 0 = false := by simpa [evenOffset] using h
  apply BitVec.eq_of_getLsbD_eq
  intro i hi
  simp only [immJOf, encodeUJ, BitVec.getLsbD_extractLsb', BitVec.getLsbD_append]
  by_cases hz : i = 0
  · subst hz
    rw [h0]
    rfl
  · grind

end UJ

/-! ### A word is its fields put together -/

theorem fieldsR (raw : Word32) :
    (funct7Of raw ++ rs2Of raw ++ rs1Of raw ++ funct3Of raw ++ rdOf raw ++ opcodeOf raw : Word32) = raw := by
  apply BitVec.eq_of_getLsbD_eq
  intro i hi
  simp only [funct7Of, rs2Of, rs1Of, funct3Of, rdOf, opcodeOf, BitVec.getLsbD_extractLsb',
    BitVec.getLsbD_append]
  grind
theorem fieldsI (raw : Word32) :
    (immIOf raw ++ rs1Of raw ++ funct3Of raw ++ rdOf raw ++ opcodeOf raw : Word32) = raw := by
  apply BitVec.eq_of_getLsbD_eq
  intro i hi
  simp only [immIOf, rs1Of, funct3Of, rdOf, opcodeOf, BitVec.getLsbD_extractLsb', BitVec.getLsbD_append]
  grind
theorem fieldsShift6 (raw : Word32) :
    (funct6Of raw ++ shamt6Of raw ++ rs1Of raw ++ funct3Of raw ++ rdOf raw ++ opcodeOf raw : Word32) = raw := by
  apply BitVec.eq_of_getLsbD_eq
  intro i hi
  simp only [funct6Of, shamt6Of, rs1Of, funct3Of, rdOf, opcodeOf, BitVec.getLsbD_extractLsb',
    BitVec.getLsbD_append]
  grind
theorem fieldsS (raw : Word32) :
    ((immSOf raw).extractLsb' 5 7 ++ rs2Of raw ++ rs1Of raw ++ funct3Of raw ++ (immSOf raw).extractLsb' 0 5
      ++ opcodeOf raw : Word32) = raw := by
  apply BitVec.eq_of_getLsbD_eq
  intro i hi
  simp only [immSOf, rs2Of, rs1Of, funct3Of, opcodeOf, BitVec.getLsbD_extractLsb', BitVec.getLsbD_append]
  grind
theorem fieldsSB (raw : Word32) :
    ((immBOf raw).extractLsb' 12 1 ++ (immBOf raw).extractLsb' 5 6 ++ rs2Of raw ++ rs1Of raw ++ funct3Of raw
      ++ (immBOf raw).extractLsb' 1 4 ++ (immBOf raw).extractLsb' 11 1 ++ opcodeOf raw : Word32) = raw := by
  apply BitVec.eq_of_getLsbD_eq
  intro i hi
  simp only [immBOf, rs2Of, rs1Of, funct3Of, opcodeOf, BitVec.getLsbD_extractLsb', BitVec.getLsbD_append]
  grind
theorem fieldsU (raw : Word32) : (immUOf raw ++ rdOf raw ++ opcodeOf raw : Word32) = raw := by
  apply BitVec.eq_of_getLsbD_eq
  intro i hi
  simp only [immUOf, rdOf, opcodeOf, BitVec.getLsbD_extractLsb', BitVec.getLsbD_append]
  grind
theorem fieldsUJ (raw : Word32) :
    ((immJOf raw).extractLsb' 20 1 ++ (immJOf raw).extractLsb' 1 10 ++ (immJOf raw).extractLsb' 11 1
      ++ (immJOf raw).extractLsb' 12 8 ++ rdOf raw ++ opcodeOf raw : Word32) = raw := by
  apply BitVec.eq_of_getLsbD_eq
  intro i hi
  simp only [immJOf, rdOf, opcodeOf, BitVec.getLsbD_extractLsb', BitVec.getLsbD_append]
  grind

/-- A decoded branch offset is even. -/
theorem evenOffset_immBOf (raw : Word32) : evenOffset (immBOf raw) = true := by
  rw [evenOffset, immBOf, BitVec.getLsbD_append]
  rfl

/-- A decoded jal offset is even. -/
theorem evenOffset_immJOf (raw : Word32) : evenOffset (immJOf raw) = true := by
  rw [evenOffset, immJOf, BitVec.getLsbD_append]
  rfl

/-! ### Opcodes -/

@[simp] theorem majorOf_code (m : Major) : majorOf m.code = some m := by cases m <;> rfl

/-- A major opcode read from the opcode bits has exactly those bits. -/
theorem code_of_majorOf {opcode : BitVec 7} {m : Major} (h : majorOf opcode = some m) :
    m.code = opcode := by
  unfold majorOf at h
  split at h <;> cases h <;> rfl

/-- No halt sentinel among the words of the eleven major opcodes (R97). -/
theorem ne_haltWord_of_opcode {raw : Word32} {m : Major} (h : opcodeOf raw = m.code) : raw ≠ haltWord := by
  intro e
  subst e
  cases m <;> exact absurd h (by decide)

/-! ### The lookup, one equation per major opcode (R95) -/

theorem lookup_none {raw : Word32} (h : majorOf (opcodeOf raw) = none) : lookup raw = none := by
  rw [lookup, h]
theorem lookup_op {raw : Word32} (h : opcodeOf raw = Major.op.code) :
    lookup raw = tableB .op (funct3Of raw) (funct7Of raw) := by
  rw [lookup, h, majorOf_code]
theorem lookup_op32 {raw : Word32} (h : opcodeOf raw = Major.op32.code) :
    lookup raw = tableB .op32 (funct3Of raw) (funct7Of raw) := by
  rw [lookup, h, majorOf_code]
theorem lookup_lui {raw : Word32} (h : opcodeOf raw = Major.lui.code) : lookup raw = some .lui := by
  rw [lookup, h, majorOf_code]
theorem lookup_auipc {raw : Word32} (h : opcodeOf raw = Major.auipc.code) : lookup raw = some .auipc := by
  rw [lookup, h, majorOf_code]
theorem lookup_jal {raw : Word32} (h : opcodeOf raw = Major.jal.code) : lookup raw = some .jal := by
  rw [lookup, h, majorOf_code]
theorem lookup_opImm {raw : Word32} (h : opcodeOf raw = Major.opImm.code) :
    lookup raw = if isShiftCell (funct3Of raw) then shiftImm64 (funct3Of raw) (funct6Of raw)
      else tableA .opImm (funct3Of raw) := by
  rw [lookup, h, majorOf_code]
theorem lookup_opImm32 {raw : Word32} (h : opcodeOf raw = Major.opImm32.code) :
    lookup raw = if isShiftCell (funct3Of raw) then shiftImm32 (funct3Of raw) (funct7Of raw)
      else tableA .opImm32 (funct3Of raw) := by
  rw [lookup, h, majorOf_code]
theorem lookup_load {raw : Word32} (h : opcodeOf raw = Major.load.code) :
    lookup raw = tableA .load (funct3Of raw) := by
  rw [lookup, h, majorOf_code]
theorem lookup_store {raw : Word32} (h : opcodeOf raw = Major.store.code) :
    lookup raw = tableA .store (funct3Of raw) := by
  rw [lookup, h, majorOf_code]
theorem lookup_branch {raw : Word32} (h : opcodeOf raw = Major.branch.code) :
    lookup raw = tableA .branch (funct3Of raw) := by
  rw [lookup, h, majorOf_code]
theorem lookup_jalr {raw : Word32} (h : opcodeOf raw = Major.jalr.code) :
    lookup raw = tableA .jalr (funct3Of raw) := by
  rw [lookup, h, majorOf_code]

/-! The lookup of an encoded word -/

section Encoded
variable (f7 : BitVec 7) (f6 shamt6 : BitVec 6) (shamt5 : BitVec 5) (imm : BitVec 12) (rs2 rs1 : RegIdx)
  (f3 : BitVec 3) (rd : RegIdx)

theorem lookup_encodeR_op : lookup (encodeR f7 rs2 rs1 f3 rd .op) = tableB .op f3 f7 := by
  rw [lookup_op (opcodeOf_encodeR ..), funct3Of_encodeR, funct7Of_encodeR]
theorem lookup_encodeR_op32 : lookup (encodeR f7 rs2 rs1 f3 rd .op32) = tableB .op32 f3 f7 := by
  rw [lookup_op32 (opcodeOf_encodeR ..), funct3Of_encodeR, funct7Of_encodeR]
theorem lookup_encodeI_load : lookup (encodeI imm rs1 f3 rd .load) = tableA .load f3 := by
  rw [lookup_load (opcodeOf_encodeI ..), funct3Of_encodeI]
theorem lookup_encodeI_jalr : lookup (encodeI imm rs1 f3 rd .jalr) = tableA .jalr f3 := by
  rw [lookup_jalr (opcodeOf_encodeI ..), funct3Of_encodeI]
theorem lookup_encodeI_opImm (h : isShiftCell f3 = false) :
    lookup (encodeI imm rs1 f3 rd .opImm) = tableA .opImm f3 := by
  rw [lookup_opImm (opcodeOf_encodeI ..), funct3Of_encodeI, h]
  rfl
theorem lookup_encodeI_opImm32 (h : isShiftCell f3 = false) :
    lookup (encodeI imm rs1 f3 rd .opImm32) = tableA .opImm32 f3 := by
  rw [lookup_opImm32 (opcodeOf_encodeI ..), funct3Of_encodeI, h]
  rfl
theorem lookup_encodeShift6 (h : isShiftCell f3 = true) :
    lookup (encodeShift6 f6 shamt6 rs1 f3 rd) = shiftImm64 f3 f6 := by
  rw [lookup_opImm (opcodeOf_encodeShift6 ..), funct3Of_encodeShift6, funct6Of_encodeShift6, h]
  rfl
theorem lookup_encodeShift5 (h : isShiftCell f3 = true) :
    lookup (encodeShift5 f7 shamt5 rs1 f3 rd) = shiftImm32 f3 f7 := by
  rw [encodeShift5_eq_encodeR, lookup_opImm32 (opcodeOf_encodeR ..), funct3Of_encodeR, funct7Of_encodeR, h]
  rfl
theorem lookup_encodeS : lookup (encodeS imm rs2 rs1 f3) = tableA .store f3 := by
  rw [lookup_store (opcodeOf_encodeS ..), funct3Of_encodeS]
theorem lookup_encodeSB (offset : BitVec 13) : lookup (encodeSB offset rs2 rs1 f3) = tableA .branch f3 := by
  rw [lookup_branch (opcodeOf_encodeSB ..), funct3Of_encodeSB]

end Encoded

/-- The sentinel is not in the decode table (R97). -/
theorem lookup_haltWord : lookup haltWord = none := rfl

end Sys2Proof
end

