-- ==== Sys2Proof/Laws/PerInstr.lean ====
section
/-! SUPPORT. Statements made per instruction. -/

namespace Sys2Proof.Laws

/-- Every instruction's word is looked up as the instruction's own kind (spec/30_encoding.md R91 to R95);
the halt sentinel's word has none (R97). -/
def EncodedKind.Statement (i : Instr) : Prop := lookup (encode i) = i.kind

theorem EncodedKind.addi (rd rs1 : RegIdx) (imm : BitVec 12) : EncodedKind.Statement (.addi rd rs1 imm) :=
  lookup_encodeI_opImm _ _ 0b000 _ rfl
theorem EncodedKind.slti (rd rs1 : RegIdx) (imm : BitVec 12) : EncodedKind.Statement (.slti rd rs1 imm) :=
  lookup_encodeI_opImm _ _ 0b010 _ rfl
theorem EncodedKind.sltiu (rd rs1 : RegIdx) (imm : BitVec 12) : EncodedKind.Statement (.sltiu rd rs1 imm) :=
  lookup_encodeI_opImm _ _ 0b011 _ rfl
theorem EncodedKind.xori (rd rs1 : RegIdx) (imm : BitVec 12) : EncodedKind.Statement (.xori rd rs1 imm) :=
  lookup_encodeI_opImm _ _ 0b100 _ rfl
theorem EncodedKind.ori (rd rs1 : RegIdx) (imm : BitVec 12) : EncodedKind.Statement (.ori rd rs1 imm) :=
  lookup_encodeI_opImm _ _ 0b110 _ rfl
theorem EncodedKind.andi (rd rs1 : RegIdx) (imm : BitVec 12) : EncodedKind.Statement (.andi rd rs1 imm) :=
  lookup_encodeI_opImm _ _ 0b111 _ rfl
theorem EncodedKind.slli (rd rs1 : RegIdx) (shamt : BitVec 6) : EncodedKind.Statement (.slli rd rs1 shamt) :=
  lookup_encodeShift6 _ _ _ 0b001 _ rfl
theorem EncodedKind.srli (rd rs1 : RegIdx) (shamt : BitVec 6) : EncodedKind.Statement (.srli rd rs1 shamt) :=
  lookup_encodeShift6 _ _ _ 0b101 _ rfl
theorem EncodedKind.srai (rd rs1 : RegIdx) (shamt : BitVec 6) : EncodedKind.Statement (.srai rd rs1 shamt) :=
  lookup_encodeShift6 _ _ _ 0b101 _ rfl
theorem EncodedKind.add (rd rs1 rs2 : RegIdx) : EncodedKind.Statement (.add rd rs1 rs2) :=
  lookup_encodeR_op ..
theorem EncodedKind.sub (rd rs1 rs2 : RegIdx) : EncodedKind.Statement (.sub rd rs1 rs2) :=
  lookup_encodeR_op ..
theorem EncodedKind.sll (rd rs1 rs2 : RegIdx) : EncodedKind.Statement (.sll rd rs1 rs2) :=
  lookup_encodeR_op ..
theorem EncodedKind.slt (rd rs1 rs2 : RegIdx) : EncodedKind.Statement (.slt rd rs1 rs2) :=
  lookup_encodeR_op ..
theorem EncodedKind.sltu (rd rs1 rs2 : RegIdx) : EncodedKind.Statement (.sltu rd rs1 rs2) :=
  lookup_encodeR_op ..
theorem EncodedKind.xor (rd rs1 rs2 : RegIdx) : EncodedKind.Statement (.xor rd rs1 rs2) :=
  lookup_encodeR_op ..
theorem EncodedKind.srl (rd rs1 rs2 : RegIdx) : EncodedKind.Statement (.srl rd rs1 rs2) :=
  lookup_encodeR_op ..
theorem EncodedKind.sra (rd rs1 rs2 : RegIdx) : EncodedKind.Statement (.sra rd rs1 rs2) :=
  lookup_encodeR_op ..
theorem EncodedKind.or (rd rs1 rs2 : RegIdx) : EncodedKind.Statement (.or rd rs1 rs2) :=
  lookup_encodeR_op ..
theorem EncodedKind.and (rd rs1 rs2 : RegIdx) : EncodedKind.Statement (.and rd rs1 rs2) :=
  lookup_encodeR_op ..
theorem EncodedKind.addiw (rd rs1 : RegIdx) (imm : BitVec 12) : EncodedKind.Statement (.addiw rd rs1 imm) :=
  lookup_encodeI_opImm32 _ _ 0b000 _ rfl
theorem EncodedKind.slliw (rd rs1 : RegIdx) (shamt : BitVec 5) : EncodedKind.Statement (.slliw rd rs1 shamt) :=
  lookup_encodeShift5 _ _ _ 0b001 _ rfl
theorem EncodedKind.srliw (rd rs1 : RegIdx) (shamt : BitVec 5) : EncodedKind.Statement (.srliw rd rs1 shamt) :=
  lookup_encodeShift5 _ _ _ 0b101 _ rfl
theorem EncodedKind.sraiw (rd rs1 : RegIdx) (shamt : BitVec 5) : EncodedKind.Statement (.sraiw rd rs1 shamt) :=
  lookup_encodeShift5 _ _ _ 0b101 _ rfl
theorem EncodedKind.addw (rd rs1 rs2 : RegIdx) : EncodedKind.Statement (.addw rd rs1 rs2) :=
  lookup_encodeR_op32 ..
theorem EncodedKind.subw (rd rs1 rs2 : RegIdx) : EncodedKind.Statement (.subw rd rs1 rs2) :=
  lookup_encodeR_op32 ..
theorem EncodedKind.sllw (rd rs1 rs2 : RegIdx) : EncodedKind.Statement (.sllw rd rs1 rs2) :=
  lookup_encodeR_op32 ..
theorem EncodedKind.srlw (rd rs1 rs2 : RegIdx) : EncodedKind.Statement (.srlw rd rs1 rs2) :=
  lookup_encodeR_op32 ..
theorem EncodedKind.sraw (rd rs1 rs2 : RegIdx) : EncodedKind.Statement (.sraw rd rs1 rs2) :=
  lookup_encodeR_op32 ..
theorem EncodedKind.lui (rd : RegIdx) (imm20 : BitVec 20) : EncodedKind.Statement (.lui rd imm20) :=
  lookup_lui (opcodeOf_encodeU ..)
theorem EncodedKind.auipc (rd : RegIdx) (imm20 : BitVec 20) : EncodedKind.Statement (.auipc rd imm20) :=
  lookup_auipc (opcodeOf_encodeU ..)
theorem EncodedKind.jal (rd : RegIdx) (offset : BitVec 21) : EncodedKind.Statement (.jal rd offset) :=
  lookup_jal (opcodeOf_encodeUJ ..)
theorem EncodedKind.jalr (rd rs1 : RegIdx) (imm : BitVec 12) : EncodedKind.Statement (.jalr rd rs1 imm) :=
  lookup_encodeI_jalr ..
theorem EncodedKind.beq (rs1 rs2 : RegIdx) (offset : BitVec 13) : EncodedKind.Statement (.beq rs1 rs2 offset) :=
  lookup_encodeSB ..
theorem EncodedKind.bne (rs1 rs2 : RegIdx) (offset : BitVec 13) : EncodedKind.Statement (.bne rs1 rs2 offset) :=
  lookup_encodeSB ..
theorem EncodedKind.blt (rs1 rs2 : RegIdx) (offset : BitVec 13) : EncodedKind.Statement (.blt rs1 rs2 offset) :=
  lookup_encodeSB ..
theorem EncodedKind.bge (rs1 rs2 : RegIdx) (offset : BitVec 13) : EncodedKind.Statement (.bge rs1 rs2 offset) :=
  lookup_encodeSB ..
theorem EncodedKind.bltu (rs1 rs2 : RegIdx) (offset : BitVec 13) : EncodedKind.Statement (.bltu rs1 rs2 offset) :=
  lookup_encodeSB ..
theorem EncodedKind.bgeu (rs1 rs2 : RegIdx) (offset : BitVec 13) : EncodedKind.Statement (.bgeu rs1 rs2 offset) :=
  lookup_encodeSB ..
theorem EncodedKind.lb (rd rs1 : RegIdx) (imm : BitVec 12) : EncodedKind.Statement (.lb rd rs1 imm) :=
  lookup_encodeI_load ..
theorem EncodedKind.lh (rd rs1 : RegIdx) (imm : BitVec 12) : EncodedKind.Statement (.lh rd rs1 imm) :=
  lookup_encodeI_load ..
theorem EncodedKind.lw (rd rs1 : RegIdx) (imm : BitVec 12) : EncodedKind.Statement (.lw rd rs1 imm) :=
  lookup_encodeI_load ..
theorem EncodedKind.ld (rd rs1 : RegIdx) (imm : BitVec 12) : EncodedKind.Statement (.ld rd rs1 imm) :=
  lookup_encodeI_load ..
theorem EncodedKind.lbu (rd rs1 : RegIdx) (imm : BitVec 12) : EncodedKind.Statement (.lbu rd rs1 imm) :=
  lookup_encodeI_load ..
theorem EncodedKind.lhu (rd rs1 : RegIdx) (imm : BitVec 12) : EncodedKind.Statement (.lhu rd rs1 imm) :=
  lookup_encodeI_load ..
theorem EncodedKind.lwu (rd rs1 : RegIdx) (imm : BitVec 12) : EncodedKind.Statement (.lwu rd rs1 imm) :=
  lookup_encodeI_load ..
theorem EncodedKind.sb (rs1 rs2 : RegIdx) (imm : BitVec 12) : EncodedKind.Statement (.sb rs1 rs2 imm) :=
  lookup_encodeS ..
theorem EncodedKind.sh (rs1 rs2 : RegIdx) (imm : BitVec 12) : EncodedKind.Statement (.sh rs1 rs2 imm) :=
  lookup_encodeS ..
theorem EncodedKind.sw (rs1 rs2 : RegIdx) (imm : BitVec 12) : EncodedKind.Statement (.sw rs1 rs2 imm) :=
  lookup_encodeS ..
theorem EncodedKind.sd (rs1 rs2 : RegIdx) (imm : BitVec 12) : EncodedKind.Statement (.sd rs1 rs2 imm) :=
  lookup_encodeS ..
theorem EncodedKind.halt : EncodedKind.Statement .halt :=
  rfl

/-- All of them at once. -/
theorem lookup_encode (i : Instr) : lookup (encode i) = i.kind := by
  cases i with
  | addi => exact EncodedKind.addi ..
  | slti => exact EncodedKind.slti ..
  | sltiu => exact EncodedKind.sltiu ..
  | xori => exact EncodedKind.xori ..
  | ori => exact EncodedKind.ori ..
  | andi => exact EncodedKind.andi ..
  | slli => exact EncodedKind.slli ..
  | srli => exact EncodedKind.srli ..
  | srai => exact EncodedKind.srai ..
  | add => exact EncodedKind.add ..
  | sub => exact EncodedKind.sub ..
  | sll => exact EncodedKind.sll ..
  | slt => exact EncodedKind.slt ..
  | sltu => exact EncodedKind.sltu ..
  | xor => exact EncodedKind.xor ..
  | srl => exact EncodedKind.srl ..
  | sra => exact EncodedKind.sra ..
  | or => exact EncodedKind.or ..
  | and => exact EncodedKind.and ..
  | addiw => exact EncodedKind.addiw ..
  | slliw => exact EncodedKind.slliw ..
  | srliw => exact EncodedKind.srliw ..
  | sraiw => exact EncodedKind.sraiw ..
  | addw => exact EncodedKind.addw ..
  | subw => exact EncodedKind.subw ..
  | sllw => exact EncodedKind.sllw ..
  | srlw => exact EncodedKind.srlw ..
  | sraw => exact EncodedKind.sraw ..
  | lui => exact EncodedKind.lui ..
  | auipc => exact EncodedKind.auipc ..
  | jal => exact EncodedKind.jal ..
  | jalr => exact EncodedKind.jalr ..
  | beq => exact EncodedKind.beq ..
  | bne => exact EncodedKind.bne ..
  | blt => exact EncodedKind.blt ..
  | bge => exact EncodedKind.bge ..
  | bltu => exact EncodedKind.bltu ..
  | bgeu => exact EncodedKind.bgeu ..
  | lb => exact EncodedKind.lb ..
  | lh => exact EncodedKind.lh ..
  | lw => exact EncodedKind.lw ..
  | ld => exact EncodedKind.ld ..
  | lbu => exact EncodedKind.lbu ..
  | lhu => exact EncodedKind.lhu ..
  | lwu => exact EncodedKind.lwu ..
  | sb => exact EncodedKind.sb ..
  | sh => exact EncodedKind.sh ..
  | sw => exact EncodedKind.sw ..
  | sd => exact EncodedKind.sd ..
  | halt => exact EncodedKind.halt

end Sys2Proof.Laws
end

