-- ==== Sys2Proof/Laws/Lookup.lean ====
section
/-! SUPPORT. What the lookup and the decoder can answer: the bits a looked-up word has, and the
inversion of `decode`. -/

namespace Sys2Proof

/-- The bits that the words of a kind share: a major opcode, and the selector fields that the decode
table tests for it (spec/30_encoding.md R91 to R95). -/
structure Key where
  major : Major
  funct3 : Option (BitVec 3)
  funct7 : Option (BitVec 7)
  funct6 : Option (BitVec 6)
deriving DecidableEq, Repr

def keyOf : Kind → Key
  | .addi => ⟨.opImm, some 0b000, none, none⟩
  | .slti => ⟨.opImm, some 0b010, none, none⟩
  | .sltiu => ⟨.opImm, some 0b011, none, none⟩
  | .xori => ⟨.opImm, some 0b100, none, none⟩
  | .ori => ⟨.opImm, some 0b110, none, none⟩
  | .andi => ⟨.opImm, some 0b111, none, none⟩
  | .slli => ⟨.opImm, some 0b001, none, some 0b000000⟩
  | .srli => ⟨.opImm, some 0b101, none, some 0b000000⟩
  | .srai => ⟨.opImm, some 0b101, none, some 0b010000⟩
  | .add => ⟨.op, some 0b000, some 0b0000000, none⟩
  | .sub => ⟨.op, some 0b000, some 0b0100000, none⟩
  | .sll => ⟨.op, some 0b001, some 0b0000000, none⟩
  | .slt => ⟨.op, some 0b010, some 0b0000000, none⟩
  | .sltu => ⟨.op, some 0b011, some 0b0000000, none⟩
  | .xor => ⟨.op, some 0b100, some 0b0000000, none⟩
  | .srl => ⟨.op, some 0b101, some 0b0000000, none⟩
  | .sra => ⟨.op, some 0b101, some 0b0100000, none⟩
  | .or => ⟨.op, some 0b110, some 0b0000000, none⟩
  | .and => ⟨.op, some 0b111, some 0b0000000, none⟩
  | .addiw => ⟨.opImm32, some 0b000, none, none⟩
  | .slliw => ⟨.opImm32, some 0b001, some 0b0000000, none⟩
  | .srliw => ⟨.opImm32, some 0b101, some 0b0000000, none⟩
  | .sraiw => ⟨.opImm32, some 0b101, some 0b0100000, none⟩
  | .addw => ⟨.op32, some 0b000, some 0b0000000, none⟩
  | .subw => ⟨.op32, some 0b000, some 0b0100000, none⟩
  | .sllw => ⟨.op32, some 0b001, some 0b0000000, none⟩
  | .srlw => ⟨.op32, some 0b101, some 0b0000000, none⟩
  | .sraw => ⟨.op32, some 0b101, some 0b0100000, none⟩
  | .lui => ⟨.lui, none, none, none⟩
  | .auipc => ⟨.auipc, none, none, none⟩
  | .jal => ⟨.jal, none, none, none⟩
  | .jalr => ⟨.jalr, some 0b000, none, none⟩
  | .beq => ⟨.branch, some 0b000, none, none⟩
  | .bne => ⟨.branch, some 0b001, none, none⟩
  | .blt => ⟨.branch, some 0b100, none, none⟩
  | .bge => ⟨.branch, some 0b101, none, none⟩
  | .bltu => ⟨.branch, some 0b110, none, none⟩
  | .bgeu => ⟨.branch, some 0b111, none, none⟩
  | .lb => ⟨.load, some 0b000, none, none⟩
  | .lh => ⟨.load, some 0b001, none, none⟩
  | .lw => ⟨.load, some 0b010, none, none⟩
  | .ld => ⟨.load, some 0b011, none, none⟩
  | .lbu => ⟨.load, some 0b100, none, none⟩
  | .lhu => ⟨.load, some 0b101, none, none⟩
  | .lwu => ⟨.load, some 0b110, none, none⟩
  | .sb => ⟨.store, some 0b000, none, none⟩
  | .sh => ⟨.store, some 0b001, none, none⟩
  | .sw => ⟨.store, some 0b010, none, none⟩
  | .sd => ⟨.store, some 0b011, none, none⟩

/-- The word has the key's bits. -/
def Key.Holds (key : Key) (raw : Word32) : Prop :=
  opcodeOf raw = key.major.code ∧ (∀ f ∈ key.funct3, funct3Of raw = f) ∧
    (∀ f ∈ key.funct7, funct7Of raw = f) ∧ (∀ f ∈ key.funct6, funct6Of raw = f)

theorem keyOf_tableA (m : Major) : ∀ f : BitVec 3, ∀ k ∈ tableA m f, keyOf k = ⟨m, some f, none, none⟩ := by
  cases m <;> decide
theorem keyOf_rowB0 (m : Major) :
    ∀ f : BitVec 3, ∀ k ∈ (rowB0 m).getD f.toNat none, keyOf k = ⟨m, some f, some 0b0000000, none⟩ := by
  cases m <;> decide
theorem keyOf_rowB32 (m : Major) :
    ∀ f : BitVec 3, ∀ k ∈ (rowB32 m).getD f.toNat none, keyOf k = ⟨m, some f, some 0b0100000, none⟩ := by
  cases m <;> decide
theorem keyOf_tableB {m : Major} {f : BitVec 3} {f7 : BitVec 7} {k : Kind} (h : tableB m f f7 = some k) :
    keyOf k = ⟨m, some f, some f7, none⟩ := by
  unfold tableB at h
  split at h
  · subst f7
    exact keyOf_rowB0 m f k h
  · split at h
    · subst f7
      exact keyOf_rowB32 m f k h
    · cases h

theorem shiftCell_cases : ∀ f : BitVec 3, isShiftCell f = true → f = 0b001 ∨ f = 0b101 := by decide

theorem keyOf_shiftImm64 {f3 : BitVec 3} {f6 : BitVec 6} {k : Kind} (hs : isShiftCell f3 = true)
    (h : shiftImm64 f3 f6 = some k) : keyOf k = ⟨.opImm, some f3, none, some f6⟩ := by
  unfold shiftImm64 at h
  rcases shiftCell_cases f3 hs with rfl | rfl
  all_goals
    repeat' split at h
    all_goals first | contradiction | cases h
    all_goals first | contradiction | (subst f6; rfl)
theorem keyOf_shiftImm32 {f3 : BitVec 3} {f7 : BitVec 7} {k : Kind} (hs : isShiftCell f3 = true)
    (h : shiftImm32 f3 f7 = some k) : keyOf k = ⟨.opImm32, some f3, some f7, none⟩ := by
  unfold shiftImm32 at h
  rcases shiftCell_cases f3 hs with rfl | rfl
  all_goals
    repeat' split at h
    all_goals first | contradiction | cases h
    all_goals first | contradiction | (subst f7; rfl)

/-- A looked-up word has its kind's bits. -/
theorem lookup_key {raw : Word32} {k : Kind} (h : lookup raw = some k) : (keyOf k).Holds raw := by
  unfold lookup at h
  split at h
  · cases h
  all_goals
    rename_i hm
    have hc := code_of_majorOf hm
  · simp [Key.Holds, keyOf_tableB h, hc]
  · simp [Key.Holds, keyOf_tableB h, hc]
  · cases h
    simp [Key.Holds, keyOf, hc]
  · cases h
    simp [Key.Holds, keyOf, hc]
  · cases h
    simp [Key.Holds, keyOf, hc]
  · split at h
    · rename_i hs
      simp [Key.Holds, keyOf_shiftImm64 hs h, hc]
    · simp [Key.Holds, keyOf_tableA _ _ _ h, hc]
  · split at h
    · rename_i hs
      simp [Key.Holds, keyOf_shiftImm32 hs h, hc]
    · simp [Key.Holds, keyOf_tableA _ _ _ h, hc]
  all_goals simp [Key.Holds, keyOf_tableA _ _ _ h, hc]

/-! ### The decoder -/

theorem withOperands_kind (k : Kind) (raw : Word32) : (withOperands k raw).kind = some k := by
  cases k <;> rfl
theorem withOperands_wellFormed (k : Kind) (raw : Word32) : (withOperands k raw).WellFormed := by
  cases k <;> first | rfl | exact evenOffset_immBOf raw | exact evenOffset_immJOf raw

/-- What a decoded word is: the sentinel, or a looked-up word with its operands. -/
theorem decode_ok {raw : Word32} {i : Instr} (h : decode raw = .ok i) :
    (raw = haltWord ∧ i = .halt) ∨
      (raw ≠ haltWord ∧ ∃ k, lookup raw = some k ∧ i = withOperands k raw) := by
  unfold decode at h
  split at h
  · cases h
    exact .inl ⟨‹_›, rfl⟩
  · split at h
    · cases h
      exact .inr ⟨‹_›, _, ‹_›, rfl⟩
    · cases h

/-- What a rejected word is: neither the sentinel nor looked up. -/
theorem decode_error {raw : Word32} {e : DecodeError} (h : decode raw = .error e) :
    raw ≠ haltWord ∧ lookup raw = none ∧ e = .illegalWord raw := by
  unfold decode at h
  split at h
  · cases h
  · split at h <;> cases h
    exact ⟨‹_›, ‹_›, rfl⟩

end Sys2Proof
end

