-- ==== Sys2Proof/Laws/Completed.lean ====
section
/-! SUPPORT. Everything an instruction that answers a next state does, said once for all kinds. -/

namespace Sys2Proof.Machine

/-- From `s`, the instruction `i` of kind `k` committed as `t`: `m` is memory after the access stage, `o`
what the stages put into the record (spec/40_pipeline.md R137 to R142). -/
structure Committed (i : Instr) (k : Kind) (s t : State) (m : Memory) (o : StageOutputs) : Prop where
  commits : t = { s with mem := m }.commit (encode i)
    (if (descriptor k).writesRd then
      (if (descriptor k).readsMem then o.memResult else o.result).map (rdOf (encode i), ·)
    else none) o
  op1 : o.op1 = if (descriptor k).readsRs1 then some (s.readReg (rs1Of (encode i))) else none
  op2 : o.op2 = if (descriptor k).readsRs2 then some (s.readReg (rs2Of (encode i))) else none
  nextPC : o.nextPC = nextPcOf s i
  result : o.result.isSome = (descriptor k).doesArithLogic
  addr : o.addr.isSome = ((descriptor k).readsMem || (descriptor k).writesMem)
  memResult : o.memResult.isSome = (descriptor k).readsMem
  memory : (storeBytesOf k = none ∧ m = s.mem) ∨
    ∃ w : Width, storeBytesOf k = some w.bytes ∧
      m = memWrite s.mem (storeAddr (s.readReg (rs1Of (encode i))) (immSOf (encode i))) w.bytes
        (s.readReg (rs2Of (encode i)))

/-- Some memory and outputs with which it committed. -/
def Commits (i : Instr) (k : Kind) (s t : State) : Prop := ∃ m o, Committed i k s t m o

/-! One lemma per shape -/

section Shapes
variable {i : Instr} {k : Kind} {rd rs1 rs2 : RegIdx} {s t : State}

theorem aluImm_commits {f : Word → Word} (h : aluImm i rd rs1 f s = .next t) (hd : rdOf (encode i) = rd)
    (h1 : rs1Of (encode i) = rs1) (hk : descriptor k = ⟨true, false, true, false, false, true⟩)
    (hn : nextPcOf s i = s.pc + 4) (hs : storeBytesOf k = none) : Commits i k s t := by
  refine ⟨s.mem, { op1 := some (s.readReg rs1), result := some (f (s.readReg rs1)), nextPC := pcPlus4 s.pc }, ?_⟩
  refine ⟨by rw [← Host.Outcome.next.inj h]; simp [hk, hd], ?_, ?_, ?_, ?_, ?_, ?_, ?_⟩
  all_goals simp [hk, h1, hn, pcPlus4, hs]
theorem aluReg_commits {f : Word → Word → Word} (h : aluReg i rd rs1 rs2 f s = .next t)
    (hd : rdOf (encode i) = rd) (h1 : rs1Of (encode i) = rs1) (h2 : rs2Of (encode i) = rs2)
    (hk : descriptor k = ⟨true, true, true, false, false, true⟩)
    (hn : nextPcOf s i = s.pc + 4) (hs : storeBytesOf k = none) : Commits i k s t := by
  refine ⟨s.mem,
    { op1 := some (s.readReg rs1), op2 := some (s.readReg rs2),
      result := some (f (s.readReg rs1) (s.readReg rs2)), nextPC := pcPlus4 s.pc }, ?_⟩
  refine ⟨by rw [← Host.Outcome.next.inj h]; simp [hk, hd], ?_, ?_, ?_, ?_, ?_, ?_, ?_⟩
  all_goals simp [hk, h1, h2, hn, pcPlus4, hs]
theorem aluUpper_commits {v : Word} (h : aluUpper i rd v s = .next t) (hd : rdOf (encode i) = rd)
    (hk : descriptor k = ⟨false, false, true, false, false, true⟩)
    (hn : nextPcOf s i = s.pc + 4) (hs : storeBytesOf k = none) : Commits i k s t := by
  refine ⟨s.mem, { result := some v, nextPC := pcPlus4 s.pc }, ?_⟩
  refine ⟨by rw [← Host.Outcome.next.inj h]; simp [hk, hd], ?_, ?_, ?_, ?_, ?_, ?_, ?_⟩
  all_goals simp [hk, hn, pcPlus4, hs]
theorem jump_commits {base : Bool} {target : Addr}
    (h : jump i rd (if base then some (s.readReg (rs1Of (encode i))) else none) target s = .next t)
    (hd : rdOf (encode i) = rd) (hk : descriptor k = ⟨base, false, true, false, false, true⟩)
    (hn : nextPcOf s i = target) (hs : storeBytesOf k = none) : Commits i k s t := by
  refine ⟨s.mem,
    { op1 := if base then some (s.readReg (rs1Of (encode i))) else none,
      result := some (pcPlus4 s.pc), nextPC := target }, ?_⟩
  refine ⟨by rw [← Host.Outcome.next.inj h]; simp [hk, hd], ?_, ?_, ?_, ?_, ?_, ?_, ?_⟩
  all_goals simp [hk, hn, hs]
theorem branch_commits {offset : BitVec 13} {cond : Word → Word → Bool}
    (h : branch i rs1 rs2 offset cond s = .next t) (h1 : rs1Of (encode i) = rs1) (h2 : rs2Of (encode i) = rs2)
    (hk : descriptor k = ⟨true, true, false, false, false, false⟩)
    (hn : nextPcOf s i = if cond (s.readReg rs1) (s.readReg rs2) then branchTarget s.pc offset else pcPlus4 s.pc)
    (hs : storeBytesOf k = none) : Commits i k s t := by
  refine ⟨s.mem,
    { op1 := some (s.readReg rs1), op2 := some (s.readReg rs2),
      nextPC := if cond (s.readReg rs1) (s.readReg rs2) then branchTarget s.pc offset else pcPlus4 s.pc }, ?_⟩
  refine ⟨by rw [← Host.Outcome.next.inj h]; simp [hk], ?_, ?_, ?_, ?_, ?_, ?_, ?_⟩
  all_goals simp [hk, h1, h2, hn, hs]
theorem load_commits {imm : BitVec 12} {w : Width} {extend : BitVec (8 * w.bytes) → Word}
    (h : load i rd rs1 imm w extend s = .next t) (hd : rdOf (encode i) = rd) (h1 : rs1Of (encode i) = rs1)
    (hk : descriptor k = ⟨true, false, true, true, false, false⟩)
    (hn : nextPcOf s i = s.pc + 4) (hs : storeBytesOf k = none) : Commits i k s t := by
  have ha := load_cases h
  unfold load at h
  simp only [ha, if_true] at h
  refine ⟨s.mem,
    { op1 := some (s.readReg rs1), addr := some (loadAddr (s.readReg rs1) imm),
      memResult := some (extend (memRead s.mem (loadAddr (s.readReg rs1) imm) w.bytes)),
      nextPC := pcPlus4 s.pc }, ?_⟩
  refine ⟨by rw [← Host.Outcome.next.inj h]; simp [hk, hd], ?_, ?_, ?_, ?_, ?_, ?_, ?_⟩
  all_goals simp [hk, h1, hn, pcPlus4, hs]
theorem store_commits {imm : BitVec 12} {w : Width} (h : store i rs1 rs2 imm w s = .next t)
    (h1 : rs1Of (encode i) = rs1) (h2 : rs2Of (encode i) = rs2) (hi : immSOf (encode i) = imm)
    (hk : descriptor k = ⟨true, true, false, false, true, false⟩)
    (hn : nextPcOf s i = s.pc + 4) (hs : storeBytesOf k = some w.bytes) : Commits i k s t := by
  have ha := store_cases h
  unfold store at h
  simp only [ha, if_true] at h
  refine ⟨memWrite s.mem (storeAddr (s.readReg rs1) imm) w.bytes (s.readReg rs2),
    { op1 := some (s.readReg rs1), op2 := some (s.readReg rs2),
      addr := some (storeAddr (s.readReg rs1) imm), nextPC := pcPlus4 s.pc }, ?_⟩
  refine ⟨by rw [← Host.Outcome.next.inj h]; simp [hk], ?_, ?_, ?_, ?_, ?_, ?_, .inr ⟨w, hs, ?_⟩⟩
  all_goals simp [hk, h1, h2, hn, pcPlus4, hi]

end Shapes

/-! The branch conditions as `nextPcOf` writes them -/

theorem lessSigned_iff (a b : Word) : lessSigned a b = true ↔ a.toInt < b.toInt := BitVec.slt_iff_toInt_lt
theorem not_lessSigned_iff (a b : Word) : (!lessSigned a b) = true ↔ b.toInt ≤ a.toInt := by
  rw [Bool.not_eq_true', ← Bool.not_eq_true, lessSigned_iff, not_lt]
theorem lessUnsigned_iff (a b : Word) : lessUnsigned a b = true ↔ a.toNat < b.toNat := by
  simp [lessUnsigned, BitVec.ult]
theorem not_lessUnsigned_iff (a b : Word) : (!lessUnsigned a b) = true ↔ b.toNat ≤ a.toNat := by
  rw [Bool.not_eq_true', ← Bool.not_eq_true, lessUnsigned_iff, not_lt]

/-- An instruction that answers a next state is the halt, or commits. -/
theorem exec_commits {i : Instr} {s t : State} (h : exec i s = .next t) (hi : i ≠ .halt) :
    ∃ k, i.kind = some k ∧ Commits i k s t := by
  cases i with
  | addi rd rs1 imm =>
    rw [exec_addi] at h
    exact ⟨_, rfl, aluImm_commits h (rdOf_encodeI ..) (rs1Of_encodeI ..) rfl rfl rfl⟩
  | slti rd rs1 imm =>
    rw [exec_slti] at h
    exact ⟨_, rfl, aluImm_commits h (rdOf_encodeI ..) (rs1Of_encodeI ..) rfl rfl rfl⟩
  | sltiu rd rs1 imm =>
    rw [exec_sltiu] at h
    exact ⟨_, rfl, aluImm_commits h (rdOf_encodeI ..) (rs1Of_encodeI ..) rfl rfl rfl⟩
  | xori rd rs1 imm =>
    rw [exec_xori] at h
    exact ⟨_, rfl, aluImm_commits h (rdOf_encodeI ..) (rs1Of_encodeI ..) rfl rfl rfl⟩
  | ori rd rs1 imm =>
    rw [exec_ori] at h
    exact ⟨_, rfl, aluImm_commits h (rdOf_encodeI ..) (rs1Of_encodeI ..) rfl rfl rfl⟩
  | andi rd rs1 imm =>
    rw [exec_andi] at h
    exact ⟨_, rfl, aluImm_commits h (rdOf_encodeI ..) (rs1Of_encodeI ..) rfl rfl rfl⟩
  | slli rd rs1 shamt =>
    rw [exec_slli] at h
    exact ⟨_, rfl, aluImm_commits h (rdOf_encodeShift6 ..) (rs1Of_encodeShift6 ..) rfl rfl rfl⟩
  | srli rd rs1 shamt =>
    rw [exec_srli] at h
    exact ⟨_, rfl, aluImm_commits h (rdOf_encodeShift6 ..) (rs1Of_encodeShift6 ..) rfl rfl rfl⟩
  | srai rd rs1 shamt =>
    rw [exec_srai] at h
    exact ⟨_, rfl, aluImm_commits h (rdOf_encodeShift6 ..) (rs1Of_encodeShift6 ..) rfl rfl rfl⟩
  | add rd rs1 rs2 =>
    rw [exec_add] at h
    exact ⟨_, rfl, aluReg_commits h (rdOf_encodeR ..) (rs1Of_encodeR ..) (rs2Of_encodeR ..) rfl rfl rfl⟩
  | sub rd rs1 rs2 =>
    rw [exec_sub] at h
    exact ⟨_, rfl, aluReg_commits h (rdOf_encodeR ..) (rs1Of_encodeR ..) (rs2Of_encodeR ..) rfl rfl rfl⟩
  | sll rd rs1 rs2 =>
    rw [exec_sll] at h
    exact ⟨_, rfl, aluReg_commits h (rdOf_encodeR ..) (rs1Of_encodeR ..) (rs2Of_encodeR ..) rfl rfl rfl⟩
  | slt rd rs1 rs2 =>
    rw [exec_slt] at h
    exact ⟨_, rfl, aluReg_commits h (rdOf_encodeR ..) (rs1Of_encodeR ..) (rs2Of_encodeR ..) rfl rfl rfl⟩
  | sltu rd rs1 rs2 =>
    rw [exec_sltu] at h
    exact ⟨_, rfl, aluReg_commits h (rdOf_encodeR ..) (rs1Of_encodeR ..) (rs2Of_encodeR ..) rfl rfl rfl⟩
  | xor rd rs1 rs2 =>
    rw [exec_xor] at h
    exact ⟨_, rfl, aluReg_commits h (rdOf_encodeR ..) (rs1Of_encodeR ..) (rs2Of_encodeR ..) rfl rfl rfl⟩
  | srl rd rs1 rs2 =>
    rw [exec_srl] at h
    exact ⟨_, rfl, aluReg_commits h (rdOf_encodeR ..) (rs1Of_encodeR ..) (rs2Of_encodeR ..) rfl rfl rfl⟩
  | sra rd rs1 rs2 =>
    rw [exec_sra] at h
    exact ⟨_, rfl, aluReg_commits h (rdOf_encodeR ..) (rs1Of_encodeR ..) (rs2Of_encodeR ..) rfl rfl rfl⟩
  | or rd rs1 rs2 =>
    rw [exec_or] at h
    exact ⟨_, rfl, aluReg_commits h (rdOf_encodeR ..) (rs1Of_encodeR ..) (rs2Of_encodeR ..) rfl rfl rfl⟩
  | and rd rs1 rs2 =>
    rw [exec_and] at h
    exact ⟨_, rfl, aluReg_commits h (rdOf_encodeR ..) (rs1Of_encodeR ..) (rs2Of_encodeR ..) rfl rfl rfl⟩
  | addiw rd rs1 imm =>
    rw [exec_addiw] at h
    exact ⟨_, rfl, aluImm_commits h (rdOf_encodeI ..) (rs1Of_encodeI ..) rfl rfl rfl⟩
  | slliw rd rs1 shamt =>
    rw [exec_slliw] at h
    exact ⟨_, rfl, aluImm_commits h (rdOf_encodeR (m := .opImm32) ..) (rs1Of_encodeR (m := .opImm32) ..) rfl rfl rfl⟩
  | srliw rd rs1 shamt =>
    rw [exec_srliw] at h
    exact ⟨_, rfl, aluImm_commits h (rdOf_encodeR (m := .opImm32) ..) (rs1Of_encodeR (m := .opImm32) ..) rfl rfl rfl⟩
  | sraiw rd rs1 shamt =>
    rw [exec_sraiw] at h
    exact ⟨_, rfl, aluImm_commits h (rdOf_encodeR (m := .opImm32) ..) (rs1Of_encodeR (m := .opImm32) ..) rfl rfl rfl⟩
  | addw rd rs1 rs2 =>
    rw [exec_addw] at h
    exact ⟨_, rfl, aluReg_commits h (rdOf_encodeR ..) (rs1Of_encodeR ..) (rs2Of_encodeR ..) rfl rfl rfl⟩
  | subw rd rs1 rs2 =>
    rw [exec_subw] at h
    exact ⟨_, rfl, aluReg_commits h (rdOf_encodeR ..) (rs1Of_encodeR ..) (rs2Of_encodeR ..) rfl rfl rfl⟩
  | sllw rd rs1 rs2 =>
    rw [exec_sllw] at h
    exact ⟨_, rfl, aluReg_commits h (rdOf_encodeR ..) (rs1Of_encodeR ..) (rs2Of_encodeR ..) rfl rfl rfl⟩
  | srlw rd rs1 rs2 =>
    rw [exec_srlw] at h
    exact ⟨_, rfl, aluReg_commits h (rdOf_encodeR ..) (rs1Of_encodeR ..) (rs2Of_encodeR ..) rfl rfl rfl⟩
  | sraw rd rs1 rs2 =>
    rw [exec_sraw] at h
    exact ⟨_, rfl, aluReg_commits h (rdOf_encodeR ..) (rs1Of_encodeR ..) (rs2Of_encodeR ..) rfl rfl rfl⟩
  | lui rd imm20 =>
    rw [exec_lui] at h
    exact ⟨_, rfl, aluUpper_commits h (rdOf_encodeU ..) rfl rfl rfl⟩
  | auipc rd imm20 =>
    rw [exec_auipc] at h
    exact ⟨_, rfl, aluUpper_commits h (rdOf_encodeU ..) rfl rfl rfl⟩
  | jal rd offset =>
    rw [exec_jal] at h
    exact ⟨_, rfl, jump_commits (base := false) h (rdOf_encodeUJ ..) rfl rfl rfl⟩
  | jalr rd rs1 imm =>
    have e : rs1Of (encode (.jalr rd rs1 imm)) = rs1 := rs1Of_encodeI ..
    have h' : jump (.jalr rd rs1 imm) rd (some (s.readReg (rs1Of (encode (.jalr rd rs1 imm)))))
        (jalrTarget (s.readReg rs1) imm) s = .next t := by
      rw [e, ← exec_jalr]
      exact h
    exact ⟨_, rfl, jump_commits (base := true) h' (rdOf_encodeI ..) rfl rfl rfl⟩
  | beq rs1 rs2 offset =>
    rw [exec_beq] at h
    exact ⟨_, rfl, branch_commits h (rs1Of_encodeSB ..) (rs2Of_encodeSB ..) rfl (by simp [nextPcOf, branchTarget, immB, pcPlus4]) rfl⟩
  | bne rs1 rs2 offset =>
    rw [exec_bne] at h
    exact ⟨_, rfl, branch_commits h (rs1Of_encodeSB ..) (rs2Of_encodeSB ..) rfl (by simp [nextPcOf, branchTarget, immB, pcPlus4]) rfl⟩
  | blt rs1 rs2 offset =>
    rw [exec_blt] at h
    exact ⟨_, rfl, branch_commits h (rs1Of_encodeSB ..) (rs2Of_encodeSB ..) rfl (by simp only [lessSigned_iff]; rfl) rfl⟩
  | bge rs1 rs2 offset =>
    rw [exec_bge] at h
    exact ⟨_, rfl, branch_commits h (rs1Of_encodeSB ..) (rs2Of_encodeSB ..) rfl (by simp only [not_lessSigned_iff]; rfl) rfl⟩
  | bltu rs1 rs2 offset =>
    rw [exec_bltu] at h
    exact ⟨_, rfl, branch_commits h (rs1Of_encodeSB ..) (rs2Of_encodeSB ..) rfl (by simp only [lessUnsigned_iff]; rfl) rfl⟩
  | bgeu rs1 rs2 offset =>
    rw [exec_bgeu] at h
    exact ⟨_, rfl, branch_commits h (rs1Of_encodeSB ..) (rs2Of_encodeSB ..) rfl (by simp only [not_lessUnsigned_iff]; rfl) rfl⟩
  | lb rd rs1 imm =>
    rw [exec_lb] at h
    exact ⟨_, rfl, load_commits h (rdOf_encodeI ..) (rs1Of_encodeI ..) rfl rfl rfl⟩
  | lh rd rs1 imm =>
    rw [exec_lh] at h
    exact ⟨_, rfl, load_commits h (rdOf_encodeI ..) (rs1Of_encodeI ..) rfl rfl rfl⟩
  | lw rd rs1 imm =>
    rw [exec_lw] at h
    exact ⟨_, rfl, load_commits h (rdOf_encodeI ..) (rs1Of_encodeI ..) rfl rfl rfl⟩
  | ld rd rs1 imm =>
    rw [exec_ld] at h
    exact ⟨_, rfl, load_commits h (rdOf_encodeI ..) (rs1Of_encodeI ..) rfl rfl rfl⟩
  | lbu rd rs1 imm =>
    rw [exec_lbu] at h
    exact ⟨_, rfl, load_commits h (rdOf_encodeI ..) (rs1Of_encodeI ..) rfl rfl rfl⟩
  | lhu rd rs1 imm =>
    rw [exec_lhu] at h
    exact ⟨_, rfl, load_commits h (rdOf_encodeI ..) (rs1Of_encodeI ..) rfl rfl rfl⟩
  | lwu rd rs1 imm =>
    rw [exec_lwu] at h
    exact ⟨_, rfl, load_commits h (rdOf_encodeI ..) (rs1Of_encodeI ..) rfl rfl rfl⟩
  | sb rs1 rs2 imm =>
    rw [exec_sb] at h
    exact ⟨_, rfl, store_commits h (rs1Of_encodeS ..) (rs2Of_encodeS ..) (immSOf_encodeS ..) rfl rfl rfl⟩
  | sh rs1 rs2 imm =>
    rw [exec_sh] at h
    exact ⟨_, rfl, store_commits h (rs1Of_encodeS ..) (rs2Of_encodeS ..) (immSOf_encodeS ..) rfl rfl rfl⟩
  | sw rs1 rs2 imm =>
    rw [exec_sw] at h
    exact ⟨_, rfl, store_commits h (rs1Of_encodeS ..) (rs2Of_encodeS ..) (immSOf_encodeS ..) rfl rfl rfl⟩
  | sd rs1 rs2 imm =>
    rw [exec_sd] at h
    exact ⟨_, rfl, store_commits h (rs1Of_encodeS ..) (rs2Of_encodeS ..) (immSOf_encodeS ..) rfl rfl rfl⟩
  | halt => exact absurd rfl hi

/-- Everything a step in RUNNING that answers a next state does: halt, the illegal instruction, or the
commit of the looked-up kind. -/
theorem step_next {s t : State} (hr : s.status = .running) (h : step s = .next t) :
    s.admits s.pc .word .fetch = true ∧
      ((s.fetchWord = haltWord ∧ t = s.stopHalt haltWord) ∨
        (s.fetchWord ≠ haltWord ∧ lookup s.fetchWord = none ∧ t = s.raiseIllegal s.fetchWord) ∨
        ∃ k, s.fetchWord ≠ haltWord ∧ lookup s.fetchWord = some k ∧
          exec (withOperands k s.fetchWord) s = .next t ∧ Commits (withOperands k s.fetchWord) k s t) := by
  rw [step_running hr] at h
  split at h
  · refine ⟨‹_›, ?_⟩
    split at h
    · rename_i i hd
      rcases decode_ok hd with ⟨hw, rfl⟩ | ⟨hw, k, hl, rfl⟩
      · exact .inl ⟨hw, (Host.Outcome.next.inj h).symm⟩
      · refine .inr (.inr ⟨k, hw, hl, h, ?_⟩)
        obtain ⟨k', hk, hc⟩ := exec_commits h (by cases k <;> simp [withOperands])
        rw [withOperands_kind] at hk
        cases hk
        exact hc
    · rename_i e hd
      obtain ⟨hw, hl, -⟩ := decode_error hd
      exact .inr (.inl ⟨hw, hl, (Host.Outcome.next.inj h).symm⟩)
  · cases h

end Sys2Proof.Machine
end

