-- ==== Sys2Proof/Laws/Requests.lean ====
section
/-! SUPPORT. The requests of a step, by its cases, and how an instruction ends by its data request. -/

namespace Sys2Proof.Machine

theorem stepRequests_terminal {s : State} (h : s.status ≠ .running) : stepRequests s = [] := by
  unfold stepRequests
  cases hs : s.status <;> first | rfl | exact absurd hs h

theorem stepRequests_fetchRefused {s : State} (h : s.status = .running)
    (ha : s.admits s.pc .word .fetch = false) : stepRequests s = [.read .fetch s.pc .word] := by
  simp [stepRequests, h, ha]

theorem stepRequests_decoded {s : State} {i : Instr} (h : s.status = .running)
    (ha : s.admits s.pc .word .fetch = true) (hd : decode s.fetchWord = .ok i) :
    stepRequests s = .read .fetch s.pc .word :: dataRequest s i := by
  simp [stepRequests, h, ha, hd]

theorem stepRequests_illegal {s : State} {e : DecodeError} (h : s.status = .running)
    (ha : s.admits s.pc .word .fetch = true) (hd : decode s.fetchWord = .error e) :
    stepRequests s = [.read .fetch s.pc .word] := by
  simp [stepRequests, h, ha, hd]

/-- An instruction issues at most one data request. -/
theorem dataRequest_length (s : State) (i : Instr) : (dataRequest s i).length ≤ 1 := by
  cases i <;> simp [dataRequest]

/-- How an instruction ends: in a next state with its data request admitted, or in a fault with its data
request refused. -/
def EndsByRequest (i : Instr) (s : State) : Prop :=
  (∃ t, exec i s = .next t ∧ ∀ q ∈ dataRequest s i, s.admitsRequest q = true) ∨
  (∃ f q, exec i s = .fault f ∧ q ∈ dataRequest s i ∧ s.admitsRequest q = false)

section Shapes
variable {i : Instr} {rd rs1 rs2 : RegIdx} {imm : BitVec 12} {w : Width} {s : State}

theorem load_endsByRequest {extend : BitVec (8 * w.bytes) → Word} (he : exec i s = load i rd rs1 imm w extend s)
    (hq : dataRequest s i = [.read .load (loadAddr (s.readReg rs1) imm) w]) : EndsByRequest i s := by
  unfold EndsByRequest
  rw [he, hq]
  cases ha : s.admits (loadAddr (s.readReg rs1) imm) w .load with
  | true =>
    obtain ⟨t, h, -⟩ := load_completes i rd rs1 imm w extend s ha
    exact .inl ⟨t, h, by simpa [State.admitsRequest] using ha⟩
  | false => exact .inr ⟨_, _, load_stuck i rd rs1 imm w extend s ha, List.mem_singleton.2 rfl, ha⟩

theorem store_endsByRequest (he : exec i s = store i rs1 rs2 imm w s)
    (hq : dataRequest s i = [.write (storeAddr (s.readReg rs1) imm) w (s.readReg rs2)]) :
    EndsByRequest i s := by
  unfold EndsByRequest
  rw [he, hq]
  cases ha : s.admits (storeAddr (s.readReg rs1) imm) w .store with
  | true =>
    obtain ⟨t, h, -⟩ := store_completes i rs1 rs2 imm w s ha
    exact .inl ⟨t, h, by simpa [State.admitsRequest] using ha⟩
  | false => exact .inr ⟨_, _, store_stuck i rs1 rs2 imm w s ha, List.mem_singleton.2 rfl, ha⟩

end Shapes

theorem exec_endsByRequest (i : Instr) (s : State) : EndsByRequest i s := by
  cases i with
  | lb rd rs1 imm => exact load_endsByRequest (exec_lb ..) rfl
  | lh rd rs1 imm => exact load_endsByRequest (exec_lh ..) rfl
  | lw rd rs1 imm => exact load_endsByRequest (exec_lw ..) rfl
  | ld rd rs1 imm => exact load_endsByRequest (exec_ld ..) rfl
  | lbu rd rs1 imm => exact load_endsByRequest (exec_lbu ..) rfl
  | lhu rd rs1 imm => exact load_endsByRequest (exec_lhu ..) rfl
  | lwu rd rs1 imm => exact load_endsByRequest (exec_lwu ..) rfl
  | sb rs1 rs2 imm => exact store_endsByRequest (exec_sb ..) rfl
  | sh rs1 rs2 imm => exact store_endsByRequest (exec_sh ..) rfl
  | sw rs1 rs2 imm => exact store_endsByRequest (exec_sw ..) rfl
  | sd rs1 rs2 imm => exact store_endsByRequest (exec_sd ..) rfl
  | _ => exact .inl ⟨_, rfl, fun _ h => by cases h⟩

end Sys2Proof.Machine
end

