-- ==== Sys2Proof/Machine/AsmText.lean ====
section
/-! DEFINITION. An assembly line as text, read into its operation and operands (spec/30_encoding.md R102
to R104, R106; log entry 13). -/

namespace Sys2Proof.Machine

/-- A digit of base 10 or 16. -/
def digitOf (base : Nat) (c : Char) : Option Nat :=
  let v :=
    if '0'.toNat ≤ c.toNat ∧ c.toNat ≤ '9'.toNat then c.toNat - '0'.toNat
    else if 'a'.toNat ≤ c.toNat ∧ c.toNat ≤ 'f'.toNat then c.toNat - 'a'.toNat + 10
    else if 'A'.toNat ≤ c.toNat ∧ c.toNat ≤ 'F'.toNat then c.toNat - 'A'.toNat + 10
    else base
  if v < base then some v else none

/-- The value of digits read from the left, after `acc`. -/
def digitsOf (base : Nat) : Nat → List Char → Option Nat
  | acc, [] => some acc
  | acc, c :: rest =>
    match digitOf base c with
    | some d => digitsOf base (acc * base + d) rest
    | none => none

/-- An unsigned number, decimal or `0x` hexadecimal (R102). -/
def natOf : List Char → Option Nat
  | [] => none
  | '0' :: 'x' :: [] => none
  | '0' :: 'x' :: digits => digitsOf 16 0 digits
  | digits => digitsOf 10 0 digits

/-- A number with an optional sign (R102: `+8`, `-12`). -/
def numOf : List Char → Option Int
  | '-' :: rest => (natOf rest).map fun n => -(n : Int)
  | '+' :: rest => (natOf rest).map fun n => (n : Int)
  | digits => (natOf digits).map fun n => (n : Int)

/-- The pieces of a text between separators. -/
def piecesOf (sep : Char) : List Char → List (List Char)
  | [] => [[]]
  | c :: rest =>
    if c = sep then [] :: piecesOf sep rest
    else
      match piecesOf sep rest with
      | [] => [[c]]
      | piece :: others => (c :: piece) :: others

/-- The text without its outer spaces. -/
def trimSpaces (cs : List Char) : List Char :=
  ((cs.dropWhile (· == ' ')).reverse.dropWhile (· == ' ')).reverse

/-- One operand: a register name, a number, `imm(base)`, or else a label (R102 to R104). -/
def operandOf (cs : List Char) : Option Operand :=
  match regOfName (String.ofList cs) with
  | some _ => some (.reg (String.ofList cs))
  | none =>
    match numOf cs with
    | some v => some (.num v)
    | none =>
      match piecesOf '(' cs with
      | [name] => if name = [] then none else some (.label (String.ofList name))
      | [displacement, inner] =>
        match inner.reverse with
        | ')' :: base =>
          (numOf (trimSpaces displacement)).map fun v => .mem v (String.ofList (trimSpaces base.reverse))
        | _ => none
      | _ => none

/-- All operands, or none if one is not well-formed. -/
def operandsOf : List (List Char) → Option (List Operand)
  | [] => some []
  | cs :: rest =>
    match operandOf (trimSpaces cs), operandsOf rest with
    | some a, some others => some (a :: others)
    | _, _ => none

/-- A line: the operation up to the first space, then operands between commas (R102, R106). -/
def readLine (text : String) : Option AsmLine :=
  let cs := trimSpaces text.toList
  let op := cs.takeWhile (· != ' ')
  let rest := trimSpaces (cs.drop op.length)
  match rest with
  | [] => some ⟨String.ofList op, []⟩
  | _ => (operandsOf (piecesOf ',' rest)).map fun args => ⟨String.ofList op, args⟩

/-- The words of a line of text at an address, under the labels' addresses (R102 to R106). -/
def assembleText (labels : String → Option Addr) (pc : Addr) (text : String) : Option (List Word32) :=
  match readLine text with
  | some line => assembleLine labels pc line
  | none => none

end Sys2Proof.Machine
end

