-- ==== Sys2Proof/Tests/Slice0.lean ====
section
/-! SUPPORT. The model's own tests: each check of WellFormed refuses an ill-formed term, every constructor's
decoding from a word written out field by field, one or two steps per instruction with the expected values of
spec/95_test_vectors.md (named V..) and of the rules' examples (named R..), and for every obligation with
hypotheses a concrete state or word that meets them. -/

set_option Elab.async false

namespace Sys2Proof.Tests
open Sys2Proof Sys2Proof.Machine

/-! ### Helpers -/

/-- A state with a word at the PC, registers and bytes set, everything else as after reset. -/
def start (pc : Addr) (word : Word32) (regs : List (RegIdx × Word)) (bytes : List (Addr × List Byte)) : State :=
  let placed := writeBytes State.reset.mem pc (bytesOfWord word)
  let mem := bytes.foldl (fun (m : Memory) (p : Addr × List Byte) => writeBytes m p.1 p.2) placed
  regs.foldl (fun (s : State) (p : RegIdx × Word) => s.writeReg p.1 p.2) { State.reset with pc := pc, mem := mem }

/-- The bytes V46-1 to V46-7 share. -/
def sample : List (Addr × List Byte) := [(0x300, [0x11, 0x22, 0x33, 0x44, 0x55, 0x66, 0x77, 0x88, 0x99])]

/-- The state an outcome leads to, if it is a next state. -/
def nextOf : Out → Option State
  | .next t => some t
  | .fault _ => none
  | .refused _ => none

/-- The state an outcome leads to, for witnesses. -/
def target (o : Out) : State := (nextOf o).getD State.reset

theorem next_target {o : Out} (h : (nextOf o).isSome = true) : o = .next (target o) := by
  cases o <;> first | rfl | cases h

/-- One step leads to a running state with this register, this PC and these bytes. -/
def leads (s : State) (r : RegIdx) (v : Word) (pc : Addr) (bytes : List (Addr × List Byte)) : Bool :=
  match nextOf (step s) with
  | none => false
  | some t =>
    decide (t.readReg r = v) && decide (t.pc = pc) && decide (t.status = .running) &&
      decide (t.mem = bytes.foldl (fun (m : Memory) (p : Addr × List Byte) => writeBytes m p.1 p.2) s.mem)

/-- One step leads to a state with this status, PC and otherwise the same registers and memory. -/
def ends (s : State) (status : RunStatus) : Bool :=
  match nextOf (step s) with
  | none => false
  | some t => decide (t.status = status ∧ t.pc = s.pc ∧ t.regs = s.regs ∧ t.mem = s.mem)

/-- The reason a step stops. -/
def reasonOf : Out → Option Fault
  | .next _ => none
  | .fault f => some f
  | .refused _ => none

def refuse (s : State) (regions : List RefusedRegion) : State := { s with refused := regions }

/-! ### WellFormed: an ill-formed term for each check -/

theorem test_illFormed_jal : (Instr.jal 1 7).wellFormed = false := by decide
theorem test_illFormed_beq : (Instr.beq 1 2 9).wellFormed = false := by decide
theorem test_illFormed_bne : (Instr.bne 1 2 9).wellFormed = false := by decide
theorem test_illFormed_blt : (Instr.blt 1 2 9).wellFormed = false := by decide
theorem test_illFormed_bge : (Instr.bge 1 2 9).wellFormed = false := by decide
theorem test_illFormed_bltu : (Instr.bltu 1 2 9).wellFormed = false := by decide
theorem test_illFormed_bgeu : (Instr.bgeu 1 2 9).wellFormed = false := by decide
theorem test_wellFormed_boundary : (Instr.jal 1 0x0FFFFE).wellFormed = true ∧ (Instr.beq 1 2 0x1000).wellFormed = true := by
  decide

/-! ### Decoding: the fields of the format from the left (spec/30_encoding.md R82, R90 to R94) -/

theorem test_decode_addi : decode 0b111111111111_00110_000_00101_0010011 = .ok (.addi 5 6 (-1)) := by decide
theorem test_decode_slti : decode 0b000000000101_00110_010_00101_0010011 = .ok (.slti 5 6 (5)) := by decide
theorem test_decode_sltiu : decode 0b100000000000_00110_011_00101_0010011 = .ok (.sltiu 5 6 (-2048)) := by decide
theorem test_decode_xori : decode 0b011111111111_00110_100_00101_0010011 = .ok (.xori 5 6 (2047)) := by decide
theorem test_decode_ori : decode 0b011100000000_00110_110_00101_0010011 = .ok (.ori 5 6 (1792)) := by decide
theorem test_decode_andi : decode 0b111111110000_00110_111_00101_0010011 = .ok (.andi 5 6 (-16)) := by decide
theorem test_decode_addiw : decode 0b000000000001_00110_000_00101_0011011 = .ok (.addiw 5 6 (1)) := by decide
theorem test_decode_jalr : decode 0b000000000100_00110_000_00101_1100111 = .ok (.jalr 5 6 (4)) := by decide
theorem test_decode_lb : decode 0b111111111000_00110_000_00101_0000011 = .ok (.lb 5 6 (-8)) := by decide
theorem test_decode_lh : decode 0b000000000111_00110_001_00101_0000011 = .ok (.lh 5 6 (7)) := by decide
theorem test_decode_lw : decode 0b000000000001_00110_010_00101_0000011 = .ok (.lw 5 6 (1)) := by decide
theorem test_decode_ld : decode 0b111111111100_00110_011_00101_0000011 = .ok (.ld 5 6 (-4)) := by decide
theorem test_decode_lbu : decode 0b000000000000_00110_100_00101_0000011 = .ok (.lbu 5 6 (0)) := by decide
theorem test_decode_lhu : decode 0b000000000010_00110_101_00101_0000011 = .ok (.lhu 5 6 (2)) := by decide
theorem test_decode_lwu : decode 0b111111111001_00110_110_00101_0000011 = .ok (.lwu 5 6 (-7)) := by decide
theorem test_decode_slli : decode 0b000000_111111_00110_001_00101_0010011 = .ok (.slli 5 6 63) := by decide
theorem test_decode_srli : decode 0b000000_111100_00110_101_00101_0010011 = .ok (.srli 5 6 60) := by decide
theorem test_decode_srai : decode 0b010000_100001_00110_101_00101_0010011 = .ok (.srai 5 6 33) := by decide
theorem test_decode_slliw : decode 0b0000000_11111_00110_001_00101_0011011 = .ok (.slliw 5 6 31) := by decide
theorem test_decode_srliw : decode 0b0000000_00100_00110_101_00101_0011011 = .ok (.srliw 5 6 4) := by decide
theorem test_decode_sraiw : decode 0b0100000_10001_00110_101_00101_0011011 = .ok (.sraiw 5 6 17) := by decide
theorem test_decode_add : decode 0b0000000_10010_00001_000_11111_0110011 = .ok (.add 31 1 18) := by decide
theorem test_decode_sub : decode 0b0100000_10010_00001_000_11111_0110011 = .ok (.sub 31 1 18) := by decide
theorem test_decode_sll : decode 0b0000000_10010_00001_001_11111_0110011 = .ok (.sll 31 1 18) := by decide
theorem test_decode_slt : decode 0b0000000_10010_00001_010_11111_0110011 = .ok (.slt 31 1 18) := by decide
theorem test_decode_sltu : decode 0b0000000_10010_00001_011_11111_0110011 = .ok (.sltu 31 1 18) := by decide
theorem test_decode_xor : decode 0b0000000_10010_00001_100_11111_0110011 = .ok (.xor 31 1 18) := by decide
theorem test_decode_srl : decode 0b0000000_10010_00001_101_11111_0110011 = .ok (.srl 31 1 18) := by decide
theorem test_decode_sra : decode 0b0100000_10010_00001_101_11111_0110011 = .ok (.sra 31 1 18) := by decide
theorem test_decode_or : decode 0b0000000_10010_00001_110_11111_0110011 = .ok (.or 31 1 18) := by decide
theorem test_decode_and : decode 0b0000000_10010_00001_111_11111_0110011 = .ok (.and 31 1 18) := by decide
theorem test_decode_addw : decode 0b0000000_10010_00001_000_11111_0111011 = .ok (.addw 31 1 18) := by decide
theorem test_decode_subw : decode 0b0100000_10010_00001_000_11111_0111011 = .ok (.subw 31 1 18) := by decide
theorem test_decode_sllw : decode 0b0000000_10010_00001_001_11111_0111011 = .ok (.sllw 31 1 18) := by decide
theorem test_decode_srlw : decode 0b0000000_10010_00001_101_11111_0111011 = .ok (.srlw 31 1 18) := by decide
theorem test_decode_sraw : decode 0b0100000_10010_00001_101_11111_0111011 = .ok (.sraw 31 1 18) := by decide
theorem test_decode_lui : decode 0b10000000000000000001_00101_0110111 = .ok (.lui 5 0x80001) := by decide
theorem test_decode_auipc : decode 0b00010010001101000101_11110_0010111 = .ok (.auipc 30 0x12345) := by decide
theorem test_decode_jal : decode 0b1_1110000001_1_11111111_00001_1101111 = .ok (.jal 1 (-254)) := by decide
theorem test_decode_beq : decode 0b1_111111_00010_00001_000_1000_1_1100011 = .ok (.beq 1 2 (-16)) := by decide
theorem test_decode_bne : decode 0b0_111111_00010_00001_001_1111_1_1100011 = .ok (.bne 1 2 (4094)) := by decide
theorem test_decode_blt : decode 0b0_000000_00010_00001_100_0110_0_1100011 = .ok (.blt 1 2 (12)) := by decide
theorem test_decode_bge : decode 0b1_000000_00010_00001_101_0000_0_1100011 = .ok (.bge 1 2 (-4096)) := by decide
theorem test_decode_bltu : decode 0b0_000000_00010_00001_110_0000_1_1100011 = .ok (.bltu 1 2 (2048)) := by decide
theorem test_decode_bgeu : decode 0b0_000001_00010_00001_111_0001_0_1100011 = .ok (.bgeu 1 2 (34)) := by decide
theorem test_decode_sb : decode 0b1111111_00111_00110_000_11111_0100011 = .ok (.sb 6 7 (-1)) := by decide
theorem test_decode_sh : decode 0b0000001_00111_00110_001_00011_0100011 = .ok (.sh 6 7 (35)) := by decide
theorem test_decode_sw : decode 0b1000000_00111_00110_010_00000_0100011 = .ok (.sw 6 7 (-2048)) := by decide
theorem test_decode_sd : decode 0b0000000_00111_00110_011_01000_0100011 = .ok (.sd 6 7 (8)) := by decide
theorem test_decode_halt : decode 0b11111110111011011111111011101101 = .ok (.halt) := by decide

theorem test_decode_tableWord : decodeTableWord 32 0xFFF30293 = some (.addi 5 6 (-1)) ∧
    decodeTableWord 32 0xFEEDFEED = some .halt ∧ decodeTableWord 32 0 = none := by decide
/-- The first byte is the low byte of the word, and the rest follows (20_memory.md R53). -/
theorem test_decode_bytes : decodeBytes [0x93, 0x02, 0xF3, 0xFF, 0xAB] = .ok (.addi 5 6 (-1), [0xAB]) ∧
    decodeBytes [0x93, 0x02, 0xF3] = .error (.truncated 3) := by decide
/-- V30-1, V30-8, V30-11, V30-14, V30-15, V30-18, V30-22, V30-25, V30-26: illegal words. -/
theorem test_illegal_words :
    [0x00000000, 0x022081B3, 0x402091B3, 0x40031293, 0x0203129B, 0x00037283, 0x000090E7, 0x00000001,
      0xFEEDFEEC].map (fun (w : Word32) => lookup w) = List.replicate 9 none := by decide

/-! ### One step per instruction -/

/-- V41-1: signed overflow wraps. -/
theorem test_addi_wraps :
    leads (start 0x100 0x00130293 [(6, 0x7FFFFFFFFFFFFFFF)] []) 5 0x8000000000000000 0x104 [] = true := by decide
/-- V41-5: rd = rs1 uses old value. -/
theorem test_addi_same_register :
    leads (start 0x100 0xFFF30313 [(6, 0x0)] []) 6 0xFFFFFFFFFFFFFFFF 0x104 [] = true := by decide
/-- V41-7: most negative rs1. -/
theorem test_slti_most_negative :
    leads (start 0x100 0x00032293 [(6, 0x8000000000000000)] []) 5 0x1 0x104 [] = true := by decide
/-- V41-8: imm -1 is 2^64-1 unsigned. -/
theorem test_sltiu_signExtended :
    leads (start 0x100 0xFFF33293 [(6, 0xFFFFFFFFFFFFFFFE)] []) 5 0x1 0x104 [] = true := by decide
/-- V41-11: not. -/
theorem test_xori_complement :
    leads (start 0x100 0xFFF34293 [(6, 0x123456789ABCDEF)] []) 5 0xFEDCBA9876543210 0x104 [] = true := by decide
/-- V41-12: sign-extended immediate sets high bits. -/
theorem test_ori_high_bits :
    leads (start 0x100 0x80036293 [(6, 0x1)] []) 5 0xFFFFFFFFFFFFF801 0x104 [] = true := by decide
/-- V41-13: positive mask keeps low 11 bits. -/
theorem test_andi_mask :
    leads (start 0x100 0x7FF37293 [(6, 0xFFFFFFFFFFFFFFFF)] []) 5 0x7FF 0x104 [] = true := by decide
/-- V41-15: shamt6 bit 5 set. -/
theorem test_slli_32 :
    leads (start 0x100 0x02031293 [(6, 0xFFFFFFFF)] []) 5 0xFFFFFFFF00000000 0x104 [] = true := by decide
/-- V41-16: max amount. -/
theorem test_srli_63 :
    leads (start 0x100 0x03F35293 [(6, 0xFFFFFFFFFFFFFFFF)] []) 5 0x1 0x104 [] = true := by decide
/-- V41-19: sign fill. -/
theorem test_srai_sign_fill :
    leads (start 0x100 0x40135293 [(6, 0x8000000000000000)] []) 5 0xC000000000000000 0x104 [] = true := by decide
/-- V42-1: unsigned carry out lost. -/
theorem test_add_carry_lost :
    leads (start 0x100 0x002081B3 [(1, 0xFFFFFFFFFFFFFFFF), (2, 0x1)] []) 3 0x0 0x104 [] = true := by decide
/-- V42-18: rd = x0 discarded. -/
theorem test_add_x0_discarded :
    leads (start 0x100 0x00208033 [(1, 0x1), (2, 0x2)] []) 0 0 0x104 [] = true := by decide
/-- V42-2: negating the most negative value. -/
theorem test_sub_most_negative :
    leads (start 0x100 0x402081B3 [(1, 0x0), (2, 0x8000000000000000)] []) 3 0x8000000000000000 0x104 [] = true := by decide
/-- V42-4: amount 64 uses low 6 bits = 0. -/
theorem test_sll_amount_64 :
    leads (start 0x100 0x002091B3 [(1, 0x1), (2, 0x40)] []) 3 0x1 0x104 [] = true := by decide
/-- V42-6: only op2[5:0] = 1 counts. -/
theorem test_sll_low_bits_of_amount :
    leads (start 0x100 0x002091B3 [(1, 0x3), (2, 0xFFFFFFFFFFFFFFC1)] []) 3 0x6 0x104 [] = true := by decide
/-- V42-8: min < max signed. -/
theorem test_slt_signed :
    leads (start 0x100 0x0020A1B3 [(1, 0x8000000000000000), (2, 0x7FFFFFFFFFFFFFFF)] []) 3 0x1 0x104 [] = true := by decide
/-- V42-9: same pair unsigned. -/
theorem test_sltu_unsigned :
    leads (start 0x100 0x0020B1B3 [(1, 0x8000000000000000), (2, 0x7FFFFFFFFFFFFFFF)] []) 3 0x0 0x104 [] = true := by decide
/-- V42-11: rs1 = rs2 gives 0. -/
theorem test_xor_same : leads (start 0x100 0x0010C1B3 [(1, 0xABCDEF)] []) 3 0x0 0x104 [] = true := by decide
/-- V42-13: amount 0x7F -> 63. -/
theorem test_srl_amount_7F :
    leads (start 0x100 0x0020D1B3 [(1, 0xFFFFFFFFFFFFFFFF), (2, 0x7F)] []) 3 0x1 0x104 [] = true := by decide
/-- V42-14: sign fill. -/
theorem test_sra_sign_fill :
    leads (start 0x100 0x4020D1B3 [(1, 0x8000000000000000), (2, 0x1)] []) 3 0xC000000000000000 0x104 [] = true := by decide
/-- V42-16: rd = rs1 = rs2. -/
theorem test_or_same : leads (start 0x100 0x0010E0B3 [(1, 0x55)] []) 1 0x55 0x104 [] = true := by decide
/-- V42-17: x0 reads 0. -/
theorem test_and_x0 :
    leads (start 0x100 0x0000F1B3 [(1, 0xFFFFFFFFFFFFFFFF)] []) 3 0x0 0x104 [] = true := by decide
/-- V43-1: sext.w: high word ignored. -/
theorem test_addiw_high_word_ignored :
    leads (start 0x100 0x0003029B [(6, 0x123456789ABCDEF0)] []) 5 0xFFFFFFFF9ABCDEF0 0x104 [] = true := by decide
/-- V43-5: bits past 31 lost. -/
theorem test_slliw_bits_lost :
    leads (start 0x100 0x0103129B [(6, 0xFFFFFFFF00012345)] []) 5 0x23450000 0x104 [] = true := by decide
/-- V43-6: shamt 0 gives a negative result. -/
theorem test_srliw_negative :
    leads (start 0x100 0x0003529B [(6, 0x80000000)] []) 5 0xFFFFFFFF80000000 0x104 [] = true := by decide
/-- V43-9: bit 63 irrelevant. -/
theorem test_sraiw_bit63_irrelevant :
    leads (start 0x100 0x4043529B [(6, 0x800000007FFFFFFF)] []) 5 0x7FFFFFF 0x104 [] = true := by decide
/-- V43-10: 32-bit signed overflow. -/
theorem test_addw_overflow :
    leads (start 0x100 0x002081BB [(1, 0x7FFFFFFF), (2, 0x1)] []) 3 0xFFFFFFFF80000000 0x104 [] = true := by decide
/-- V43-12: negw. -/
theorem test_subw_negw :
    leads (start 0x100 0x402001BB [(2, 0x1)] []) 3 0xFFFFFFFFFFFFFFFF 0x104 [] = true := by decide
/-- V43-13: amount 32 uses low 5 bits = 0. -/
theorem test_sllw_amount_32 :
    leads (start 0x100 0x002091BB [(1, 0x1), (2, 0x20)] []) 3 0x1 0x104 [] = true := by decide
/-- V43-16: amount 63 -> 31. -/
theorem test_srlw_amount_63 :
    leads (start 0x100 0x0020D1BB [(1, 0x80000000), (2, 0x3F)] []) 3 0x1 0x104 [] = true := by decide
/-- V43-17: amount 33 -> 1, positive. -/
theorem test_sraw_amount_33 :
    leads (start 0x100 0x4020D1BB [(1, 0x7FFFFFFF), (2, 0x21)] []) 3 0x3FFFFFFF 0x104 [] = true := by decide
/-- V44-1: all-ones field. -/
theorem test_lui_all_ones : leads (start 0x100 0xFFFFF2B7 [] []) 5 0xFFFFFFFFFFFFF000 0x104 [] = true := by decide
/-- V44-4: funct3 position raw[14:12] = 101 is immediate bits. -/
theorem test_lui_selector_bits_free :
    leads (start 0x100 0x123452B7 [] []) 5 0x12345000 0x104 [] = true := by decide
/-- V44-6: negative offset -4096. -/
theorem test_auipc_negative :
    leads (start 0x100 0xFFFFF297 [] []) 5 0xFFFFFFFFFFFFF100 0x104 [] = true := by decide
/-- V44-8: sum wraps mod 2^64. -/
theorem test_auipc_wraps :
    leads (start 0xFFFFFFFFFFFFF000 0x00001297 [] []) 5 0x0 0xFFFFFFFFFFFFF004 [] = true := by decide
/-- V45-4: largest backward offset. -/
theorem test_jal_largest_backward : leads (start 0x100000 0x800000EF [] []) 1 0x100004 0x0 [] = true := by decide
/-- V45-2: link discarded (j). -/
theorem test_jal_x0 : leads (start 0x100 0xF01FF06F [] []) 0 0 0x0 [] = true := by decide
/-- V45-6: rd = rs1: target uses old x1. -/
theorem test_jalr_same_register :
    leads (start 0x100 0x000080E7 [(1, 0x2000)] []) 1 0x104 0x2000 [] = true := by decide
/-- V45-7: bit 0 cleared: 0x1003 -> 0x1002 (2 mod 4, no trap). -/
theorem test_jalr_bit0_cleared : leads (start 0x100 0x00328067 [(5, 0x1000)] []) 0 0 0x1002 [] = true := by decide
/-- V45-9: differ only in bit 63: not taken. -/
theorem test_beq_bit63 :
    leads (start 0x100 0x00208463 [(1, 0x0), (2, 0x8000000000000000)] []) 1 0x0 0x104 [] = true := by decide
/-- V45-10: most negative offset, always taken. -/
theorem test_beq_taken : leads (start 0x2000 0x80000063 [] []) 0 0 0x1000 [] = true := by decide
/-- V45-11: largest offset, target 2 mod 4. -/
theorem test_bne_largest_offset :
    leads (start 0x100 0x7E209FE3 [(1, 0x1), (2, 0x2)] []) 1 0x1 0x10FE [] = true := by decide
/-- V45-12: signed min < max: taken. -/
theorem test_blt_signed :
    leads (start 0x100 0x0020C863 [(1, 0x8000000000000000), (2, 0x7FFFFFFFFFFFFFFF)] []) 1 0x8000000000000000 0x110 [] = true := by decide
/-- V45-13: same pair unsigned: not taken. -/
theorem test_bltu_unsigned :
    leads (start 0x100 0x0020E863 [(1, 0x8000000000000000), (2, 0x7FFFFFFFFFFFFFFF)] []) 1 0x8000000000000000 0x104 [] = true := by decide
/-- V45-14: equal: taken. -/
theorem test_bge_equal :
    leads (start 0x100 0x0010D863 [(1, 0x8000000000000000)] []) 1 0x8000000000000000 0x110 [] = true := by decide
/-- V45-15: 0 >=u 1 false. -/
theorem test_bgeu_not_taken :
    leads (start 0x100 0x0020F863 [(1, 0x0), (2, 0x1)] []) 1 0x0 0x104 [] = true := by decide
/-- V46-9: most negative offset. -/
theorem test_lb_offset :
    leads (start 0x100 0x80030283 [(6, 0x1000)] [(0x800, [0x7F])]) 5 0x7F 0x104 [] = true := by decide
/-- V46-2: misaligned, bit 15 set: sign-extended. -/
theorem test_lh_misaligned :
    leads (start 0x100 0x00731283 [(6, 0x300)] sample) 5 0xFFFFFFFFFFFF9988 0x104 [] = true := by decide
/-- V46-5: bit 31 set, sign-extended. -/
theorem test_lw_signExtended :
    leads (start 0x100 0x00532283 [(6, 0x300)] sample) 5 0xFFFFFFFF99887766 0x104 [] = true := by decide
/-- V46-4: bit 31 set, zero-extended. -/
theorem test_lwu_zeroExtended :
    leads (start 0x100 0x00536283 [(6, 0x300)] sample) 5 0x99887766 0x104 [] = true := by decide
/-- V46-3: misaligned doubleword. -/
theorem test_ld_misaligned :
    leads (start 0x100 0x00133283 [(6, 0x300)] sample) 5 0x9988776655443322 0x104 [] = true := by decide
/-- V46-8: access wraps past 2^64-1 to 0. -/
theorem test_ld_wraps :
    leads (start 0x100 0xFFC33283 [(6, 0x0)] [(0x0, [0x05, 0x06, 0x07, 0x08]), (0xFFFFFFFFFFFFFFFC, [0x01, 0x02, 0x03, 0x04])]) 5 0x807060504030201 0x104 [] = true := by decide
/-- V46-6: rd = x0: read happens, no write. -/
theorem test_lbu_x0 :
    leads (start 0x100 0x00034003 [(6, 0x300)] sample) 0 0 0x104 [] = true := by decide
/-- V46-10: only the low byte stored. -/
theorem test_sb_low_byte :
    leads (start 0x100 0x00730023 [(6, 0x400), (7, 0x1FF)] []) 6 0x400 0x104 [(0x400, [0xFF])] = true := by decide
/-- V46-11: misaligned store. -/
theorem test_sh_misaligned :
    leads (start 0x100 0x007311A3 [(6, 0x400), (7, 0xABCD)] []) 6 0x400 0x104 [(0x403, [0xCD, 0xAB])] = true := by decide
/-- V46-12: misaligned, negative offset. -/
theorem test_sw_negative_offset :
    leads (start 0x100 0xFE732FA3 [(6, 0x400), (7, 0xFFFFFFFF11223344)] []) 6 0x400 0x104 [(0x3FF, [0x44, 0x33, 0x22, 0x11])] = true := by decide
/-- V46-14: store wraps past 2^64-1 to 0. -/
theorem test_sd_wraps :
    leads (start 0x100 0x00733123 [(6, 0xFFFFFFFFFFFFFFFC), (7, 0x807060504030201)] []) 6 0xFFFFFFFFFFFFFFFC 0x104 [(0x0, [0x03, 0x04, 0x05, 0x06, 0x07, 0x08]), (0xFFFFFFFFFFFFFFFE, [0x01, 0x02])] = true := by decide
/-- V46-13: rs1 = rs2. -/
theorem test_sd_same_register :
    leads (start 0x100 0x00633023 [(6, 0x400)] []) 6 0x400 0x104 [(0x400, [0x00, 0x04, 0x00, 0x00, 0x00, 0x00, 0x00, 0x00])] = true := by decide
/-- R340. -/
theorem test_lb_negative :
    leads (start 0x100 0xFF830283 [(6, 0x208)] [(0x200, [0x80, 0xFF, 0x34, 0x12, 0x78, 0x56, 0x34, 0x92])]) 5 0xFFFFFFFFFFFFFF80 0x104 [] = true := by decide
/-- R344. -/
theorem test_lbu_zeroExtended :
    leads (start 0x100 0xFF834283 [(6, 0x208)] [(0x200, [0x80, 0xFF, 0x34, 0x12, 0x78, 0x56, 0x34, 0x92])]) 5 0x80 0x104 [] = true := by decide
/-- R345. -/
theorem test_lhu_zeroExtended :
    leads (start 0x100 0xFF835283 [(6, 0x208)] [(0x200, [0x80, 0xFF, 0x34, 0x12, 0x78, 0x56, 0x34, 0x92])]) 5 0xFF80 0x104 [] = true := by decide
/-- V40-9: the registers are read before the write. -/
theorem test_add_reads_before_write :
    leads (start 0x100 0x005282B3 [(5, 0x4000000000000000)] []) 5 0x8000000000000000 0x104 [] = true := by decide
/-- V40-12: the PC wraps from the top of the address space. -/
theorem test_pc_wraps : leads (start 0xFFFFFFFFFFFFFFFC 0x00100093 [] []) 1 1 0 [] = true := by decide
/-- V40-13: a fetch at an address that is 2 modulo 4. -/
theorem test_fetch_misaligned : leads (start 0x102 0x00000013 [] []) 1 0 0x106 [] = true := by decide
/-- V40-10: a store over its own word. -/
theorem test_store_over_itself :
    leads (start 0x100 0x00532023 [(6, 0x100), (5, 0xFEEDFEED)] []) 5 0xFEEDFEED 0x104
      [(0x100, [0xED, 0xFE, 0xED, 0xFE])] = true := by decide

/-! ### How a run ends, and the requests that are refused -/

/-- V30-35, V40-1. -/
theorem test_halt : ends (start 0x80 0xFEEDFEED [(5, 9)] []) .halted = true := by decide
/-- V30-1, V30-5 (ecall), V30-27. -/
theorem test_illegal : ends (start 0x40 0x00000000 [(1, 5), (2, 7)] []) .illegal = true ∧
    ends (start 0x40 0x00000073 [(1, 5), (2, 7)] []) .illegal = true ∧
    ends (start 0x40 0x7EEDFEED [(1, 5), (2, 7)] []) .illegal = true := by decide
/-- V40-2, V40-3: a step in a terminal state changes nothing, its record included. -/
theorem test_terminal :
    nextOf (step (target (step (start 0x80 0xFEEDFEED [] [])))) = some (target (step (start 0x80 0xFEEDFEED [] []))) := by
  decide
/-- V40-5. -/
theorem test_store_refused :
    reasonOf (step (refuse (start 0x100 0x00733023 [(6, 0x900), (7, 1)] []) [⟨0x900, 1, .dword, .store⟩])) =
      some (.storeRefused 0x900 .dword) := by decide
/-- V40-6: the fetch is tested before the halt word. -/
theorem test_fetch_refused :
    reasonOf (step (refuse (start 0x100 0xFEEDFEED [] []) [⟨0x100, 1, .word, .fetch⟩])) =
      some (.fetchRefused 0x100) := by decide
/-- V40-7: a load into x0 still reads. -/
theorem test_load_x0_refused :
    reasonOf (step (refuse (start 0x100 0x00032003 [(6, 0x900)] []) [⟨0x900, 1, .word, .load⟩])) =
      some (.loadRefused 0x900 .word) := by decide
/-- V40-8: an illegal word never reaches memory. -/
theorem test_illegal_before_data :
    ends (refuse (start 0x100 0x00000000 [] []) [⟨0, 2 ^ 64, .word, .load⟩, ⟨0, 2 ^ 64, .word, .store⟩])
      .illegal = true := by decide
/-- A refused region covers its own bytes and width only (20_memory.md R59). -/
theorem test_region_edges : [0x8FF, 0x900, 0x90F, 0x910].map
    (fun (a : Addr) => (RefusedRegion.mk 0x900 0x10 .word .load).covers a .word .load) = [false, true, true, false] := by
  decide
/-- V40-4: reset in any state. -/
theorem test_reset_loads_image :
    (inputReset ⟨[], [], [0x93, 0x00, 0x50, 0x00]⟩ (start 0x80 0xFEEDFEED [(5, 9)] [])).fetchWord = 0x00500093 := by
  decide
/-- The word of `withFetchWord` runs next from reset, also where the fetch was refused or the run had ended. -/
theorem test_withFetchWord :
    (nextOf (step (State.reset.withFetchWord 32 0x00500093))).map (fun t => (t.readReg 1, t.pc)) = some (5, 4) ∧
    (nextOf (step ((target (step (start 0x80 0xFEEDFEED [] []))).withFetchWord 32 0x00500093))).map
      (fun t => (t.readReg 1, t.pc)) = some (5, 0x84) ∧
    (nextOf (step ((refuse State.reset [⟨0, 4, .word, .fetch⟩]).withFetchWord 32 0x00500093))).map
      (fun t => (t.readReg 1, t.pc)) = some (5, 4) := by decide
/-- The record of a committed load (10_state.md R30). -/
theorem test_record :
    ((nextOf (step (start 0x100 0xFF834283 [(6, 0x208)] [(0x200, [0x80])]))).bind (·.retired)).map
      (fun r => (r.pc, r.rd, r.rs1, r.rs2, r.op1, r.addr, r.memResult, r.result)) =
    some (0x100, some 5, some 6, none, some 0x208, some 0x200, some 0x80, none) := by decide
/-- 30_encoding.md R105: `li` with 0x12345FFF. -/
theorem test_li : (Pseudo.li32 5 0x12345FFF).expand = [.lui 5 0x12346, .addiw 5 5 (-1)] := by decide
/-- 95_test_vectors.md, program P2's second line and P8's seventh. -/
theorem test_assemble :
    assembleLine (fun _ => none) 0x04 ⟨"beq", [.reg "x1", .reg "x1", .num 8]⟩ = some [0x00108463] ∧
    assembleLine (fun _ => some 0x08) 0x18 ⟨"jal", [.reg "zero", .label "loop"]⟩ = some [0xFF1FF06F] := by
  decide +kernel

/-! ### Witnesses: for each obligation with hypotheses, a state, word or instruction that meets them -/

/-- DecodeOfEncodeIsIdentity, PlacedWordRunsNext, WrittenLineAssemblesBack: offsets at both ends. -/
theorem test_witness_wellFormed : (Instr.jal 1 (-1048576)).WellFormed ∧ (Instr.jal 1 1048574).WellFormed ∧
    (Instr.bgeu 1 2 (-4096)).WellFormed ∧ (Instr.beq 1 2 4094).WellFormed ∧ Instr.halt.WellFormed ∧
    (Instr.sd 31 31 (-2048)).WellFormed := by decide
/-- EncodeOfDecodeIsIdentity. -/
theorem test_witness_decoded : decode 0xFE732FA3 = .ok (.sw 6 7 (-1)) ∧ decode 0x7E209FE3 = .ok (.bne 1 2 4094) := by
  decide
/-- DecoderAgreesWithOpcodeTable: a row its word matches, and a word that matches none. -/
theorem test_witness_row : (⟨"srai", some .srai, 0xFC00707F, 0x40005013⟩ : TableRow) ∈ opcodeTable ∧
    (⟨"srai", some .srai, 0xFC00707F, 0x40005013⟩ : TableRow).matches 0x43C35293 := by
  refine ⟨?_, ?_⟩
  · decide
  · show (0x43C35293 : Word32) &&& 0xFC00707F = 0x40005013
    decide
theorem test_witness_noRow : ∀ row ∈ opcodeTable, ((0x022081B3 : Word32) &&& row.mask) ≠ row.pattern := by decide
/-- ReservedEncodingsAreIllegal: a word for each clause, in order (V30-25, V30-5, V30-8, V30-11, V30-12, V30-14,
V30-13, V30-15, V30-16, V30-17, V30-18, V30-19, V30-20, V30-22). -/
theorem test_witness_reserved :
    (0x00000001 : Word32).extractLsb' 0 2 ≠ 0b11 ∧
    (0x00000073 : Word32).extractLsb' 0 7 = 0b1110011 ∧
    (0x022081B3 : Word32).extractLsb' 0 7 = 0b0110011 ∧ (0x022081B3 : Word32).extractLsb' 25 7 = 0b0000001 ∧
    (0x402091B3 : Word32).extractLsb' 0 7 = 0b0110011 ∧ (0x402091B3 : Word32).extractLsb' 25 7 = 0b0100000 ∧
    (0x402091B3 : Word32).extractLsb' 12 3 = 0b001 ∧
    (0x0020A1BB : Word32).extractLsb' 0 7 = 0b0111011 ∧ (0x0020A1BB : Word32).extractLsb' 12 3 = 0b010 ∧
    (0x40031293 : Word32).extractLsb' 0 7 = 0b0010011 ∧ (0x40031293 : Word32).extractLsb' 12 3 = 0b001 ∧
    (0x40031293 : Word32).extractLsb' 26 6 = 0b010000 ∧
    (0x44035293 : Word32).extractLsb' 12 3 = 0b101 ∧ (0x44035293 : Word32).extractLsb' 26 6 = 0b010001 ∧
    (0x0203129B : Word32).extractLsb' 0 7 = 0b0011011 ∧ (0x0203129B : Word32).extractLsb' 12 3 = 0b001 ∧
    (0x0203129B : Word32).extractLsb' 25 7 = 0b0000001 ∧
    (0x4203529B : Word32).extractLsb' 12 3 = 0b101 ∧ (0x4203529B : Word32).extractLsb' 25 7 = 0b0100001 ∧
    (0x0003229B : Word32).extractLsb' 0 7 = 0b0011011 ∧ (0x0003229B : Word32).extractLsb' 12 3 = 0b010 ∧
    (0x00037283 : Word32).extractLsb' 0 7 = 0b0000011 ∧ (0x00037283 : Word32).extractLsb' 12 3 = 0b111 ∧
    (0x00734023 : Word32).extractLsb' 0 7 = 0b0100011 ∧ ((0x00734023 : Word32).extractLsb' 12 3).toNat = 4 ∧
    (0x0020A463 : Word32).extractLsb' 0 7 = 0b1100011 ∧ (0x0020A463 : Word32).extractLsb' 12 3 = 0b010 ∧
    (0x000090E7 : Word32).extractLsb' 0 7 = 0b1100111 ∧ (0x000090E7 : Word32).extractLsb' 12 3 = 0b001 := by decide
/-- JalResult, its last clauses (V30-31). -/
theorem test_witness_jal : (0x0000F0EF : Word32).extractLsb' 0 7 = 0b1101111 ∧
    State.reset.pc.getLsbD 0 = false ∧ (-1048576 : BitVec 21).getLsbD 0 = false := by decide

/-- LoadResults, StoreResults, StoreThenLoadRoundTrip: the reset state admits every access. -/
theorem test_witness_admitsAll : State.reset.admitsAll := fun _ _ _ => rfl
/-- LoadResults and StoreResults, in a state that refuses some accesses: the last admitted byte before a region. -/
theorem test_witness_admitted :
    let s := refuse State.reset [⟨0x900, 1, .byte, .load⟩, ⟨0x900, 1, .dword, .store⟩]
    s.admits 0x8FF .byte .load = true ∧ s.admits 0x900 .half .load = true ∧ s.admits 0x900 .word .load = true ∧
    s.admits 0xFFFFFFFFFFFFFFFF .dword .load = true ∧ s.admits 0x900 .byte .store = true ∧
    s.admits 0x900 .half .store = true ∧ s.admits 0x900 .word .store = true ∧
    s.admits 0x8FF .dword .store = true := by decide
/-- RefusedDataAccessIsStuck: every clause, at address -2048 below register 6. -/
theorem test_witness_refused :
    let s := refuse (start 0x100 0x00000013 [(6, 0x800)] [])
      [⟨0, 1, .byte, .load⟩, ⟨0, 1, .half, .load⟩, ⟨0, 1, .word, .load⟩, ⟨0, 1, .dword, .load⟩,
       ⟨0, 1, .byte, .store⟩, ⟨0, 1, .half, .store⟩, ⟨0, 1, .word, .store⟩, ⟨0, 1, .dword, .store⟩]
    let a := s.readReg 6 + (-2048 : BitVec 12).signExtend 64
    s.admits a .byte .load = false ∧ s.admits a .half .load = false ∧ s.admits a .word .load = false ∧
    s.admits a .dword .load = false ∧ s.admits a .byte .store = false ∧ s.admits a .half .store = false ∧
    s.admits a .word .store = false ∧ s.admits a .dword .store = false := by decide
/-- MemWriteIsLittleEndian: the last byte of a doubleword that wraps, and the byte after it. -/
theorem test_witness_memWrite : 7 < Width.dword.bytes ∧
    ∀ k, k < Width.dword.bytes → (4 : Addr) ≠ 0xFFFFFFFFFFFFFFFC + BitVec.ofNat 64 k := by decide

/-- StepRunsTheDecodedInstruction; EveryStepReturnsItsRecord, OutputsAfterAStep, StepKeepsThePcEven (a step that
commits); StepEndsInOneOutcome and StuckExactlyOnARefusedRequest (a state in RUNNING). -/
theorem test_witness_running :
    let s := start 0x100 0x00A08113 [(1, 5)] []
    s.status = .running ∧ s.admits s.pc .word .fetch = true ∧ decode s.fetchWord = .ok (.addi 2 1 10) ∧
    s.pc.getLsbD 0 = false ∧ step s = .next (target (step s)) := by
  exact ⟨by decide, by decide, by decide, by decide, next_target (by decide)⟩
/-- IllegalWordEndsTheRun; EveryStepReturnsItsRecord and OutputsAfterAStep for an illegal word. -/
theorem test_witness_illegal :
    let s := start 0x40 0x00100073 [(1, 5)] []
    s.status = .running ∧ s.admits s.pc .word .fetch = true ∧ s.fetchWord ≠ 0xFEEDFEED ∧
    lookup s.fetchWord = none ∧ step s = .next (target (step s)) ∧
    (target (step s)).outputs.status ≠ 0b00 := by
  exact ⟨by decide, by decide, by decide, by decide, next_target (by decide), by decide⟩
/-- HaltSentinelEndsTheRun; the record and the outputs for the halt. -/
theorem test_witness_halt :
    let s := start 0xFFFFFFFFFFFFFFFE 0xFEEDFEED [] []
    s.status = .running ∧ s.admits s.pc .word .fetch = true ∧ s.fetchWord = 0xFEEDFEED ∧
    step s = .next (target (step s)) ∧ (target (step s)).outputs.status ≠ 0b00 := by
  exact ⟨by decide, by decide, by decide, next_target (by decide), by decide⟩
/-- RefusedFetchIsStuck, and a refused request of StuckExactlyOnARefusedRequest. -/
theorem test_witness_refusedFetch :
    let s := refuse (start 0x100 0xFEEDFEED [] []) [⟨0x100, 1, .word, .fetch⟩]
    s.status = .running ∧ s.admits s.pc .word .fetch = false ∧
    .read .fetch s.pc .word ∈ stepRequests s ∧ s.admitsRequest (.read .fetch s.pc .word) = false := by decide
/-- A refused fetch is the step's only request, also of a store's word (log entry 14). -/
theorem test_refused_fetch_stands_alone :
    let s := start 0x100 0x00733023 [(6, 0x900), (7, 1)] []
    stepRequests s = [.read .fetch 0x100 .word, .write 0x900 .dword 1] ∧
    stepRequests (refuse s [⟨0x100, 1, .word, .fetch⟩]) = [.read .fetch 0x100 .word] := by decide
/-- A refused data request, after an admitted fetch. -/
theorem test_witness_refusedRequest :
    let s := refuse (start 0x100 0x00733023 [(6, 0x900), (7, 1)] []) [⟨0x900, 1, .dword, .store⟩]
    s.status = .running ∧ s.admits s.pc .word .fetch = true ∧
    .write 0x900 .dword 1 ∈ stepRequests s ∧ s.admitsRequest (.write 0x900 .dword 1) = false := by decide

/-- TerminalStatesAreFinal, RunKeepsAdmissionAndTerminalStatus: a terminal state and a state it reaches. -/
theorem test_witness_terminal :
    let s := target (step (start 0x80 0xFEEDFEED [(5, 9)] []))
    s.status ≠ .running ∧ Reaches s s ∧ step s = .next s := by
  exact ⟨by decide, .refl, step_terminal (by decide)⟩
/-- RunKeepsAdmissionAndTerminalStatus: a run of one step that does something. -/
theorem test_witness_reaches :
    let s := start 0x100 0x00A08113 [(1, 5)] []
    Reaches s (target (step s)) ∧ (target (step s)).readReg 2 = 15 := by
  exact ⟨.tail .refl (next_target (by decide)), by decide⟩
/-- CanonicalNopOnlyAdvances, both clauses. -/
theorem test_witness_nop :
    let s := start 0x100 0x00000013 [] []
    let u := start 0x100 0x00700013 [] []
    (s.status = .running ∧ s.admits s.pc .word .fetch = true ∧ s.fetchWord = 0x00000013) ∧
    (u.status = .running ∧ u.fetchWord ≠ 0x00000013 ∧ step u = .next (target (step u))) := by
  exact ⟨⟨by decide, by decide, by decide⟩, by decide, by decide, next_target (by decide)⟩

/-- OpImmAluResults (its last clause), OperandsReadExactlyAsFlagged, CommitWritesResultAndPc, NextPcOfEveryInstruction: a store, a load into its
own base register, a jump. -/
theorem test_witness_exec :
    let s := start 0x100 0x00000013 [(6, 0x400)] []
    exec (.addi 0 0 0) s = .next (target (exec (.addi 0 0 0) s)) ∧ (Instr.sd 6 6 0).kind = some .sd ∧ exec (.sd 6 6 0) s = .next (target (exec (.sd 6 6 0) s)) ∧
    (Instr.ld 6 6 0).kind = some .ld ∧ exec (.ld 6 6 0) s = .next (target (exec (.ld 6 6 0) s)) ∧
    (Instr.jalr 6 6 3).kind = some .jalr ∧ exec (.jalr 6 6 3) s = .next (target (exec (.jalr 6 6 3) s)) := by
  exact ⟨next_target (by decide), rfl, next_target (by decide), rfl, next_target (by decide), rfl,
    next_target (by decide)⟩
/-- OnlyCommitWritesTheRegisterFile. -/
theorem test_witness_registerChange :
    let s := start 0x100 0x00A08113 [(1, 5)] []
    step s = .next (target (step s)) ∧ (target (step s)).readReg 2 ≠ s.readReg 2 := by
  exact ⟨next_target (by decide), by decide⟩
/-- OnlyStoresChangeMemory: the last byte of a doubleword that wraps to address 5. -/
theorem test_witness_byteChange :
    let s := start 0x100 0x00733123 [(6, 0xFFFFFFFFFFFFFFFC), (7, 0x0807060504030201)] []
    step s = .next (target (step s)) ∧ (target (step s)).readByte 5 ≠ s.readByte 5 := by
  exact ⟨next_target (by decide), by decide⟩
/-- RegisterZeroIsHardwired: an `rd` of 0, and a branch whose bits 11..7 are 0. -/
theorem test_witness_rdZero :
    let s := start 0x100 0x00000013 [(1, 5)] []
    (encode (.add 0 1 1)).extractLsb' 7 5 = 0 ∧ exec (.add 0 1 1) s = .next (target (exec (.add 0 1 1) s)) ∧
    (encode (.beq 1 1 32)).extractLsb' 7 5 = 0 ∧
    exec (.beq 1 1 32) s = .next (target (exec (.beq 1 1 32) s)) := by
  exact ⟨by decide, next_target (by decide), by decide, next_target (by decide)⟩
/-- WordLaw: two states that differ in a high word only (V43-11). -/
theorem test_witness_wordLaw :
    let s := start 0x100 0x002081BB [(1, 0xAAAAAAAA00000005)] []
    let u := start 0x100 0x002081BB [(1, 0x5555555500000005)] []
    (Instr.addw 3 1 2).kind = some .addw ∧ isWordOp .addw = true ∧
    (∀ r : RegIdx, (s.readReg r).setWidth 32 = (u.readReg r).setWidth 32) ∧ s.readReg 1 ≠ u.readReg 1 ∧
    exec (.addw 3 1 2) s = .next (target (exec (.addw 3 1 2) s)) ∧
    exec (.addw 3 1 2) u = .next (target (exec (.addw 3 1 2) u)) := by
  exact ⟨rfl, rfl, by decide, by decide, next_target (by decide), next_target (by decide)⟩
/-- StoreIsSeenByTheNextFetch. -/
theorem test_witness_storeAhead :
    let s := start 0x100 0x00532223 [(6, 0x100), (5, 0xFEEDFEED)] []
    exec (.sw 6 5 4) s = .next (target (exec (.sw 6 5 4) s)) ∧ storeAddr (s.readReg 6) 4 = s.pc + 4 := by
  exact ⟨next_target (by decide), by decide⟩
/-- StepKeepsTheInvariant, ResetMeetsTheInvariant: a state with a record and memory that meets it and steps. -/
theorem test_witness_inv :
    let s := target (step (start 0x40 0x00000000 [] [(0x200, [0x80])]))
    s.Inv ∧ step s = .next s ∧ Memory.wf [(0x200, 0x80)] = true := by
  refine ⟨⟨by decide, fun h => absurd h (by decide), fun _ => ?_, fun r h => .inr (.inl ?_)⟩,
    step_terminal (by decide), by decide⟩
  · refine ⟨Record.decoded 0x40 0, by decide, by decide, by decide, by decide, by decide, by decide⟩
  · have e : (target (step (start 0x40 0x00000000 [] [(0x200, [0x80])]))).retired = some (Record.decoded 0x40 0) := by
      decide
    rw [e] at h
    cases h
    decide
/-- StepKeepsTheInvariant from a running state. -/
theorem test_witness_inv_running :
    let s := start 0x100 0x00A08113 [(1, 5)] []
    s.Inv ∧ step s = .next (target (step s)) := by
  refine ⟨⟨by decide, fun h => absurd h (by decide), fun h => absurd h (by decide), fun r h => ?_⟩,
    next_target (by decide)⟩
  have e : (start 0x100 0x00A08113 [(1, 5)] []).retired = none := by decide
  rw [e] at h
  cases h
/-- BootLoadsTheImage: an image's first and last byte, and the first address after it. -/
theorem test_witness_boot :
    let p : BootParams := ⟨[(5, 0xAA)], [], [0x93, 0x00, 0x50, 0x00]⟩
    p.image.length ≤ 2 ^ 64 ∧ 0 < p.image.length ∧ 3 < p.image.length ∧ p.image.length ≤ (4 : Addr).toNat := by
  decide
/-- DriverEndsAndExitCodes, RunEndIsIndependentOfTheLimit: a run that halts, one that is illegal, one that the
limit cuts, and one that is stuck. -/
theorem test_witness_drive :
    let h := start 0x80 0xFEEDFEED [] []
    let i := start 0x40 0x00000000 [] []
    let f := refuse h [⟨0x80, 1, .word, .fetch⟩]
    h.status = .running ∧ drive 1 h = .success (target (step h)) ∧ RunsTo none h (.success (target (step h))) ∧
    i.status = .running ∧ drive 1 i = .illegalInstruction 0x40 0 (target (step i)) ∧
    drive 0 h = .limitReached h ∧ f.status = .running ∧ drive 1 f = .stuck (.fetchRefused 0x80) f := by
  refine ⟨by decide, by decide, ⟨1, by decide, fun t h => ?_⟩, by decide, by decide, by decide, by decide, by decide⟩
  cases h
/-- LoadImmediateExpansion and PcRelativeExpansions: a register that is not x0, and the largest offset. -/
theorem test_witness_expansion : (31 : RegIdx) ≠ 0 ∧ (0x7FFFF7FF : Word32).toInt ≤ 0x7FFFF7FF ∧
    (0x80000000 : Word32).toInt ≤ 0x7FFFF7FF := by decide

/-! ### Text (spec/30_encoding.md R102 to R106) -/

theorem test_readLine : readLine "ld x7, -8(x2)" = some ⟨"ld", [.reg "x7", .mem (-8) "x2"]⟩ := by decide
/-- R104: a written offset and a label at the same address give one word. -/
theorem test_assembleText :
    assembleText (fun _ => none) 4 "beq x1, x1, +8" = some [0x00108463] ∧
    assembleText (fun n => if n = "L" then some 12 else none) 4 "beq x1, x1, L" = some [0x00108463] := by decide
/-- R103, R106: aliases, the sentinel, and a number out of range. -/
theorem test_assembleText_names :
    assembleText (fun _ => none) 0 "addi a0, zero, 0x2A" = some [0x02A00513] ∧
    assembleText (fun _ => none) 0 "halt" = some [0xFEEDFEED] ∧
    assembleText (fun _ => none) 0 "addi a0, zero, 2048" = none := by decide
/-- The constants of `li` (log entry 15): the least and the greatest it takes, and the next one. -/
theorem test_assembleText_li :
    assembleText (fun _ => none) 0 "li x5, -2147483648" = some [0x800002B7, 0x0002829B] ∧
    assembleText (fun _ => none) 0 "li x5, 0x7FFFFFFF" = some [0x800002B7, 0xFFF2829B] ∧
    assembleText (fun _ => none) 0 "li x5, 0x80000000" = none := by decide

end Sys2Proof.Tests
end

section
/-! Proofs: x0 is hardwired to 0 (spec/10_state.md R21). -/

namespace Sys2Proof.Machine

/-- A commit changes only the register it writes, and never x0. -/
theorem State.commit_readReg_ne {s : State} {raw : Word32} {w : Option (RegIdx × Word)} {o : StageOutputs}
    {r : RegIdx} (h : (s.commit raw w o).readReg r ≠ s.readReg r) : r ≠ 0 ∧ ∃ v, w = some (r, v) := by
  cases w with
  | none => exact absurd (State.commit_readReg_none ..) h
  | some write =>
    obtain ⟨rd, v⟩ := write
    rw [State.commit_readReg_some] at h
    obtain ⟨rfl, h0⟩ : r = rd ∧ r ≠ 0 := by
      by_contra hn
      exact h (if_neg hn)
    exact ⟨h0, v, rfl⟩

/-- The one register an instruction that commits can change: its word's `rd`, not x0, and only for a kind
that writes a register. -/
theorem Committed.readReg_ne {i : Instr} {k : Kind} {s t : State} {m : Memory} {o : StageOutputs}
    (h : Committed i k s t m o) {r : RegIdx} (hr : t.readReg r ≠ s.readReg r) :
    r ≠ 0 ∧ r = rdOf (encode i) ∧ (descriptor k).writesRd = true := by
  rw [h.commits] at hr
  obtain ⟨h0, v, hw⟩ := State.commit_readReg_ne (s := { s with mem := m }) hr
  split at hw
  · obtain ⟨_, -, he⟩ := Option.map_eq_some_iff.1 hw
    exact ⟨h0, (congrArg Prod.fst he).symm, ‹_›⟩
  · cases hw

/-- An instruction whose word has 0 in its `rd` bits changes no register; the bits of a store or a branch
that stand there are immediate bits, and the halt writes nothing. -/
theorem exec_sameRegisters_of_rd_zero {i : Instr} {s t : State} (hrd : rdOf (encode i) = 0)
    (h : exec i s = .next t) : SameRegisters s t := by
  intro r
  by_cases hi : i = .halt
  · subst hi
    rw [exec_halt] at h
    rw [← Host.Outcome.next.inj h, State.stopHalt_readReg]
  · obtain ⟨k, -, m, o, hc⟩ := exec_commits h hi
    by_contra hr
    obtain ⟨h0, he, -⟩ := hc.readReg_ne hr
    exact h0 (he.trans hrd)

/-- Settles O38: the register file's laws for x0, and the one register an instruction can change is not
x0. -/
theorem registerZeroIsHardwired : Obligations.RegisterZeroIsHardwired :=
  ⟨State.readReg_zero, State.writeReg_zero, fun _ _ _ => exec_sameRegisters_of_rd_zero⟩

end Sys2Proof.Machine
end

section
/-! Proofs: the halt sentinel, and the canonical NOP (spec/30_encoding.md R97, R98). -/

namespace Sys2Proof

/-! ### The decoder away from the sentinel -/

/-- A looked-up word decodes to its kind with its operands. -/
theorem decode_of_lookup_some {raw : Word32} {k : Kind} (h : raw ≠ haltWord) (hl : lookup raw = some k) :
    decode raw = .ok (withOperands k raw) := by
  simp [decode, h, hl]

/-- A word without a table entry is rejected. -/
theorem decode_of_lookup_none {raw : Word32} (h : raw ≠ haltWord) (hl : lookup raw = none) :
    decode raw = .error (.illegalWord raw) := by
  simp [decode, h, hl]

theorem decode_eq_halt_iff (raw : Word32) : decode raw = .ok .halt ↔ raw = haltWord := by
  constructor
  · intro h
    obtain ⟨hw, -⟩ | ⟨-, k, -, hi⟩ := decode_ok h
    · exact hw
    · have hk := withOperands_kind k raw
      rw [← hi] at hk
      cases hk
  · rintro rfl
    rfl

theorem lookup_eq_some_iff_decode {raw : Word32} (h : raw ≠ haltWord) (k : Kind) :
    lookup raw = some k ↔ ∃ i, decode raw = .ok i ∧ i.kind = some k := by
  constructor
  · intro hl
    exact ⟨_, decode_of_lookup_some h hl, withOperands_kind k raw⟩
  · rintro ⟨i, hd, hk⟩
    obtain ⟨hw, -⟩ | ⟨-, k', hl, rfl⟩ := decode_ok hd
    · exact absurd hw h
    · rw [hl, ← withOperands_kind k' raw, hk]

theorem lookup_eq_none_iff_decode {raw : Word32} (h : raw ≠ haltWord) :
    lookup raw = none ↔ decode raw = .error (.illegalWord raw) := by
  constructor
  · exact decode_of_lookup_none h
  · intro hd
    obtain ⟨-, hl, -⟩ := decode_error hd
    exact hl

/-- Settles O4, by the inversion of `decode` on both sides of the halt test. -/
theorem onlyTheSentinelDecodesToHalt : Obligations.OnlyTheSentinelDecodesToHalt :=
  ⟨decode_eq_halt_iff, lookup_haltWord, rfl, rfl,
    fun _ h => ⟨lookup_eq_some_iff_decode h, lookup_eq_none_iff_decode h⟩⟩

/-! ### A word encoded again from its own fields -/

section Fields
variable {raw : Word32} {f3 : BitVec 3} {m : Major}

theorem encodeR_fields {f7 : BitVec 7} (hm : opcodeOf raw = m.code) (h3 : funct3Of raw = f3)
    (h7 : funct7Of raw = f7) : encodeR f7 (rs2Of raw) (rs1Of raw) f3 (rdOf raw) m = raw := by
  rw [encodeR, ← hm, ← h3, ← h7, fieldsR]
theorem encodeI_fields (hm : opcodeOf raw = m.code) (h3 : funct3Of raw = f3) :
    encodeI (immIOf raw) (rs1Of raw) f3 (rdOf raw) m = raw := by
  rw [encodeI, ← hm, ← h3, fieldsI]
theorem encodeShift6_fields {f6 : BitVec 6} (hm : opcodeOf raw = Major.opImm.code) (h3 : funct3Of raw = f3)
    (h6 : funct6Of raw = f6) : encodeShift6 f6 (shamt6Of raw) (rs1Of raw) f3 (rdOf raw) = raw := by
  rw [encodeShift6, ← hm, ← h3, ← h6, fieldsShift6]
theorem encodeShift5_fields {f7 : BitVec 7} (hm : opcodeOf raw = Major.opImm32.code) (h3 : funct3Of raw = f3)
    (h7 : funct7Of raw = f7) : encodeShift5 f7 (shamt5Of raw) (rs1Of raw) f3 (rdOf raw) = raw :=
  encodeR_fields hm h3 h7
theorem encodeS_fields (hm : opcodeOf raw = Major.store.code) (h3 : funct3Of raw = f3) :
    encodeS (immSOf raw) (rs2Of raw) (rs1Of raw) f3 = raw := by
  rw [encodeS, ← hm, ← h3, fieldsS]
theorem encodeSB_fields (hm : opcodeOf raw = Major.branch.code) (h3 : funct3Of raw = f3) :
    encodeSB (immBOf raw) (rs2Of raw) (rs1Of raw) f3 = raw := by
  rw [encodeSB, ← hm, ← h3, fieldsSB]
theorem encodeU_fields (hm : opcodeOf raw = m.code) : encodeU (immUOf raw) (rdOf raw) m = raw := by
  rw [encodeU, ← hm, fieldsU]
theorem encodeUJ_fields (hm : opcodeOf raw = Major.jal.code) : encodeUJ (immJOf raw) (rdOf raw) = raw := by
  rw [encodeUJ, ← hm, fieldsUJ]

end Fields

/-- A looked-up word is the word of its kind with its operands: the table's selector fields and the
operands leave no bit of it free. -/
theorem encode_withOperands {raw : Word32} {k : Kind} (h : lookup raw = some k) :
    encode (withOperands k raw) = raw := by
  obtain ⟨hm, h3, h7, h6⟩ := lookup_key h
  cases k with
  | addi | slti | sltiu | xori | ori | andi | addiw | jalr | lb | lh | lw | ld | lbu | lhu | lwu =>
    exact encodeI_fields hm (h3 _ rfl)
  | slli | srli | srai => exact encodeShift6_fields hm (h3 _ rfl) (h6 _ rfl)
  | slliw | srliw | sraiw => exact encodeShift5_fields hm (h3 _ rfl) (h7 _ rfl)
  | add | sub | sll | slt | sltu | xor | srl | sra | or | and | addw | subw | sllw | srlw | sraw =>
    exact encodeR_fields hm (h3 _ rfl) (h7 _ rfl)
  | lui | auipc => exact encodeU_fields hm
  | jal => exact encodeUJ_fields hm
  | beq | bne | blt | bge | bltu | bgeu => exact encodeSB_fields hm (h3 _ rfl)
  | sb | sh | sw | sd => exact encodeS_fields hm (h3 _ rfl)

theorem decode_nopWord : decode nopWord = .ok (.addi 0 0 0) := rfl
theorem lookup_nopWord : lookup nopWord = some .addi := rfl
theorem encode_nop : encode (.addi 0 0 0) = nopWord := rfl

namespace Machine

/-! ### The record of a step -/

theorem Record.withFields_isNop (r : Record) (raw : Word32) : (r.withFields raw).isNop = r.isNop := by
  unfold Record.withFields; split <;> rfl
@[simp] theorem Record.filled_isNop (r : Record) (o : StageOutputs) : (r.filled o).isNop = r.isNop := rfl
@[simp] theorem Record.filled_isLegal (r : Record) (o : StageOutputs) : (r.filled o).isLegal = r.isLegal := rfl

/-- The NOP mark says exactly whether the word is the canonical NOP (40_pipeline.md R134). -/
theorem Record.decoded_isNop (pc : Addr) (raw : Word32) :
    (Record.decoded pc raw).isNop = decide (raw = nopWord) := by
  by_cases hw : raw = haltWord
  · subst hw
    rfl
  · cases hl : lookup raw with
    | none =>
      rw [Record.decoded_illegal pc raw hw hl]
      exact Record.withFields_isNop _ raw
    | some k =>
      rw [Record.decoded_legal pc raw hw hl]
      exact Record.withFields_isNop _ raw

/-- A commit returns the decode stage's record of its instruction's word, filled by the later stages. -/
theorem Committed.retired {i : Instr} {k : Kind} {s t : State} {m : Memory} {o : StageOutputs}
    (h : Committed i k s t m o) : t.retired = some ((Record.decoded s.pc (encode i)).filled o) := by
  rw [h.commits, State.commit_retired]

/-- The record a step in RUNNING returns is the decode stage's of the fetched word: as it stands after a
halt or an illegal word, filled by the later stages after a commit. -/
theorem step_retired {s t : State} (hr : s.status = .running) (h : step s = .next t) :
    t.retired = some (Record.decoded s.pc s.fetchWord) ∨
      ∃ o, t.retired = some ((Record.decoded s.pc s.fetchWord).filled o) := by
  obtain ⟨-, ⟨hw, rfl⟩ | ⟨-, -, rfl⟩ | ⟨k, -, hl, -, m, o, hc⟩⟩ := step_next hr h
  · rw [hw]
    exact .inl rfl
  · exact .inl rfl
  · rw [hc.retired, encode_withOperands hl]
    exact .inr ⟨o, rfl⟩

/-- The record a step in RUNNING returns is marked exactly if the fetched word is the canonical NOP. -/
theorem step_retired_isNop {s t : State} (hr : s.status = .running) (h : step s = .next t) :
    ∃ r, t.retired = some r ∧ r.isNop = decide (s.fetchWord = nopWord) := by
  obtain hd | ⟨o, hd⟩ := step_retired hr h
  · exact ⟨_, hd, Record.decoded_isNop ..⟩
  · exact ⟨_, hd, Record.decoded_isNop ..⟩

/-! ### The canonical NOP -/

/-- A write to x0 changes no register (10_state.md R21). -/
theorem OnlyRegister.sameRegisters_of_zero {s t : State} {v : Word} (h : OnlyRegister s t 0 v) :
    SameRegisters s t := by
  intro r
  rw [h r, if_neg]
  rintro ⟨hr, h0⟩
  exact h0 hr

/-- No byte changes when the memory does not. -/
theorem sameMemory_of_mem_eq {s t : State} (h : t.mem = s.mem) : SameMemory s t := by
  intro a
  rw [State.readByte, State.readByte, h]

/-- A step whose fetched word decodes is the instruction's meaning (40_pipeline.md R145). -/
theorem step_of_decode {s : State} {i : Instr} (hr : s.status = .running)
    (ha : s.admits s.pc .word .fetch = true) (hd : decode s.fetchWord = .ok i) : step s = exec i s := by
  rw [step_running hr, if_pos ha, hd]

theorem step_nop {s : State} (hr : s.status = .running) (ha : s.admits s.pc .word .fetch = true)
    (hw : s.fetchWord = nopWord) : step s = exec (.addi 0 0 0) s :=
  step_of_decode hr ha (by rw [hw, decode_nopWord])

/-- `addi x0, x0, 0` advances the PC by 4 and otherwise changes the record alone, which is the canonical
NOP's. -/
theorem exec_nop (s : State) :
    ∃ t o, exec (.addi 0 0 0) s = .next t ∧ SameRegisters s t ∧ SameMemory s t ∧ SameControl s t ∧
      t.pc = s.pc + 4 ∧ t.retired = some ((Record.decoded s.pc nopWord).filled o) := by
  obtain ⟨t, he, hreg, hpc, hmem, hctl, hret⟩ :=
    aluImm_completes (.addi 0 0 0) 0 0 (fun op1 => op1 + immI 0) s
  rw [← exec_addi] at he
  rw [encode_nop] at hret
  exact ⟨t, _, he, hreg.sameRegisters_of_zero, sameMemory_of_mem_eq hmem, hctl, hpc, hret⟩

/-- The canonical NOP is legal (R98). -/
theorem Record.decoded_nop_isLegal (pc : Addr) : (Record.decoded pc nopWord).isLegal = some true := by
  rw [Record.decoded_legal pc nopWord (by decide) lookup_nopWord]

/-- Settles O31: the step on the NOP is the `addi` it encodes, whose only write is to x0; the mark of every
step's record is that of the fetched word. -/
theorem canonicalNopOnlyAdvances : Obligations.CanonicalNopOnlyAdvances := by
  constructor
  · intro s hr ha hw
    obtain ⟨t, o, he, hreg, hmem, hctl, hpc, hret⟩ := exec_nop s
    exact ⟨t, _, (step_nop hr ha hw).trans he, hreg, hmem, hctl, hpc, hret,
      Record.decoded_isNop s.pc nopWord, Record.decoded_nop_isLegal s.pc, he⟩
  · intro s t hr hw h
    obtain ⟨r, hret, hnop⟩ := step_retired_isNop hr h
    exact ⟨r, hret, hnop.trans (decide_eq_false hw)⟩

end Machine
end Sys2Proof
end

section
/-! Proofs: the stages of an instruction that completes: the operands it collects, what its commit writes,
and its next PC (spec/40_pipeline.md R137, R138, R142). -/

namespace Sys2Proof.Machine

/-- An instruction with a kind that answers a next state commits as that kind. -/
theorem exec_commits_of_kind {i : Instr} {k : Kind} {s t : State} (hk : i.kind = some k)
    (h : exec i s = .next t) : Commits i k s t := by
  obtain ⟨k', hk', hc⟩ := exec_commits h (by rintro rfl; cases hk)
  obtain rfl : k' = k := Option.some.inj (hk'.symm.trans hk)
  exact hc

/-! ### The record of a commit -/

section Filled
variable (r : Record) (o : StageOutputs)

@[simp] theorem Record.filled_flags : (r.filled o).flags = r.flags := rfl
@[simp] theorem Record.filled_op1 : (r.filled o).op1 = o.op1 := rfl
@[simp] theorem Record.filled_op2 : (r.filled o).op2 = o.op2 := rfl
@[simp] theorem Record.filled_result : (r.filled o).result = o.result := rfl
@[simp] theorem Record.filled_memResult : (r.filled o).memResult = o.memResult := rfl
@[simp] theorem Record.filled_nextPC : (r.filled o).nextPC = some o.nextPC := rfl

end Filled

/-- The decode stage puts an encoded instruction's resource flags into its record (40_pipeline.md R136). -/
theorem Record.decoded_encode_flags {i : Instr} {k : Kind} (hk : i.kind = some k) (pc : Addr) :
    (Record.decoded pc (encode i)).flags = some (descriptor k) := by
  have hl : lookup (encode i) = some k := (Laws.lookup_encode i).trans hk
  obtain ⟨hm, -⟩ := lookup_key hl
  rw [Record.decoded_legal pc _ (ne_haltWord_of_opcode hm) hl]

/-- A commit leaves the next PC of its stages (40_pipeline.md R142). -/
theorem Committed.pc {i : Instr} {k : Kind} {s t : State} {m : Memory} {o : StageOutputs}
    (h : Committed i k s t m o) : t.pc = o.nextPC := by
  rw [h.commits, State.commit_pc]

/-- Settles O33: the collected operands are the registers of the word's fields under the kind's flags, which
are the flags in the record. -/
theorem operandsReadExactlyAsFlagged : Obligations.OperandsReadExactlyAsFlagged := by
  refine ⟨State.readReg_zero, by decide, ?_⟩
  intro i k s t hk h
  obtain ⟨m, o, hc⟩ := exec_commits_of_kind hk h
  refine ⟨_, hc.retired, ?_, ?_, ?_⟩
  · rw [Record.filled_flags, Record.decoded_encode_flags hk]
  · exact hc.op1
  · exact hc.op2

/-! ### What a commit writes -/

/-- A kind that writes a register takes the ALU's value for it, unless it reads memory: stores and branches
write none (30_encoding.md R101). -/
theorem descriptor_doesArithLogic {k : Kind} (hw : (descriptor k).writesRd = true)
    (hm : (descriptor k).readsMem = false) : (descriptor k).doesArithLogic = true := by
  cases k with
  | sb | sh | sw | sd | beq | bne | blt | bge | bltu | bgeu => cases hw
  | lb | lh | lw | ld | lbu | lhu | lwu => cases hm
  | _ => rfl

section Committed
variable {i : Instr} {k : Kind} {s t : State} {m : Memory} {o : StageOutputs}

/-- The stages of a kind that writes a register populate the value that commit writes. -/
theorem Committed.writeValue_isSome (h : Committed i k s t m o) (hw : (descriptor k).writesRd = true) :
    (if (descriptor k).readsMem then o.memResult else o.result).isSome = true := by
  split
  · rw [h.memResult]
    assumption
  · rw [h.result]
    exact descriptor_doesArithLogic hw (Bool.eq_false_of_not_eq_true ‹_›)

/-- A kind that writes a register changes the register file by a write of its value to the word's `rd`. -/
theorem Committed.onlyRegister (h : Committed i k s t m o) (hw : (descriptor k).writesRd = true) {v : Word}
    (hv : (if (descriptor k).readsMem then o.memResult else o.result) = some v) :
    OnlyRegister s t (rdOf (encode i)) v := by
  intro r
  rw [h.commits, if_pos hw, hv]
  exact State.commit_readReg_some ..

/-- A kind that writes no register leaves the register file. -/
theorem Committed.sameRegisters (h : Committed i k s t m o) (hw : (descriptor k).writesRd ≠ true) :
    SameRegisters s t := by
  intro r
  by_contra hr
  obtain ⟨-, -, hwr⟩ := h.readReg_ne hr
  exact hw hwr

end Committed

/-- Settles O34: the commit's write by the flag `writesRd`, and its PC. -/
theorem commitWritesResultAndPc : Obligations.CommitWritesResultAndPc := by
  intro i k s t hk h
  obtain ⟨m, o, hc⟩ := exec_commits_of_kind hk h
  refine ⟨_, hc.retired, ?_, ?_⟩
  · rw [Record.filled_nextPC, hc.pc]
  · split
    · obtain ⟨v, hv⟩ := Option.isSome_iff_exists.1 (hc.writeValue_isSome ‹_›)
      exact ⟨v, hv, hc.onlyRegister ‹_› hv⟩
    · exact hc.sameRegisters ‹_›

/-! ### The next PC -/

/-- Settles O35: the halt leaves the PC, and every other instruction commits with the next PC of its
kind. -/
theorem nextPcOfEveryInstruction : Obligations.NextPcOfEveryInstruction := by
  intro i s t h
  by_cases hi : i = .halt
  · subst hi
    rw [exec_halt] at h
    rw [← Host.Outcome.next.inj h, State.stopHalt_pc]
    rfl
  · obtain ⟨k, -, m, o, hc⟩ := exec_commits h hi
    rw [hc.pc, hc.nextPC]

end Sys2Proof.Machine
end

section
/-! Proofs: the OP-IMM adds, compares and logic operations (spec/41_integer_immediate.md R200 to R205). -/

namespace Sys2Proof.Machine

/-- An instruction of the register-immediate shape yields its function of the base register and goes on at
`pc + 4`. -/
theorem yields_of_exec_eq_aluImm {i : Instr} {rd rs1 : RegIdx} {f : Word → Word} {s : State} {v : Word}
    (he : exec i s = aluImm i rd rs1 f s) (hv : f (s.readReg rs1) = v) : Yields i s rd v (s.pc + 4) := by
  obtain ⟨t, h, hreg, hpc, hmem, hctl, -⟩ := aluImm_completes i rd rs1 f s
  rw [hv] at hreg
  exact ⟨t, he.trans h, hreg, hpc, sameMemory_of_mem_eq hmem, hctl⟩

/-- A comparison's word is 1 where the relation the comparison decides holds, and else 0. -/
theorem boolWord_eq_ite {c : Bool} {p : Prop} [Decidable p] (h : c = true ↔ p) :
    boolWord c = if p then 1 else 0 := by
  simp [boolWord, h]

/-- The sign-extended immediate has the immediate's value. -/
theorem toInt_immI (imm : BitVec 12) : (immI imm).toInt = imm.toInt :=
  BitVec.toInt_signExtend_of_le (by decide)

/-- A signed comparison with an immediate compares with its 12-bit value (R201). -/
theorem lessSigned_immI_iff (a : Word) (imm : BitVec 12) :
    lessSigned a (immI imm) = true ↔ a.toInt < imm.toInt := by
  rw [lessSigned_iff, toInt_immI]

/-- The one `addi` with the canonical NOP's word is the canonical NOP: the word determines its fields. -/
theorem encode_addi_eq_nopWord_iff (rd rs1 : RegIdx) (imm : BitVec 12) :
    encode (.addi rd rs1 imm) = nopWord ↔ rd = 0 ∧ rs1 = 0 ∧ imm = 0 := by
  constructor
  · intro h
    have hrd : rd = rdOf nopWord := by rw [← h]; exact (rdOf_encodeI ..).symm
    have hrs1 : rs1 = rs1Of nopWord := by rw [← h]; exact (rs1Of_encodeI ..).symm
    have himm : imm = immIOf nopWord := by rw [← h]; exact (immIOf_encodeI ..).symm
    exact ⟨hrd, hrs1, himm⟩
  · rintro ⟨rfl, rfl, rfl⟩
    exact encode_nop

/-- The record an instruction with a kind commits is marked exactly if its word is the canonical NOP's
(40_pipeline.md R134). -/
theorem exec_retired_isNop {i : Instr} {k : Kind} {s t : State} (hk : i.kind = some k)
    (h : exec i s = .next t) : ∃ r, t.retired = some r ∧ r.isNop = decide (encode i = nopWord) := by
  obtain ⟨m, o, hc⟩ := exec_commits_of_kind hk h
  exact ⟨_, hc.retired, Record.decoded_isNop ..⟩

theorem exec_addi_retired_isNop_iff {rd rs1 : RegIdx} {imm : BitVec 12} {s t : State}
    (h : exec (.addi rd rs1 imm) s = .next t) :
    ∃ r, t.retired = some r ∧ (r.isNop = true ↔ rd = 0 ∧ rs1 = 0 ∧ imm = 0) := by
  obtain ⟨r, hret, hnop⟩ := exec_retired_isNop rfl h
  exact ⟨r, hret, by rw [hnop, decide_eq_true_iff, encode_addi_eq_nopWord_iff]⟩

/-- Settles O7: each of the six is the register-immediate shape with the rule's function, and the two
comparisons are those of the operands' values. -/
theorem opImmAluResults : Obligations.OpImmAluResults := by
  intro rd rs1 imm s
  refine ⟨⟨rfl, ?addi, ?nop⟩, ⟨rfl, ?slti⟩, ⟨rfl, ?sltiu⟩, ⟨rfl, ?xori⟩, ⟨rfl, ?ori⟩, ⟨rfl, ?andi⟩⟩
  case addi => exact yields_of_exec_eq_aluImm (exec_addi ..) rfl
  case nop => exact fun _ => exec_addi_retired_isNop_iff
  case slti => exact yields_of_exec_eq_aluImm (exec_slti ..) (boolWord_eq_ite (lessSigned_immI_iff ..))
  case sltiu => exact yields_of_exec_eq_aluImm (exec_sltiu ..) (boolWord_eq_ite (lessUnsigned_iff ..))
  case xori => exact yields_of_exec_eq_aluImm (exec_xori ..) rfl
  case ori => exact yields_of_exec_eq_aluImm (exec_ori ..) rfl
  case andi => exact yields_of_exec_eq_aluImm (exec_andi ..) rfl

end Sys2Proof.Machine
end

section
/-! Proofs: the OP instructions that are not shifts (spec/42_integer_register.md R230 to R239). -/

namespace Sys2Proof.Machine

/-- An instruction of the register-register shape yields its function of the two source registers and goes
on at `pc + 4`. -/
theorem yields_of_exec_eq_aluReg {i : Instr} {rd rs1 rs2 : RegIdx} {f : Word → Word → Word} {s : State}
    {v : Word} (he : exec i s = aluReg i rd rs1 rs2 f s) (hv : f (s.readReg rs1) (s.readReg rs2) = v) :
    Yields i s rd v (s.pc + 4) := by
  obtain ⟨t, h, hreg, hpc, hmem, hctl, -⟩ := aluReg_completes i rd rs1 rs2 f s
  rw [hv] at hreg
  exact ⟨t, he.trans h, hreg, hpc, sameMemory_of_mem_eq hmem, hctl⟩

/-- Settles O9: each of the seven is the register-register shape with the rule's function, and the two
comparisons are those of the registers' signed and unsigned values. -/
theorem opAluResults : Obligations.OpAluResults := by
  intro rd rs1 rs2 s
  refine ⟨⟨rfl, ?add⟩, ⟨rfl, ?sub⟩, ⟨rfl, ?slt⟩, ⟨rfl, ?sltu⟩, ⟨rfl, ?xor⟩, ⟨rfl, ?or⟩, ⟨rfl, ?and⟩⟩
  case add => exact yields_of_exec_eq_aluReg (exec_add ..) rfl
  case sub => exact yields_of_exec_eq_aluReg (exec_sub ..) rfl
  case slt => exact yields_of_exec_eq_aluReg (exec_slt ..) (boolWord_eq_ite (lessSigned_iff ..))
  case sltu => exact yields_of_exec_eq_aluReg (exec_sltu ..) (boolWord_eq_ite (lessUnsigned_iff ..))
  case xor => exact yields_of_exec_eq_aluReg (exec_xor ..) rfl
  case or => exact yields_of_exec_eq_aluReg (exec_or ..) rfl
  case and => exact yields_of_exec_eq_aluReg (exec_and ..) rfl

end Sys2Proof.Machine
end

section
/-! Proofs: the word instructions: addiw, addw and subw, and the independence of the high words
(spec/43_word_ops.md R260, R264, R265, R269). -/

namespace Sys2Proof.Machine

/-! ### The low word -/

/-- Taking the low word is truncation. -/
theorem low32_eq_setWidth (a : Word) : low32 a = a.setWidth 32 :=
  (BitVec.setWidth_eq_extractLsb' (by decide)).symm

/-- The low word of a sum is the sum of the low words. -/
theorem low32_add (a b : Word) : low32 (a + b) = low32 a + low32 b := by
  simp only [low32_eq_setWidth]
  exact BitVec.setWidth_add a b (by decide)

/-- The amount of a word shift is in the low word (R270). -/
theorem amount5_eq_extract_low32 (a : Word) : amount5 a = (low32 a).extractLsb' 0 5 := by
  rw [amount5, low32, BitVec.extractLsb'_extractLsb'_of_le (by decide)]

/-- Truncation takes a sign extension back. -/
theorem setWidth_sext32 (w : Word32) : (sext32 w).setWidth 32 = w := by
  ext j hj
  have h64 : j < 64 := by omega
  simp [sext32, BitVec.getElem_signExtend, hj, h64]

/-! ### addiw, addw, subw -/

/-- Settles O11: each of the three is its shape with the rule's function, whose low words are
truncations. -/
theorem wordAluResults : Obligations.WordAluResults := by
  intro rd rs1 rs2 imm s
  refine ⟨⟨rfl, ?addiw⟩, ⟨rfl, ?addw⟩, ⟨rfl, ?subw⟩⟩
  case addiw =>
    refine yields_of_exec_eq_aluImm (exec_addiw ..) ?_
    rw [low32_eq_setWidth, immI, sext32]
  case addw =>
    refine yields_of_exec_eq_aluReg (exec_addw ..) ?_
    rw [low32_eq_setWidth, low32_eq_setWidth, sext32]
  case subw =>
    refine yields_of_exec_eq_aluReg (exec_subw ..) ?_
    rw [low32_eq_setWidth, low32_eq_setWidth, sext32]

/-! ### The result of a word instruction -/

/-- From every state `i` yields, in its word's `rd`, the sign extension of one 32-bit function of the
registers' low words (R269). -/
def YieldsSextOfLowWords (i : Instr) : Prop :=
  ∃ g : (RegIdx → Word32) → Word32, ∀ s : State,
    Yields i s (rdOf (encode i)) (sext32 (g fun r => low32 (s.readReg r))) (s.pc + 4)

section Shapes
variable {i : Instr} {rd rs1 rs2 : RegIdx}

theorem yieldsSextOfLowWords_of_aluImm {f : Word → Word} (he : ∀ s, exec i s = aluImm i rd rs1 f s)
    (hd : rdOf (encode i) = rd) (g : Word32 → Word32) (hf : ∀ a, f a = sext32 (g (low32 a))) :
    YieldsSextOfLowWords i := by
  refine ⟨fun low => g (low rs1), fun s => ?_⟩
  rw [hd]
  exact yields_of_exec_eq_aluImm (he s) (hf _)

theorem yieldsSextOfLowWords_of_aluReg {f : Word → Word → Word}
    (he : ∀ s, exec i s = aluReg i rd rs1 rs2 f s) (hd : rdOf (encode i) = rd)
    (g : Word32 → Word32 → Word32) (hf : ∀ a b, f a b = sext32 (g (low32 a) (low32 b))) :
    YieldsSextOfLowWords i := by
  refine ⟨fun low => g (low rs1) (low rs2), fun s => ?_⟩
  rw [hd]
  exact yields_of_exec_eq_aluReg (he s) (hf _ _)

/-- A register-form word shift: its amount, too, is read from a low word (R270). -/
theorem yieldsSextOfLowWords_of_shift {shift : Word32 → BitVec 5 → Word32}
    (he : ∀ s, exec i s = aluReg i rd rs1 rs2 (fun a b => sext32 (shift (low32 a) (amount5 b))) s)
    (hd : rdOf (encode i) = rd) : YieldsSextOfLowWords i := by
  refine yieldsSextOfLowWords_of_aluReg he hd (fun a b => shift a (b.extractLsb' 0 5)) fun a b => ?_
  rw [amount5_eq_extract_low32]

end Shapes

/-- Every word instruction is a sign-extended function of low words (R269). -/
theorem wordOp_yieldsSextOfLowWords {i : Instr} {k : Kind} (hk : i.kind = some k)
    (hw : isWordOp k = true) : YieldsSextOfLowWords i := by
  cases i with
  | addiw rd rs1 imm =>
    exact yieldsSextOfLowWords_of_aluImm (exec_addiw rd rs1 imm) (rdOf_encodeI ..) (· + low32 (immI imm))
      fun a => congrArg sext32 (low32_add a _)
  | slliw rd rs1 shamt =>
    exact yieldsSextOfLowWords_of_aluImm (exec_slliw rd rs1 shamt) (rdOf_encodeR (m := .opImm32) ..)
      (shiftLeft32 · shamt) fun _ => rfl
  | srliw rd rs1 shamt =>
    exact yieldsSextOfLowWords_of_aluImm (exec_srliw rd rs1 shamt) (rdOf_encodeR (m := .opImm32) ..)
      (shiftRightLogical32 · shamt) fun _ => rfl
  | sraiw rd rs1 shamt =>
    exact yieldsSextOfLowWords_of_aluImm (exec_sraiw rd rs1 shamt) (rdOf_encodeR (m := .opImm32) ..)
      (shiftRightArith32 · shamt) fun _ => rfl
  | addw rd rs1 rs2 =>
    exact yieldsSextOfLowWords_of_aluReg (exec_addw rd rs1 rs2) (rdOf_encodeR ..) (· + ·) fun _ _ => rfl
  | subw rd rs1 rs2 =>
    exact yieldsSextOfLowWords_of_aluReg (exec_subw rd rs1 rs2) (rdOf_encodeR ..) (· - ·) fun _ _ => rfl
  | sllw rd rs1 rs2 => exact yieldsSextOfLowWords_of_shift (exec_sllw rd rs1 rs2) (rdOf_encodeR ..)
  | srlw rd rs1 rs2 => exact yieldsSextOfLowWords_of_shift (exec_srlw rd rs1 rs2) (rdOf_encodeR ..)
  | sraw rd rs1 rs2 => exact yieldsSextOfLowWords_of_shift (exec_sraw rd rs1 rs2) (rdOf_encodeR ..)
  | halt => cases hk
  | _ => cases hk; cases hw

/-- What `rd` holds after an instruction that yields `v`: `v`, or 0 in x0. -/
theorem Yields.readReg_rd {i : Instr} {s t : State} {rd : RegIdx} {v : Word} {next : Addr}
    (h : Yields i s rd v next) (he : exec i s = .next t) : t.readReg rd = if rd = 0 then 0 else v := by
  obtain ⟨t', he', hreg, -⟩ := h
  obtain rfl : t' = t := Host.Outcome.next.inj (he'.symm.trans he)
  rw [hreg rd]
  by_cases h0 : rd = 0
  · rw [if_neg (fun hr => hr.2 h0), if_pos h0, h0]
    exact State.readReg_zero s
  · rw [if_pos ⟨rfl, h0⟩, if_neg h0]

/-- Settles O39: both states give `rd` the sign extension of one function of the same low words; x0 holds 0,
which is its own sign extension. -/
theorem wordLaw : Obligations.WordLaw := by
  intro i k s s' t t' hk hw hlow ht ht' rd
  obtain ⟨g, hg⟩ := wordOp_yieldsSextOfLowWords hk hw
  have hsame : (fun r => low32 (s.readReg r)) = fun r => low32 (s'.readReg r) := by
    funext r
    rw [low32_eq_setWidth, low32_eq_setWidth, hlow r]
  have hrd : t.readReg rd = if rd = 0 then 0 else sext32 (g fun r => low32 (s.readReg r)) :=
    (hg s).readReg_rd ht
  have hrd' : t'.readReg rd = if rd = 0 then 0 else sext32 (g fun r => low32 (s'.readReg r)) :=
    (hg s').readReg_rd ht'
  rw [hrd, hrd', hsame]
  refine ⟨rfl, ?_⟩
  split
  · rfl
  · rw [setWidth_sext32, sext32]

end Sys2Proof.Machine
end

section
/-! Proofs: the upper-immediate instructions (spec/44_upper_immediate.md R290, R291). -/

namespace Sys2Proof.Machine

/-- An instruction of the upper-immediate shape yields its result and goes on at `pc + 4`. -/
theorem yields_of_exec_eq_aluUpper {i : Instr} {rd : RegIdx} {s : State} {v w : Word}
    (he : exec i s = aluUpper i rd w s) (hv : w = v) : Yields i s rd v (s.pc + 4) := by
  obtain ⟨t, h, hreg, hpc, hmem, hctl, -⟩ := aluUpper_completes i rd w s
  rw [hv] at hreg
  exact ⟨t, he.trans h, hreg, hpc, sameMemory_of_mem_eq hmem, hctl⟩

/-- The shift and the sign extension of the upper immediate may change places (R87): the two sides have the
value of the field times 2^12. -/
theorem immU_eq_signExtend_shiftLeft (imm20 : BitVec 20) : immU imm20 = imm20.signExtend 64 <<< 12 :=
  calc immU imm20
      = BitVec.ofInt 64 (imm20 ++ 0#12).toInt := rfl
    _ = BitVec.ofInt 64 (imm20.toInt * 2 ^ 12) := by rw [BitVec.toInt_append_zero, Int.mul_comm]
    _ = imm20.signExtend 64 * BitVec.twoPow 64 12 := BitVec.ofInt_mul ..
    _ = imm20.signExtend 64 <<< 12 := BitVec.mul_twoPow_eq_shiftLeft ..

/-- Settles O13: both are the upper-immediate shape, with `immU` alone or added to the own address. -/
theorem upperImmediateResults : Obligations.UpperImmediateResults := by
  intro rd imm20 s
  have himm := immU_eq_signExtend_shiftLeft imm20
  refine ⟨⟨rfl, ?lui⟩, ⟨rfl, ?auipc⟩⟩
  case lui => exact yields_of_exec_eq_aluUpper (exec_lui ..) himm
  case auipc => exact yields_of_exec_eq_aluUpper (exec_auipc ..) (congrArg (s.pc + ·) himm)

end Sys2Proof.Machine
end

section
/-! Proofs: jal and the six branches (spec/45_control_transfer.md R310, R312 to R317). -/

namespace Sys2Proof.Machine

/-! ### jal -/

/-- An instruction of the jump shape yields its link `pc + 4` and goes on at its target. -/
theorem yields_of_exec_eq_jump {i : Instr} {rd : RegIdx} {op1 : Option Word} {target : Addr} {s : State}
    (he : exec i s = jump i rd op1 target s) : Yields i s rd (s.pc + 4) target := by
  obtain ⟨t, h, hreg, hpc, hmem, hctl, -⟩ := jump_completes i rd op1 target s
  exact ⟨t, he.trans h, hreg, hpc, sameMemory_of_mem_eq hmem, hctl⟩

/-- No carry enters bit 0: an even offset from an even address leads to an even address (R318). -/
theorem getLsbD_zero_add_signExtend {n : Nat} (hn : 0 < n) {pc : Addr} {offset : BitVec n}
    (hpc : pc.getLsbD 0 = false) (ho : offset.getLsbD 0 = false) :
    (pc + offset.signExtend 64).getLsbD 0 = false := by
  have hs : (offset.signExtend 64).getLsbD 0 = false := by
    rw [BitVec.getLsbD_signExtend, if_pos hn, ho, Bool.and_false]
  rw [BitVec.getLsbD_add (by decide), hpc, hs, BitVec.carry_zero]
  rfl

/-- Every word of jal's opcode is a jal, with its operands from the word: no other field selects (R310). -/
theorem decode_of_opcode_jal {raw : Word32} (h : opcodeOf raw = Major.jal.code) :
    decode raw = .ok (.jal (rdOf raw) (immJOf raw)) :=
  decode_of_lookup_some (ne_haltWord_of_opcode h) (lookup_jal h)

/-- Settles O14: jal is the jump shape to `pc + offset`, and its opcode alone decides the decoding. -/
theorem jalResult : Obligations.JalResult := by
  refine ⟨fun rd offset s => ⟨rfl, ?result, ?even⟩, ?decoding, rfl⟩
  case result => exact yields_of_exec_eq_jump (exec_jal ..)
  case even => exact getLsbD_zero_add_signExtend (by decide)
  case decoding => exact fun _ => decode_of_opcode_jal

/-! ### The branches -/

/-- An instruction of the branch shape whose condition decides `p` goes to `pc + offset` where `p` holds, else
to `pc + 4`, and changes nothing else. -/
theorem moves_of_exec_eq_branch {i : Instr} {rs1 rs2 : RegIdx} {offset : BitVec 13}
    {cond : Word → Word → Bool} {s : State} {p : Prop} [Decidable p]
    (he : exec i s = branch i rs1 rs2 offset cond s) (hp : cond (s.readReg rs1) (s.readReg rs2) = true ↔ p) :
    Moves i s (if decide p then s.pc + offset.signExtend 64 else s.pc + 4) := by
  obtain ⟨t, h, hreg, hpc, hmem, hctl, -⟩ := branch_completes i rs1 rs2 offset cond s
  have hcond : cond (s.readReg rs1) (s.readReg rs2) = decide p := by
    rw [Bool.eq_iff_iff, hp, decide_eq_true_iff]
  rw [hcond] at hpc
  exact ⟨t, he.trans h, hreg, hpc, sameMemory_of_mem_eq hmem, hctl⟩

/-- Settles O16: each of the six is the branch shape, with the comparison its condition decides. -/
theorem branchResults : Obligations.BranchResults := by
  intro rs1 rs2 offset s
  refine ⟨⟨rfl, ?beq⟩, ⟨rfl, ?bne⟩, ⟨rfl, ?blt⟩, ⟨rfl, ?bge⟩, ⟨rfl, ?bltu⟩, ⟨rfl, ?bgeu⟩⟩
  case beq => exact moves_of_exec_eq_branch (exec_beq ..) beq_iff_eq
  case bne => exact moves_of_exec_eq_branch (exec_bne ..) bne_iff_ne
  case blt => exact moves_of_exec_eq_branch (exec_blt ..) (lessSigned_iff ..)
  case bge => exact moves_of_exec_eq_branch (exec_bge ..) (not_lessSigned_iff ..)
  case bltu => exact moves_of_exec_eq_branch (exec_bltu ..) (lessUnsigned_iff ..)
  case bgeu => exact moves_of_exec_eq_branch (exec_bgeu ..) (not_lessUnsigned_iff ..)

end Sys2Proof.Machine
end

section
/-! Proofs: the loads and the stores, where the access is admitted (spec/46_loads_stores.md R340 to R350). -/

namespace Sys2Proof.Machine

/-! ### The loads -/

/-- An instruction of the load shape whose access is admitted yields the extension of the bytes at its address
and goes on at `pc + 4`. -/
theorem yields_of_exec_eq_load {i : Instr} {rd rs1 : RegIdx} {imm : BitVec 12} {w : Width}
    {extend : BitVec (8 * w.bytes) → Word} {s : State} {v : Word}
    (he : exec i s = load i rd rs1 imm w extend s)
    (hv : extend (memRead s.mem (loadAddr (s.readReg rs1) imm) w.bytes) = v)
    (ha : s.admits (loadAddr (s.readReg rs1) imm) w .load = true) : Yields i s rd v (s.pc + 4) := by
  obtain ⟨t, h, hreg, hpc, hmem, hctl, -⟩ := load_completes i rd rs1 imm w extend s ha
  rw [hv] at hreg
  exact ⟨t, he.trans h, hreg, hpc, sameMemory_of_mem_eq hmem, hctl⟩

/-- Settles O17: each of the seven is the load shape of its width and extension; for ld the extension of 64 bits
to 64 bits is the value itself (R343). -/
theorem loadResults : Obligations.LoadResults := by
  intro rd rs1 imm s
  refine ⟨⟨rfl, ?lb⟩, ⟨rfl, ?lh⟩, ⟨rfl, ?lw⟩, ⟨rfl, ?ld⟩, ⟨rfl, ?lbu⟩, ⟨rfl, ?lhu⟩, ⟨rfl, ?lwu⟩⟩
  case lb => exact yields_of_exec_eq_load (exec_lb ..) rfl
  case lh => exact yields_of_exec_eq_load (exec_lh ..) rfl
  case lw => exact yields_of_exec_eq_load (exec_lw ..) rfl
  case ld => exact yields_of_exec_eq_load (exec_ld ..) (BitVec.signExtend_eq _)
  case lbu => exact yields_of_exec_eq_load (exec_lbu ..) rfl
  case lhu => exact yields_of_exec_eq_load (exec_lhu ..) rfl
  case lwu => exact yields_of_exec_eq_load (exec_lwu ..) rfl

/-! ### The stores -/

/-- An instruction of the store shape whose access is admitted writes the low bytes of `rs2` at its address, changes
no byte outside them, no register and no status, and goes on at `pc + 4`. -/
theorem stores_of_exec_eq_store {i : Instr} {rs1 rs2 : RegIdx} {imm : BitVec 12} {w : Width} {s : State}
    (he : exec i s = store i rs1 rs2 imm w s)
    (ha : s.admits (storeAddr (s.readReg rs1) imm) w .store = true) :
    ∃ t, exec i s = .next t ∧ SameRegisters s t ∧ t.pc = s.pc + 4 ∧ SameControl s t ∧
      (∀ b, t.readByte b =
        (memWrite s.mem (storeAddr (s.readReg rs1) imm) w.bytes (s.readReg rs2)).readByte b) ∧
      (∀ b, (∀ k, k < w.bytes → b ≠ storeAddr (s.readReg rs1) imm + BitVec.ofNat 64 k) →
        t.readByte b = s.readByte b) := by
  obtain ⟨t, h, hreg, hpc, hmem, hctl, -⟩ := store_completes i rs1 rs2 imm w s ha
  have hstored : ∀ b, t.readByte b =
      (memWrite s.mem (storeAddr (s.readReg rs1) imm) w.bytes (s.readReg rs2)).readByte b :=
    fun b => congrArg (Memory.readByte · b) hmem
  exact ⟨t, he.trans h, hreg, hpc, hctl, hstored,
    fun b hb => (hstored b).trans (readByte_memWrite_other _ _ _ b _ hb)⟩

/-- Settles O19: each of the four is the store shape of its width. -/
theorem storeResults : Obligations.StoreResults := by
  intro rs1 rs2 imm s
  refine ⟨rfl, ⟨rfl, ?sb⟩, ⟨rfl, ?sh⟩, ⟨rfl, ?sw⟩, ⟨rfl, ?sd⟩⟩
  case sb => exact stores_of_exec_eq_store (exec_sb ..)
  case sh => exact stores_of_exec_eq_store (exec_sh ..)
  case sw => exact stores_of_exec_eq_store (exec_sw ..)
  case sd => exact stores_of_exec_eq_store (exec_sd ..)

end Sys2Proof.Machine
end

section
/-! Proofs: how a step ends: the halt sentinel, and the four outcomes (spec/60_exceptions.md R400, R403). -/

namespace Sys2Proof.Machine

/-! ### The halt sentinel -/

/-- The halt answers from every state, with HALTED and a record that ends at the halt test. -/
theorem exec_halt_stops (s : State) :
    exec .halt s = .next (s.stopHalt haltWord) ∧
      (s.stopHalt haltWord).retired = some { Record.fetched s.pc haltWord with isHalt := true } := by
  refine ⟨exec_halt s, ?_⟩
  rw [State.stopHalt_retired, Record.decoded_halt s.pc haltWord rfl]

/-- Settles O26: the halt's next state differs from `s` in the status and the record alone, and the sentinel
is the word that decodes to it. -/
theorem haltSentinelEndsTheRun : Obligations.HaltSentinelEndsTheRun := by
  constructor
  · intro s
    obtain ⟨he, hret⟩ := exec_halt_stops s
    exact ⟨_, _, he, s.stopHalt_status haltWord, s.stopHalt_pc haltWord, s.stopHalt_readReg haltWord,
      s.stopHalt_readByte haltWord, s.stopHalt_refused haltWord, hret, rfl, rfl, rfl⟩
  · intro s hr ha hw
    exact step_of_decode hr ha ((decode_eq_halt_iff s.fetchWord).2 hw)

/-! ### The four outcomes -/

/-- A commit leaves the run status as it was. -/
theorem Committed.status {i : Instr} {k : Kind} {s t : State} {m : Memory} {o : StageOutputs}
    (h : Committed i k s t m o) : t.status = s.status := by
  rw [h.commits, State.commit_status]

/-- The fetch is refused, or it is admitted and a data access of the decoded instruction is refused. -/
def State.RefusesAccess (s : State) : Prop :=
  s.admits s.pc .word .fetch = false ∨
    (s.admits s.pc .word .fetch = true ∧
      ∃ i q, decode s.fetchWord = .ok i ∧ q ∈ dataRequest s i ∧ s.admitsRequest q = false)

/-- A step in RUNNING answers a next state, or is stuck because an access of it is refused; the model refuses
no instruction. -/
theorem step_next_or_stuck {s : State} (hr : s.status = .running) :
    (∃ t, step s = .next t) ∨ (∃ f, step s = .fault f ∧ s.RefusesAccess) := by
  cases ha : s.admits s.pc .word .fetch with
  | false => exact .inr ⟨.fetchRefused s.pc, by rw [step_running hr, ha]; rfl, .inl ha⟩
  | true =>
    cases hd : decode s.fetchWord with
    | error e => exact .inl ⟨s.raiseIllegal s.fetchWord, by rw [step_running hr, ha, hd]; rfl⟩
    | ok i =>
      rw [step_of_decode hr ha hd]
      obtain ⟨t, he, -⟩ | ⟨f, q, he, hq, hrefused⟩ := exec_endsByRequest i s
      · exact .inl ⟨t, he⟩
      · exact .inr ⟨f, he, .inr ⟨ha, i, q, hd, hq, hrefused⟩⟩

/-- Settles O29: a step that answers a next state halts, is illegal or commits, by the inversion of the step;
one that does not is stuck on a refused access. -/
theorem stepEndsInOneOutcome : Obligations.StepEndsInOneOutcome := by
  intro s hr
  obtain ⟨t, h⟩ | hstuck := step_next_or_stuck hr
  · obtain ⟨-, ⟨hw, rfl⟩ | ⟨hw, hl, rfl⟩ | ⟨k, hw, hl, -, m, o, hc⟩⟩ := step_next hr h
    · exact .inr (.inl ⟨_, h, State.stopHalt_status .., hw⟩)
    · exact .inr (.inr (.inl ⟨_, h, State.raiseIllegal_status .., hw, hl⟩))
    · exact .inl ⟨t, h, hc.status.trans hr, hw, by rw [hl]; rfl⟩
  · exact .inr (.inr (.inr hstuck))

end Sys2Proof.Machine
end

section
/-! Proofs: encoding and decoding are inverse to each other (spec/30_encoding.md sections 1 to 4). -/

namespace Sys2Proof

/-- The operands read from a well-formed instruction's word are the instruction's own. -/
theorem withOperands_encode {i : Instr} {k : Kind} (hk : i.kind = some k) (hw : i.WellFormed) :
    withOperands k (encode i) = i := by
  cases i with
  | addi | slti | sltiu | xori | ori | andi | addiw | jalr | lb | lh | lw | ld | lbu | lhu | lwu =>
    cases hk
    simp only [withOperands, encode, rdOf_encodeI, rs1Of_encodeI, immIOf_encodeI]
  | slli | srli | srai =>
    cases hk
    simp only [withOperands, encode, rdOf_encodeShift6, rs1Of_encodeShift6, shamt6Of_encodeShift6]
  | slliw | srliw | sraiw =>
    cases hk
    simp only [withOperands, encode, encodeShift5_eq_encodeR, shamt5Of_eq_rs2Of, rdOf_encodeR, rs1Of_encodeR,
      rs2Of_encodeR]
  | add | sub | sll | slt | sltu | xor | srl | sra | or | and | addw | subw | sllw | srlw | sraw =>
    cases hk
    simp only [withOperands, encode, rdOf_encodeR, rs1Of_encodeR, rs2Of_encodeR]
  | lui | auipc =>
    cases hk
    simp only [withOperands, encode, rdOf_encodeU, immUOf_encodeU]
  | jal rd offset =>
    cases hk
    simp only [withOperands, encode, rdOf_encodeUJ, immJOf_encodeUJ offset rd hw]
  | beq rs1 rs2 offset | bne rs1 rs2 offset | blt rs1 rs2 offset | bge rs1 rs2 offset | bltu rs1 rs2 offset
  | bgeu rs1 rs2 offset =>
    cases hk
    simp only [withOperands, encode, rs1Of_encodeSB, rs2Of_encodeSB, immBOf_encodeSB offset _ _ _ hw]
  | sb | sh | sw | sd =>
    cases hk
    simp only [withOperands, encode, rs1Of_encodeS, rs2Of_encodeS, immSOf_encodeS]
  | halt => cases hk

/-- The halt alone has no kind (R97). -/
theorem kind_eq_none_iff (i : Instr) : i.kind = none ↔ i = .halt := by
  cases i <;> simp [Instr.kind]

/-- Only the halt's word is the sentinel. -/
theorem encode_ne_haltWord {i : Instr} {k : Kind} (hk : i.kind = some k) : encode i ≠ haltWord := by
  obtain ⟨hm, -⟩ := lookup_key ((Laws.lookup_encode i).trans hk)
  exact ne_haltWord_of_opcode hm

/-- Settles O1: the halt by the halt test, every other instruction by the lookup of its word and its operands
read back. -/
theorem decodeOfEncodeIsIdentity : Obligations.DecodeOfEncodeIsIdentity := by
  intro i hw
  cases hk : i.kind with
  | none =>
    obtain rfl := (kind_eq_none_iff i).1 hk
    exact (decode_eq_halt_iff _).2 rfl
  | some k =>
    have hl : lookup (encode i) = some k := (Laws.lookup_encode i).trans hk
    rw [decode_of_lookup_some (encode_ne_haltWord hk) hl, withOperands_encode hk hw]

/-- Settles O2, by the inversion of `decode`: the sentinel is the halt's word, and a looked-up word is that of
its kind with its operands. -/
theorem encodeOfDecodeIsIdentity : Obligations.EncodeOfDecodeIsIdentity := by
  intro raw i hd
  obtain ⟨rfl, rfl⟩ | ⟨-, k, hl, rfl⟩ := decode_ok hd
  · exact ⟨rfl, rfl⟩
  · exact ⟨encode_withOperands hl, withOperands_wellFormed k raw⟩

/-- Settles O6: each word decoded by evaluation. -/
theorem publishedWordsDecodeAsPrinted : Obligations.PublishedWordsDecodeAsPrinted :=
  ⟨rfl, rfl, rfl, rfl, rfl, rfl, rfl, rfl, rfl, rfl, rfl, rfl, rfl, rfl, rfl⟩

end Sys2Proof
end

section
/-! Proofs: the record of a step, and the machine's invariant (spec/10_state.md R27, R31; 40_pipeline.md R131 to
R147; 60_exceptions.md R402). -/

namespace Sys2Proof.Machine

/-! ### The record of the decode stage -/

section Decoded
variable (pc : Addr) (raw : Word32)

theorem Record.withFields_opcode (r : Record) : (r.withFields raw).opcode = r.opcode := by
  unfold Record.withFields; split <;> rfl
theorem Record.withFields_isHalt (r : Record) : (r.withFields raw).isHalt = r.isHalt := by
  unfold Record.withFields; split <;> rfl
theorem Record.withFields_flags (r : Record) : (r.withFields raw).flags = r.flags := by
  unfold Record.withFields; split <;> rfl

/-- Field extraction for a major opcode: exactly the fields of its format (30_encoding.md R83). -/
theorem Record.withFields_of_major {m : Major} (h : majorOf (opcodeOf raw) = some m) (r : Record) :
    r.withFields raw =
      { r with
        rd := definedField m.format.definesRd (rdOf raw)
        funct3 := definedField m.format.definesFunct3 (funct3Of raw)
        rs1 := definedField m.format.definesRs1 (rs1Of raw)
        rs2 := definedField m.format.definesRs2 (rs2Of raw)
        funct7 := definedField m.format.definesFunct7 (funct7Of raw) } := by
  rw [Record.withFields, h]

@[simp] theorem definedField_isSome {α : Type} (defines : Bool) (v : α) :
    (definedField defines v).isSome = defines := by
  cases defines <;> rfl

/-- The stages after decode have put nothing into the record (R31; 40_pipeline.md R137 to R141). -/
def Record.EndsAtDecode (r : Record) : Prop :=
  r.op1 = none ∧ r.op2 = none ∧ r.result = none ∧ r.addr = none ∧ r.memResult = none ∧ r.nextPC = none

theorem Record.withFields_endsAtDecode {r : Record} (h : r.EndsAtDecode) : (r.withFields raw).EndsAtDecode := by
  unfold Record.withFields; split <;> exact h

/-- Every record holds the word's opcode (40_pipeline.md R132). -/
theorem Record.decoded_opcode : (Record.decoded pc raw).opcode = opcodeOf raw := by
  unfold Record.decoded
  simp only
  split
  · rfl
  · split <;> exact Record.withFields_opcode raw _
/-- The decode stage's record holds no value of a later stage. -/
theorem Record.decoded_endsAtDecode : (Record.decoded pc raw).EndsAtDecode := by
  have hf : (Record.fetched pc raw).EndsAtDecode := ⟨rfl, rfl, rfl, rfl, rfl, rfl⟩
  unfold Record.decoded
  simp only
  split
  · exact hf
  · split <;> exact Record.withFields_endsAtDecode (r := { Record.fetched pc raw with isNop := _ }) raw hf

end Decoded

/-! The status flags of the three kinds of record (40_pipeline.md R133, R136) -/

section StatusFlags
variable {raw : Word32} (pc : Addr)

theorem Record.decoded_haltWord_flags :
    (Record.decoded pc haltWord).isHalt = true ∧ (Record.decoded pc haltWord).isLegal = none ∧
      (Record.decoded pc haltWord).flags = none := by
  rw [Record.decoded_halt pc haltWord rfl]
  exact ⟨rfl, rfl, rfl⟩

theorem Record.decoded_illegal_flags (hw : raw ≠ haltWord) (hl : lookup raw = none) :
    (Record.decoded pc raw).isHalt = false ∧ (Record.decoded pc raw).isLegal = some false ∧
      (Record.decoded pc raw).flags = none := by
  rw [Record.decoded_illegal pc raw hw hl]
  exact ⟨Record.withFields_isHalt raw _, rfl, Record.withFields_flags raw _⟩

theorem Record.decoded_legal_flags (hw : raw ≠ haltWord) {k : Kind} (hl : lookup raw = some k) :
    (Record.decoded pc raw).isHalt = false ∧ (Record.decoded pc raw).isLegal = some true ∧
      (Record.decoded pc raw).flags = some (descriptor k) := by
  rw [Record.decoded_legal pc raw hw hl]
  exact ⟨Record.withFields_isHalt raw _, rfl, rfl⟩

end StatusFlags

/-- What a word is to the decode stage: the sentinel, an illegal word, or a legal one (R96, R97). -/
theorem word_cases (raw : Word32) :
    raw = haltWord ∨ (raw ≠ haltWord ∧ lookup raw = none) ∨ (raw ≠ haltWord ∧ ∃ k, lookup raw = some k) := by
  cases hl : lookup raw <;> by_cases hw : raw = haltWord <;> simp [hw]

section StatusFlags
variable (pc : Addr) (raw : Word32)

theorem Record.decoded_isHalt_iff : (Record.decoded pc raw).isHalt = true ↔ raw = haltWord := by
  obtain rfl | ⟨hw, hl⟩ | ⟨hw, k, hl⟩ := word_cases raw
  · simp [Record.decoded_haltWord_flags]
  · simp [Record.decoded_illegal_flags pc hw hl, hw]
  · simp [Record.decoded_legal_flags pc hw hl, hw]

theorem Record.decoded_isLegal_false_iff :
    (Record.decoded pc raw).isLegal = some false ↔ raw ≠ haltWord ∧ lookup raw = none := by
  obtain rfl | ⟨hw, hl⟩ | ⟨hw, k, hl⟩ := word_cases raw
  · simp [Record.decoded_haltWord_flags]
  · simp [Record.decoded_illegal_flags pc hw hl, hw, hl]
  · simp [Record.decoded_legal_flags pc hw hl, hl]

/-- A halt's and an illegal word's record holds no resource flags (40_pipeline.md R133, R136). -/
theorem Record.decoded_flags_none (h : raw = haltWord ∨ raw ≠ haltWord ∧ lookup raw = none) :
    (Record.decoded pc raw).flags = none := by
  obtain rfl | ⟨hw, hl⟩ := h
  · exact (Record.decoded_haltWord_flags pc).2.2
  · exact (Record.decoded_illegal_flags pc hw hl).2.2

end StatusFlags

/-! ### The cases of a step -/

/-- A step in RUNNING that answers a next state, by the fetched word: the halt, the illegal instruction, or a
commit of the looked-up kind, whose encoding the fetched word is. -/
theorem step_next_cases {s t : State} (hr : s.status = .running) (h : step s = .next t) :
    (s.fetchWord = haltWord ∧ t = s.stopHalt haltWord) ∨
      (s.fetchWord ≠ haltWord ∧ lookup s.fetchWord = none ∧ t = s.raiseIllegal s.fetchWord) ∨
      ∃ i k m o, s.fetchWord = encode i ∧ i.WellFormed ∧ s.fetchWord ≠ haltWord ∧
        lookup s.fetchWord = some k ∧ i.kind = some k ∧ Committed i k s t m o := by
  obtain ⟨-, hhalt | hillegal | ⟨k, hw, hl, -, m, o, hc⟩⟩ := step_next hr h
  · exact .inl hhalt
  · exact .inr (.inl hillegal)
  · exact .inr (.inr ⟨_, k, m, o, (encode_withOperands hl).symm, withOperands_wellFormed .., hw, hl,
      withOperands_kind .., hc⟩)

/-- A step from a terminal state leads to that state (40_pipeline.md R148). -/
theorem eq_of_step_terminal {s t : State} (hs : s.status ≠ .running) (h : step s = .next t) : t = s :=
  (Host.Outcome.next.inj ((step_terminal hs).symm.trans h)).symm

/-- Settles O32: the record is the decode stage's of the fetched word; a commit alone fills it further, and the
word of a commit is neither the sentinel nor illegal. -/
theorem everyStepReturnsItsRecord : Obligations.EveryStepReturnsItsRecord := by
  intro s t hr h
  have hhalt := Record.decoded_isHalt_iff s.pc s.fetchWord
  have hillegal := Record.decoded_isLegal_false_iff s.pc s.fetchWord
  obtain ⟨hw, rfl⟩ | ⟨hw, hl, rfl⟩ | ⟨i, k, m, o, hi, -, hw, hl, -, hc⟩ := step_next_cases hr h
  · rw [← hw]
    exact ⟨_, rfl, Record.decoded_pc .., Record.decoded_raw .., Record.decoded_opcode .., hhalt, hillegal,
      fun _ => ⟨Record.decoded_flags_none _ _ (.inl hw), Record.decoded_endsAtDecode ..⟩⟩
  · exact ⟨_, rfl, Record.decoded_pc .., Record.decoded_raw .., Record.decoded_opcode .., hhalt, hillegal,
      fun _ => ⟨Record.decoded_flags_none _ _ (.inr ⟨hw, hl⟩), Record.decoded_endsAtDecode ..⟩⟩
  · have hret := hc.retired
    rw [← hi] at hret
    refine ⟨_, hret, Record.decoded_pc .., Record.decoded_raw .., Record.decoded_opcode .., hhalt, hillegal, ?_⟩
    rintro (he | he)
    · exact absurd (hhalt.1 he) hw
    · exact absurd (hl.symm.trans (hillegal.1 he).2) (Option.some_ne_none k)

/-! ### The illegal instruction -/

/-- An admitted word that is neither the sentinel nor in the table raises the illegal instruction (R401). -/
theorem step_illegal {s : State} (hr : s.status = .running) (ha : s.admits s.pc .word .fetch = true)
    (hw : s.fetchWord ≠ haltWord) (hl : lookup s.fetchWord = none) :
    step s = .next (s.raiseIllegal s.fetchWord) := by
  rw [step_running hr, if_pos ha, decode_of_lookup_none hw hl]

/-- Settles O25: the illegal instruction changes the status and the record alone, and the record ends at the
decode stage. -/
theorem illegalWordEndsTheRun : Obligations.IllegalWordEndsTheRun := by
  intro s hr ha hw hl
  obtain ⟨hhalt, hlegal, -⟩ := Record.decoded_illegal_flags s.pc hw hl
  obtain ⟨-, -, hresult, haddr, -, hnext⟩ := Record.decoded_endsAtDecode s.pc s.fetchWord
  exact ⟨_, _, step_illegal hr ha hw hl, rfl, rfl, State.raiseIllegal_readReg s _, State.raiseIllegal_readByte s _,
    rfl, rfl, hlegal, hhalt, Record.decoded_pc .., Record.decoded_raw .., hresult, haddr, hnext⟩

/-! ### The invariant -/

section Committed
variable {i : Instr} {k : Kind} {s t : State} {m : Memory} {o : StageOutputs}

/-- A commit leaves the memory of its access stage. -/
theorem Committed.mem (h : Committed i k s t m o) : t.mem = m := by
  rw [h.commits, State.commit_mem]

theorem Committed.refused (h : Committed i k s t m o) : t.refused = s.refused := by
  rw [h.commits, State.commit_refused]

/-- A commit keeps the canonical form of memory: it leaves memory, or writes a run of bytes. -/
theorem Committed.mem_wf (h : Committed i k s t m o) (hm : s.mem.wf = true) : t.mem.wf = true := by
  rw [h.mem]
  obtain ⟨-, rfl⟩ | ⟨w, -, rfl⟩ := h.memory
  · exact hm
  · exact Memory.wf_memWrite _ _ _ _ hm

/-- The record of a commit has the fields of its format and the values its flags call for (R31). -/
theorem Committed.record_complete (h : Committed i k s t m o) (hk : i.kind = some k) :
    ((Record.decoded s.pc (encode i)).filled o).complete := by
  have hl : lookup (encode i) = some k := (Laws.lookup_encode i).trans hk
  obtain ⟨hm, -⟩ := lookup_key hl
  have hmajor : majorOf (opcodeOf (encode i)) = some (keyOf k).major := by rw [hm, majorOf_code]
  have h1 : o.op1.isSome = (descriptor k).readsRs1 := by rw [h.op1]; split <;> simp_all
  have h2 : o.op2.isSome = (descriptor k).readsRs2 := by rw [h.op2]; split <;> simp_all
  refine .inr (.inr ⟨(keyOf k).major, descriptor k, ?_⟩)
  rw [Record.decoded_legal s.pc _ (encode_ne_haltWord hk) hl, Record.withFields_of_major _ hmajor]
  exact ⟨hmajor, rfl, rfl, definedField_isSome .., definedField_isSome .., definedField_isSome ..,
    definedField_isSome .., definedField_isSome .., h1, h2, h.result, h.addr, h.memResult, rfl⟩

end Committed

theorem State.inv_stopHalt {s : State} (h : s.Inv) : (s.stopHalt haltWord).Inv where
  memory := h.memory
  haltRecord _ := ⟨_, rfl, (Record.decoded_haltWord_flags s.pc).1, Record.decoded_raw .., Record.decoded_pc ..⟩
  illegalRecord hs := by cases hs
  recordComplete := by
    rintro r ⟨⟩
    exact .inl (Record.decoded_haltWord_flags s.pc).1

theorem State.inv_raiseIllegal {s : State} {raw : Word32} (h : s.Inv) (hw : raw ≠ haltWord)
    (hl : lookup raw = none) : (s.raiseIllegal raw).Inv := by
  obtain ⟨hhalt, hlegal, -⟩ := Record.decoded_illegal_flags s.pc hw hl
  have hraw : (Record.decoded s.pc raw).raw = raw := Record.decoded_raw ..
  exact {
    memory := h.memory
    haltRecord := fun hs => by cases hs
    illegalRecord := fun _ =>
      ⟨_, rfl, hhalt, hlegal, Record.decoded_pc .., by rwa [hraw], by rwa [hraw]⟩
    recordComplete := by
      rintro r ⟨⟩
      exact .inr (.inl hlegal) }

/-- A commit in RUNNING stays in RUNNING, so only memory and the record are to be shown. -/
theorem Committed.inv {i : Instr} {k : Kind} {s t : State} {m : Memory} {o : StageOutputs}
    (h : Committed i k s t m o) (hk : i.kind = some k) (hr : s.status = .running) (hs : s.Inv) : t.Inv where
  memory := h.mem_wf hs.memory
  haltRecord ht := by rw [h.status, hr] at ht; cases ht
  illegalRecord ht := by rw [h.status, hr] at ht; cases ht
  recordComplete r ht := by
    rw [h.retired] at ht
    cases ht
    exact h.record_complete hk

/-- Settles O41: a terminal state steps to itself; each case of a step in RUNNING keeps the invariant. -/
theorem stepKeepsTheInvariant : Obligations.StepKeepsTheInvariant := by
  intro s t hs h
  by_cases hr : s.status = .running
  · obtain ⟨-, rfl⟩ | ⟨hw, hl, rfl⟩ | ⟨i, k, m, o, -, -, -, -, hk, hc⟩ := step_next_cases hr h
    · exact State.inv_stopHalt hs
    · exact State.inv_raiseIllegal hs hw hl
    · exact hc.inv hk hr hs
  · rwa [eq_of_step_terminal hr h]

/-- A running state without a record meets the invariant if its memory is canonical. -/
theorem State.inv_of_no_record {s : State} (hm : s.mem.wf = true) (hr : s.status = .running)
    (hn : s.retired = none) : s.Inv where
  memory := hm
  haltRecord hs := by rw [hr] at hs; cases hs
  illegalRecord hs := by rw [hr] at hs; cases hs
  recordComplete r hs := by rw [hn] at hs; cases hs

/-- Settles O42: reset and boot start in RUNNING with no record, and an image keeps the canonical form. -/
theorem resetMeetsTheInvariant : Obligations.ResetMeetsTheInvariant :=
  ⟨State.inv_of_no_record State.reset_memory_wf rfl rfl,
    fun p hp => State.inv_of_no_record (State.boot_memory_wf p hp) rfl rfl⟩

/-! ### The PC stays even -/

/-- Adding 4 leaves bit 0 alone. -/
theorem getLsbD_zero_add_four {pc : Addr} (h : pc.getLsbD 0 = false) : (pc + 4).getLsbD 0 = false := by
  rw [BitVec.getLsbD_add (by decide), h, BitVec.carry_zero]
  rfl

theorem evenOffset_iff {n : Nat} (offset : BitVec n) : evenOffset offset = true ↔ offset.getLsbD 0 = false :=
  beq_iff_eq

/-- Both ways out of a branch at an even PC are even, if its offset is. -/
theorem getLsbD_zero_branch {pc : Addr} {offset : BitVec 13} {taken : Prop} [Decidable taken]
    (h : pc.getLsbD 0 = false) (ho : evenOffset offset = true) :
    (if taken then pc + offset.signExtend 64 else pc + 4).getLsbD 0 = false := by
  split
  · exact getLsbD_zero_add_signExtend (by decide) h ((evenOffset_iff offset).1 ho)
  · exact getLsbD_zero_add_four h

/-- The next PC of a well-formed instruction at an even PC is even: jalr clears bit 0, and the offsets of jal and
the branches are even (R318). -/
theorem getLsbD_zero_nextPcOf {s : State} {i : Instr} (hw : i.WellFormed) (h : s.pc.getLsbD 0 = false) :
    (nextPcOf s i).getLsbD 0 = false := by
  cases i with
  | jal rd offset => exact getLsbD_zero_add_signExtend (by decide) h ((evenOffset_iff offset).1 hw)
  | jalr rd rs1 imm => simp [nextPcOf]
  | beq | bne | blt | bge | bltu | bgeu => exact getLsbD_zero_branch h hw
  | halt => exact h
  | _ => exact getLsbD_zero_add_four h

/-- Settles O43: the halt and the illegal instruction keep the PC, and a commit leaves the next PC of a decoded,
so well-formed, instruction. -/
theorem stepKeepsThePcEven : Obligations.StepKeepsThePcEven := by
  intro s t hpc h
  by_cases hr : s.status = .running
  · obtain ⟨-, rfl⟩ | ⟨-, -, rfl⟩ | ⟨i, k, m, o, -, hwf, -, -, -, hc⟩ := step_next_cases hr h
    · exact hpc
    · exact hpc
    · rw [hc.pc, hc.nextPC]
      exact getLsbD_zero_nextPcOf hwf hpc
  · rwa [eq_of_step_terminal hr h]

end Sys2Proof.Machine
end

section
/-! Proofs: the step before the instruction, the whole machine's frames, and terminal states (spec/40_pipeline.md
R144, R145, R148; 10_state.md R21, R32; 20_memory.md R55, R59). -/

namespace Sys2Proof.Machine

/-! ### The fetch -/

/-- Settles O23: the step of a decoded word. -/
theorem stepRunsTheDecodedInstruction : Obligations.StepRunsTheDecodedInstruction :=
  fun _ _ => step_of_decode

/-- A step whose fetch is refused is stuck on it. -/
theorem step_fetchRefused {s : State} (hr : s.status = .running) (ha : s.admits s.pc .word .fetch = false) :
    step s = .fault (.fetchRefused s.pc) := by
  rw [step_running hr, ha]
  rfl

/-- Settles O27: the fetch's admission is the first test, before the word is read. -/
theorem refusedFetchIsStuck : Obligations.RefusedFetchIsStuck :=
  fun _ => step_fetchRefused

/-! ### Refused requests -/

/-- A refused request of a step is the fetch, or the data access of the decoded instruction. -/
theorem refusedRequest_iff {s : State} (hr : s.status = .running) :
    (∃ q, q ∈ stepRequests s ∧ s.admitsRequest q = false) ↔ s.RefusesAccess := by
  have hfetch : s.admitsRequest (.read .fetch s.pc .word) = s.admits s.pc .word .fetch := rfl
  cases ha : s.admits s.pc .word .fetch with
  | false => simp [stepRequests_fetchRefused hr ha, State.RefusesAccess, hfetch, ha]
  | true =>
    cases hd : decode s.fetchWord with
    | error e => simp [stepRequests_illegal hr ha hd, State.RefusesAccess, hfetch, ha, hd]
    | ok i => simp [stepRequests_decoded hr ha hd, State.RefusesAccess, hfetch, ha, hd]

/-- A step that answers a next state refuses no access. -/
theorem not_refusesAccess_of_step_next {s t : State} (hr : s.status = .running) (h : step s = .next t) :
    ¬ s.RefusesAccess := by
  rintro (ha | ⟨ha, i, q, hd, hq, hrefused⟩)
  · rw [step_fetchRefused hr ha] at h
    cases h
  · rw [step_of_decode hr ha hd] at h
    obtain ⟨_, -, hadmits⟩ | ⟨f, _, he, -⟩ := exec_endsByRequest i s
    · rw [hadmits q hq] at hrefused
      cases hrefused
    · rw [he] at h
      cases h

theorem step_fault_iff_refusesAccess {s : State} (hr : s.status = .running) :
    (∃ f, step s = .fault f) ↔ s.RefusesAccess := by
  obtain ⟨t, h⟩ | ⟨f, h, hrefuses⟩ := step_next_or_stuck hr
  · exact iff_of_false (by simp [h]) (not_refusesAccess_of_step_next hr h)
  · exact iff_of_true ⟨f, h⟩ hrefuses

/-- The requests of a step in RUNNING: the fetch, then at most one data request (R32; 40_pipeline.md R141). -/
theorem stepRequests_eq_cons {s : State} (hr : s.status = .running) :
    ∃ data, stepRequests s = .read .fetch s.pc .word :: data ∧ data.length ≤ 1 := by
  cases ha : s.admits s.pc .word .fetch with
  | false => exact ⟨[], stepRequests_fetchRefused hr ha, by decide⟩
  | true =>
    cases hd : decode s.fetchWord with
    | error e => exact ⟨[], stepRequests_illegal hr ha hd, by decide⟩
    | ok i => exact ⟨_, stepRequests_decoded hr ha hd, dataRequest_length s i⟩

/-- Settles O30: both sides say that the fetch or the decoded instruction's data access is refused. -/
theorem stuckExactlyOnARefusedRequest : Obligations.StuckExactlyOnARefusedRequest := by
  intro s hr
  obtain ⟨data, hq, hlen⟩ := stepRequests_eq_cons hr
  refine ⟨(step_fault_iff_refusesAccess hr).trans (refusedRequest_iff hr).symm, ?_, ?_⟩
  · rw [hq, List.head?_cons]
  · rw [hq, List.length_cons]
    omega

/-! ### Refused data accesses -/

/-- Settles O22: each load and store is its shape, and a shape whose access is refused is stuck. -/
theorem refusedDataAccessIsStuck : Obligations.RefusedDataAccessIsStuck := by
  intro r rs1 imm s
  refine ⟨fun h => ⟨?lb, ?lbu⟩, fun h => ⟨?lh, ?lhu⟩, fun h => ⟨?lw, ?lwu⟩, fun h => ?ld, fun h => ?sb,
    fun h => ?sh, fun h => ?sw, fun h => ?sd⟩
  case lb | lbu | lh | lhu | lw | lwu | ld => exact load_stuck _ _ _ _ _ _ _ h
  case sb | sh | sw | sd => exact store_stuck _ _ _ _ _ _ h

/-! ### What a step leaves unchanged -/

/-- A step that changes a register or a byte of memory is a commit: the halt, the illegal instruction and a
terminal state change neither. -/
theorem step_committed_of_ne {s t : State} (h : step s = .next t)
    (hne : (∃ r, t.readReg r ≠ s.readReg r) ∨ ∃ a, t.readByte a ≠ s.readByte a) :
    s.status = .running ∧ ∃ i k m o, s.fetchWord = encode i ∧ lookup s.fetchWord = some k ∧
      Committed i k s t m o := by
  have hr : s.status = .running := by
    by_contra hs
    obtain rfl := eq_of_step_terminal hs h
    obtain ⟨_, h⟩ | ⟨_, h⟩ := hne <;> exact h rfl
  refine ⟨hr, ?_⟩
  obtain ⟨-, rfl⟩ | ⟨-, -, rfl⟩ | ⟨i, k, m, o, hi, -, -, hl, -, hc⟩ := step_next_cases hr h
  · obtain ⟨_, h⟩ | ⟨_, h⟩ := hne <;> exact absurd rfl h
  · obtain ⟨_, h⟩ | ⟨_, h⟩ := hne <;> exact absurd rfl h
  · exact ⟨i, k, m, o, hi, hl, hc⟩

/-- Settles O36: only a commit changes a register, and only its word's `rd`. -/
theorem onlyCommitWritesTheRegisterFile : Obligations.OnlyCommitWritesTheRegisterFile := by
  intro s t r h hne
  obtain ⟨hr, i, k, m, o, hi, hl, hc⟩ := step_committed_of_ne h (.inl ⟨r, hne⟩)
  obtain ⟨h0, hrd, hw⟩ := hc.readReg_ne hne
  rw [← hi] at hrd
  exact ⟨hr, h0, hrd, k, hl, hw⟩

/-- The one byte a commit can change is one of its store's own. -/
theorem Committed.readByte_ne {i : Instr} {k : Kind} {s t : State} {m : Memory} {o : StageOutputs}
    (h : Committed i k s t m o) {b : Addr} (hb : t.readByte b ≠ s.readByte b) :
    ∃ n, storeBytesOf k = some n ∧ ∃ j, j < n ∧
      b = storeAddr (s.readReg (rs1Of (encode i))) (immSOf (encode i)) + BitVec.ofNat 64 j := by
  unfold State.readByte at hb
  rw [h.mem] at hb
  obtain ⟨-, rfl⟩ | ⟨w, hk, rfl⟩ := h.memory
  · exact absurd rfl hb
  · refine ⟨w.bytes, hk, ?_⟩
    by_contra hn
    push Not at hn
    exact hb (readByte_memWrite_other _ _ _ b _ hn)

/-- Settles O37: only a commit changes a byte, and only as a store in its own bytes. -/
theorem onlyStoresChangeMemory : Obligations.OnlyStoresChangeMemory := by
  intro s t b h hne
  obtain ⟨hr, i, k, m, o, hi, hl, hc⟩ := step_committed_of_ne h (.inr ⟨b, hne⟩)
  obtain ⟨n, hn, hj⟩ := hc.readByte_ne hne
  rw [← hi] at hj
  exact ⟨hr, k, n, hl, hn, hj⟩

/-! ### Runs -/

/-- Settles O28: a run from a terminal state stays there, step by step. -/
theorem terminalStatesAreFinal : Obligations.TerminalStatesAreFinal := by
  intro s t hs h
  induction h with
  | refl => rfl
  | tail _ last ih =>
    subst ih
    exact eq_of_step_terminal hs last

/-- No step changes `mem_admits` (20_memory.md R59). -/
theorem step_keeps_refused {s t : State} (h : step s = .next t) : t.refused = s.refused := by
  by_cases hr : s.status = .running
  · obtain ⟨-, rfl⟩ | ⟨-, -, rfl⟩ | ⟨i, k, m, o, -, -, -, -, -, hc⟩ := step_next_cases hr h
    · exact s.stopHalt_refused haltWord
    · exact s.raiseIllegal_refused s.fetchWord
    · exact hc.refused
  · rw [eq_of_step_terminal hr h]

/-- Settles O44: each step keeps `mem_admits`, and a terminal state is final. -/
theorem runKeepsAdmissionAndTerminalStatus : Obligations.RunKeepsAdmissionAndTerminalStatus := by
  intro s t h
  constructor
  · induction h with
    | refl => rfl
    | tail _ last ih => exact (step_keeps_refused last).trans ih
  · intro hs
    rw [terminalStatesAreFinal s t hs h]

end Sys2Proof.Machine
end

section
/-! Proofs: the Memory Store: little-endian access, a load after a store, and words placed, stored and loaded at
reset where the next step fetches (spec/20_memory.md sections 2 to 5; 46_loads_stores.md section 3). -/

namespace Sys2Proof.Machine

/-! ### Little-endian access -/

/-- `MemRead` of one byte more: the first byte below the rest (R54). -/
theorem memRead_succ (m : Memory) (a : Addr) (n : Nat) :
    memRead m a (n + 1) = memRead m (a + 1) n ++ m.readByte a := rfl

theorem memRead_one (m : Memory) (a : Addr) : memRead m a 1 = m.readByte a := by
  rw [memRead_succ]
  exact BitVec.zero_width_append _ _

theorem memRead_two (m : Memory) (a : Addr) :
    memRead m a 2 = (m.readByte (a + 1) ++ m.readByte a : BitVec 16) := by
  rw [memRead_succ, memRead_one]

theorem memRead_four (m : Memory) (a : Addr) :
    memRead m a 4 =
      (m.readByte (a + 3) ++ m.readByte (a + 2) ++ m.readByte (a + 1) ++ m.readByte a : BitVec 32) := by
  rw [memRead_succ, memRead_succ, memRead_two]
  simp only [BitVec.add_assoc, BitVec.reduceAdd, BitVec.ofNat_eq_ofNat]

theorem memRead_eight (m : Memory) (a : Addr) :
    memRead m a 8 =
      (m.readByte (a + 7) ++ m.readByte (a + 6) ++ m.readByte (a + 5) ++ m.readByte (a + 4)
        ++ m.readByte (a + 3) ++ m.readByte (a + 2) ++ m.readByte (a + 1) ++ m.readByte a : BitVec 64) := by
  rw [memRead_succ, memRead_succ, memRead_succ, memRead_succ, memRead_four]
  simp only [BitVec.add_assoc, BitVec.reduceAdd, BitVec.ofNat_eq_ofNat]

/-- Settles O18: the recursion of `MemRead`, byte by byte. -/
theorem memReadIsLittleEndian : Obligations.MemReadIsLittleEndian :=
  fun m a => ⟨memRead_one m a, memRead_two m a, memRead_four m a, memRead_eight m a⟩

/-- Settles O20: byte `k` of the value is its bits from `8 * k` on. -/
theorem memWriteIsLittleEndian : Obligations.MemWriteIsLittleEndian := by
  intro m a v w
  have hw : w.bytes < 2 ^ 64 := by cases w <;> decide
  refine ⟨fun k hk => ?_, fun b hb => readByte_memWrite_other m a v b _ hb⟩
  rw [readByte_memWrite_stored m a v hw hk, BitVec.setWidth_ushiftRight_eq_extractLsb]

/-! ### A load after a store -/

/-- What `mem_admits` admits depends on the refused regions alone. -/
theorem State.admits_congr {s t : State} (h : t.refused = s.refused) (a : Addr) (w : Width) (k : AccessKind) :
    t.admits a w k = s.admits a w k := by
  rw [State.admits, State.admits, h]

/-- A load of the width and address of the store before it reads the low bytes of the stored register, which the
store left in place, and extends them (46_loads_stores.md R352). -/
theorem load_after_store {st ld : Instr} {rs1 rs2 rd : RegIdx} {imm : BitVec 12} {w : Width}
    {extend : BitVec (8 * w.bytes) → Word} {s : State} {v : Word}
    (hst : exec st s = store st rs1 rs2 imm w s) (hld : ∀ t, exec ld t = load ld rd rs1 imm w extend t)
    (hs : s.admitsAll) (hrd : rd ≠ 0) (hv : extend ((s.readReg rs2).extractLsb' 0 (8 * w.bytes)) = v) :
    ∃ t u, exec st s = .next t ∧ exec ld t = .next u ∧ u.readReg rd = v := by
  obtain ⟨t, ht, hreg, -, hmem, ⟨-, hrefused⟩, -⟩ := store_completes st rs1 rs2 imm w s (hs ..)
  have hadmits : t.admits (loadAddr (t.readReg rs1) imm) w .load = true := by
    rw [State.admits_congr hrefused]
    exact hs ..
  obtain ⟨u, hu, hload, -⟩ := load_completes ld rd rs1 imm w extend t hadmits
  have hbytes : w.bytes ≤ 8 := by cases w <;> decide
  have hread : memRead t.mem (loadAddr (t.readReg rs1) imm) w.bytes =
      (s.readReg rs2).extractLsb' 0 (8 * w.bytes) := by
    rw [hmem, hreg rs1]
    exact memRead_memWrite _ _ _ _ hbytes
  refine ⟨t, u, hst.trans ht, (hld t).trans hu, ?_⟩
  rw [hload rd, if_pos ⟨rfl, hrd⟩, hread, hv]

/-- Settles O21: the seven pairs by `load_after_store`; the low bytes are a truncation of the register. -/
theorem storeThenLoadRoundTrip : Obligations.StoreThenLoadRoundTrip := by
  intro rs1 rs2 rd imm s hs hrd after v
  have low : ∀ n, n ≤ 64 → v.extractLsb' 0 n = v.setWidth n := fun n hn =>
    (BitVec.setWidth_eq_extractLsb' hn).symm
  refine ⟨?lb, ?lbu, ?lh, ?lhu, ?lw, ?lwu, ?ld⟩
  case lb => exact load_after_store (exec_sb ..) (exec_lb rd rs1 imm) hs hrd (congrArg _ (low 8 (by decide)))
  case lbu => exact load_after_store (exec_sb ..) (exec_lbu rd rs1 imm) hs hrd (congrArg _ (low 8 (by decide)))
  case lh => exact load_after_store (exec_sh ..) (exec_lh rd rs1 imm) hs hrd (congrArg _ (low 16 (by decide)))
  case lhu => exact load_after_store (exec_sh ..) (exec_lhu rd rs1 imm) hs hrd (congrArg _ (low 16 (by decide)))
  case lw => exact load_after_store (exec_sw ..) (exec_lw rd rs1 imm) hs hrd (congrArg _ (low 32 (by decide)))
  case lwu => exact load_after_store (exec_sw ..) (exec_lwu rd rs1 imm) hs hrd (congrArg _ (low 32 (by decide)))
  case ld =>
    refine load_after_store (exec_sd ..) (exec_ld rd rs1 imm) hs hrd ?_
    exact (BitVec.signExtend_eq _).trans BitVec.extractLsb'_eq_self

/-! ### What the next step fetches -/

/-- Settles O40: the store leaves the PC at `pc + 4`, where it has put the low word. -/
theorem storeIsSeenByTheNextFetch : Obligations.StoreIsSeenByTheNextFetch := by
  intro rs1 rs2 imm s t h haddr
  rw [exec_sw] at h
  obtain ⟨t', h', -, hpc, hmem, -⟩ := store_completes (.sw rs1 rs2 imm) rs1 rs2 imm .word s (store_cases h)
  obtain rfl : t' = t := Host.Outcome.next.inj (h'.symm.trans h)
  rw [haddr] at hmem
  rw [State.fetchWord, hpc, hmem]
  exact (memRead_memWrite s.mem (s.pc + 4) (s.readReg rs2) 4 (by decide)).trans
    (low32_eq_setWidth (s.readReg rs2))

/-- Byte `k` of a word in address order. -/
theorem getElem_bytesOfWord (raw : Word32) {k : Nat} (hk : k < (bytesOfWord raw).length) :
    (bytesOfWord raw)[k] = raw.extractLsb' (8 * k) 8 := by
  have h4 : k < 4 := hk
  interval_cases k <;> rfl

/-- A word's bytes put at an address are read there as the word (20_memory.md R53). -/
theorem memRead_writeBytes_bytesOfWord (m : Memory) (a : Addr) (raw : Word32) :
    memRead (writeBytes m a (bytesOfWord raw)) a 4 = raw := by
  apply BitVec.eq_of_getLsbD_eq
  intro i hi
  have hlt : i % 8 < 8 := Nat.mod_lt _ (by decide)
  have hk : i / 8 < (bytesOfWord raw).length := show i / 8 < 4 by omega
  rw [getLsbD_memRead _ _ _ _ hi, readByte_writeBytes_stored m a _ (by simp [bytesOfWord]) _ hk,
    getElem_bytesOfWord, BitVec.getLsbD_extractLsb', Nat.div_add_mod, decide_eq_true hlt, Bool.true_and]

theorem State.placeWord_fetchWord (s : State) (raw : Word32) : (s.placeWord raw).fetchWord = raw :=
  memRead_writeBytes_bytesOfWord s.mem s.pc raw

/-- Placing a word drops every region that refuses its fetch. -/
theorem State.placeWord_admits (s : State) (raw : Word32) :
    (s.placeWord raw).admits (s.placeWord raw).pc .word .fetch = true := by
  simp [State.placeWord, State.admits]

/-- A table word of 32 bits is the word it numbers. -/
theorem tableWord_toNat (raw : Word32) : tableWord 32 raw.toNat = raw := by
  rw [tableWord, Nat.mod_eq_of_lt raw.isLt, BitVec.ofNat_toNat, BitVec.setWidth_eq]

/-- Settles O24: the placed word is fetched, its fetch is admitted, and it decodes to the instruction. -/
theorem placedWordRunsNext : Obligations.PlacedWordRunsNext := by
  intro s i hw
  rw [State.withFetchWord, tableWord_toNat]
  refine ⟨rfl, step_of_decode rfl (s.placeWord_admits _) ?_⟩
  rw [State.placeWord_fetchWord, decodeOfEncodeIsIdentity i hw]

/-! ### Boot -/

/-- Settles O45: the image is the run of bytes written at address 0, and every other field is the reset state's or
the host's. -/
theorem bootLoadsTheImage : Obligations.BootLoadsTheImage := by
  intro p before hlen s
  refine ⟨fun k hk => ?image, fun a ha => ?outside, State.reset_readReg, rfl, rfl, rfl, rfl⟩
  case image =>
    rw [← BitVec.zero_add (BitVec.ofNat 64 k)]
    exact readByte_writeBytes_stored p.memInit 0 p.image hlen k hk
  case outside =>
    refine readByte_writeBytes_other p.memInit 0 a p.image fun k hk e => ?_
    have hval : a.toNat = k := by
      rw [e.trans (BitVec.zero_add _), BitVec.toNat_ofNat, Nat.mod_eq_of_lt (by omega)]
    omega

end Sys2Proof.Machine
end

section
/-! Proofs: the outputs after a step, and how a driven run ends (spec/10_state.md R32; 40_pipeline.md R149;
60_exceptions.md R404, R417). -/

namespace Sys2Proof.Machine

/-- Settles O46: the status code of each of the three cases of a step; the halt and the illegal instruction keep
the PC. -/
theorem outputsAfterAStep : Obligations.OutputsAfterAStep := by
  intro s t hr h
  obtain ⟨hw, rfl⟩ | ⟨hw, hl, rfl⟩ | ⟨i, k, m, o, -, -, hw, hl, -, hc⟩ := step_next_cases hr h
  · exact ⟨(if_pos hw).symm, fun _ => rfl⟩
  · exact ⟨((if_neg hw).trans (if_pos hl)).symm, fun _ => rfl⟩
  · have hrunning : t.outputs.status = 0b00 := by rw [State.outputs, hc.status, hr]; rfl
    have hlegal : lookup s.fetchWord ≠ none := by rw [hl]; exact Option.some_ne_none k
    exact ⟨hrunning.trans ((if_neg hw).trans (if_neg hlegal)).symm, fun hne => absurd hrunning hne⟩

/-! ### The driver -/

@[simp] theorem Record.filled_isHalt (r : Record) (o : StageOutputs) : (r.filled o).isHalt = r.isHalt := rfl

section Drive
variable {n : Nat} {s t : State}

theorem drive_succ_ended {e : RunEnd} (h : step s = .next t) (he : afterStep t = some e) :
    drive (n + 1) s = e := by
  simp [drive, h, he]
theorem drive_succ_next (h : step s = .next t) (he : afterStep t = none) : drive (n + 1) s = drive n t := by
  simp [drive, h, he]
theorem drive_succ_fault {f : Fault} (h : step s = .fault f) : drive (n + 1) s = .stuck f s := by
  simp [drive, h]
theorem drive_succ_refused {r : Refusal} (h : step s = .refused r) : drive (n + 1) s = .notRun r s := by
  simp [drive, h]

end Drive

/-- What the driver does after a step in RUNNING: it ends the run on the sentinel and on an illegal word, and
goes on in RUNNING after a commit (R149). -/
theorem afterStep_cases {s t : State} (hr : s.status = .running) (h : step s = .next t) :
    (s.fetchWord = haltWord ∧ t = s.stopHalt haltWord ∧ afterStep t = some (.success t)) ∨
      (s.fetchWord ≠ haltWord ∧ lookup s.fetchWord = none ∧ t = s.raiseIllegal s.fetchWord ∧
        afterStep t = some (.illegalInstruction s.pc s.fetchWord t)) ∨
      (t.status = .running ∧ afterStep t = none) := by
  obtain ⟨hw, rfl⟩ | ⟨hw, hl, rfl⟩ | ⟨i, k, m, o, hi, -, hw, hl, -, hc⟩ := step_next_cases hr h
  · obtain ⟨hhalt, -, -⟩ := Record.decoded_haltWord_flags s.pc
    exact .inl ⟨hw, rfl, by simp [afterStep, hhalt]⟩
  · obtain ⟨hhalt, hlegal, -⟩ := Record.decoded_illegal_flags s.pc hw hl
    exact .inr (.inl ⟨hw, hl, rfl, by simp [afterStep, hhalt, hlegal, Record.decoded_pc, Record.decoded_raw]⟩)
  · obtain ⟨hhalt, hlegal, -⟩ := Record.decoded_legal_flags s.pc hw hl
    rw [hi] at hhalt hlegal
    exact .inr (.inr ⟨hc.status.trans hr, by simp [afterStep, hc.retired, hhalt, hlegal]⟩)

/-- The state in which a run ends is one that its end names: HALTED at the sentinel, ILLEGAL at the reported
illegal word, or still in RUNNING, for a stuck run at the step that is stuck. -/
def RunEnd.Described : RunEnd → Prop
  | .success t => t.status = .halted ∧ t.fetchWord = haltWord
  | .illegalInstruction pc raw t =>
    t.status = .illegal ∧ t.pc = pc ∧ t.fetchWord = raw ∧ lookup raw = none
  | .limitReached t => t.status = .running
  | .stuck f t => t.status = .running ∧ step t = .fault f
  | .notRun _ _ => False

/-- Every run the driver makes from RUNNING ends as its end says. -/
theorem drive_described (n : Nat) {s : State} (hr : s.status = .running) : (drive n s).Described := by
  induction n generalizing s with
  | zero => exact hr
  | succ n ih =>
    obtain ⟨t, h⟩ | ⟨f, h, -⟩ := step_next_or_stuck hr
    · obtain ⟨hw, rfl, he⟩ | ⟨-, hl, rfl, he⟩ | ⟨ht, he⟩ := afterStep_cases hr h
      · rw [drive_succ_ended h he]
        exact ⟨rfl, hw⟩
      · rw [drive_succ_ended h he]
        exact ⟨rfl, rfl, rfl, hl⟩
      · rw [drive_succ_next h he]
        exact ih ht
    · rw [drive_succ_fault h]
      exact ⟨hr, h⟩

/-- R417: the exit code of an illegal instruction is neither 0 nor the load-failure code, whatever the seeds. -/
theorem exitIllegal_ne : Config.exitIllegal ≠ 0 ∧ Config.exitIllegal ≠ Config.exitLoadFailure := by
  unfold Config.exitIllegal Config.exitLoadFailure
  split <;> omega

/-- Settles O47: each end by `drive_described`, with the exit code of that end. -/
theorem driverEndsAndExitCodes : Obligations.DriverEndsAndExitCodes := by
  intro n s hr
  have hend := drive_described n hr
  refine ⟨fun t he => ?success, fun pc raw t he => ?illegal, fun t he => ?limit, fun f t he => ?stuck,
    fun r t he => ?notRun⟩ <;> rw [he] at hend
  case success =>
    obtain ⟨hstatus, hw⟩ := hend
    exact ⟨hstatus, hw, by rw [he]; rfl⟩
  case illegal =>
    obtain ⟨hstatus, hpc, hw, hl⟩ := hend
    exact ⟨hstatus, hpc, hw, hl, Config.exitIllegal, by rw [he]; rfl, exitIllegal_ne⟩
  case limit => exact ⟨hend, by rw [he]; rfl⟩
  case stuck => exact hend
  case notRun => exact hend

/-- A run that has ended before its limit ends in the same way under a larger limit. -/
theorem drive_add (n k : Nat) {s : State} (h : ∀ t, drive n s ≠ .limitReached t) :
    drive (n + k) s = drive n s := by
  induction n generalizing s with
  | zero => exact absurd rfl (h s)
  | succ n ih =>
    rw [Nat.succ_add]
    cases hs : step s with
    | fault f => rw [drive_succ_fault hs, drive_succ_fault hs]
    | refused r => rw [drive_succ_refused hs, drive_succ_refused hs]
    | next t =>
      cases he : afterStep t with
      | some e => rw [drive_succ_ended hs he, drive_succ_ended hs he]
      | none =>
        rw [drive_succ_next hs he] at h
        rw [drive_succ_next hs he, drive_succ_next hs he, ih h]

/-- Settles O48: two runs that ended agree under the sum of their limits. -/
theorem runEndIsIndependentOfTheLimit : Obligations.RunEndIsIndependentOfTheLimit := by
  refine ⟨fun n k s => drive_add n k, ?_⟩
  rintro s _ _ ⟨n, rfl, hn⟩ ⟨n', rfl, hn'⟩
  calc drive n s = drive (n + n') s := (drive_add n n' hn).symm
    _ = drive (n' + n) s := by rw [Nat.add_comm]
    _ = drive n' s := drive_add n' n hn'

end Sys2Proof.Machine
end

section
/-! Proofs: the shifts as multiplication and division by a power of two, and jalr (spec/41_integer_immediate.md
R206 to R208; 42_integer_register.md R232, R236, R237, R240; 43_word_ops.md R261 to R263, R266 to R268, R270;
45_control_transfer.md R311). -/

namespace Sys2Proof.Machine

/-! ### Shifts as arithmetic -/

section Shifts
variable {w : Nat} (a : BitVec w) (n : Nat)

theorem shiftLeft_eq_ofNat_mul : a <<< n = BitVec.ofNat w (a.toNat * 2 ^ n) := by
  apply BitVec.eq_of_toNat_eq
  rw [BitVec.toNat_shiftLeft, BitVec.toNat_ofNat, Nat.shiftLeft_eq]

theorem ushiftRight_eq_ofNat_div : a >>> n = BitVec.ofNat w (a.toNat / 2 ^ n) := by
  have hlt : a.toNat / 2 ^ n < 2 ^ w := lt_of_le_of_lt (Nat.div_le_self ..) a.isLt
  apply BitVec.eq_of_toNat_eq
  rw [BitVec.toNat_ushiftRight, BitVec.toNat_ofNat, Nat.shiftRight_eq_div_pow, Nat.mod_eq_of_lt hlt]

/-- An arithmetic shift divides the signed value, rounding down. -/
theorem toInt_sshiftRight_eq_div : (a.sshiftRight n).toInt = a.toInt / 2 ^ n := by
  rw [BitVec.toInt_sshiftRight, Int.shiftRight_eq_div_pow, Nat.cast_pow, Nat.cast_ofNat]

theorem sshiftRight_eq_ofInt_div : a.sshiftRight n = BitVec.ofInt w (a.toInt / 2 ^ n) := by
  rw [← toInt_sshiftRight_eq_div, BitVec.ofInt_toInt]

/-- Sign extension of an arithmetic shift: the quotient fits every width. -/
theorem signExtend_sshiftRight_eq_ofInt_div (v : Nat) :
    (a.sshiftRight n).signExtend v = BitVec.ofInt v (a.toInt / 2 ^ n) := by
  rw [BitVec.signExtend, toInt_sshiftRight_eq_div]

end Shifts

/-- The amount of a register-form shift is `op2` modulo 64 (R240). -/
theorem toNat_amount6 (op2 : Word) : (amount6 op2).toNat = op2.toNat % 64 :=
  BitVec.extractLsb'_toNat ..

/-- The amount of a register-form word shift is `op2` modulo 32 (R270). -/
theorem toNat_amount5 (op2 : Word) : (amount5 op2).toNat = op2.toNat % 32 :=
  BitVec.extractLsb'_toNat ..

/-! ### The 64-bit shifts -/

/-- Settles O8: each of the three is the register-immediate shape with its shift. -/
theorem opImmShiftResults : Obligations.OpImmShiftResults := by
  intro rd rs1 shamt s
  refine ⟨⟨rfl, ?slli⟩, ⟨rfl, ?srli⟩, ⟨rfl, ?srai⟩⟩
  case slli => exact yields_of_exec_eq_aluImm (exec_slli ..) (shiftLeft_eq_ofNat_mul ..)
  case srli => exact yields_of_exec_eq_aluImm (exec_srli ..) (ushiftRight_eq_ofNat_div ..)
  case srai => exact yields_of_exec_eq_aluImm (exec_srai ..) (sshiftRight_eq_ofInt_div ..)

/-- Settles O10: each of the three is the register-register shape with its shift, by the amount modulo 64. -/
theorem opShiftResults : Obligations.OpShiftResults := by
  intro rd rs1 rs2 s
  rw [← toNat_amount6]
  refine ⟨⟨rfl, ?sll⟩, ⟨rfl, ?srl⟩, ⟨rfl, ?sra⟩⟩
  case sll => exact yields_of_exec_eq_aluReg (exec_sll ..) (shiftLeft_eq_ofNat_mul ..)
  case srl => exact yields_of_exec_eq_aluReg (exec_srl ..) (ushiftRight_eq_ofNat_div ..)
  case sra => exact yields_of_exec_eq_aluReg (exec_sra ..) (sshiftRight_eq_ofInt_div ..)

/-! ### The word shifts -/

/-- Settles O12: each of the six is its shape with the shift of the low word, sign-extended. -/
theorem wordShiftResults : Obligations.WordShiftResults := by
  intro rd rs1 rs2 shamt s low amount
  have hlow : low32 (s.readReg rs1) = low := low32_eq_setWidth _
  have hamount : (amount5 (s.readReg rs2)).toNat = amount := toNat_amount5 _
  refine ⟨⟨rfl, ?slliw⟩, ⟨rfl, ?srliw⟩, ⟨rfl, ?sraiw⟩, ⟨rfl, ?sllw⟩, ⟨rfl, ?srlw⟩, ⟨rfl, ?sraw⟩⟩
  case slliw =>
    refine yields_of_exec_eq_aluImm (exec_slliw ..) ?_
    rw [hlow, shiftLeft32, shiftLeft_eq_ofNat_mul, sext32]
  case srliw =>
    refine yields_of_exec_eq_aluImm (exec_srliw ..) ?_
    rw [hlow, shiftRightLogical32, ushiftRight_eq_ofNat_div, sext32]
  case sraiw =>
    refine yields_of_exec_eq_aluImm (exec_sraiw ..) ?_
    rw [hlow, shiftRightArith32, sext32, signExtend_sshiftRight_eq_ofInt_div]
  case sllw =>
    refine yields_of_exec_eq_aluReg (exec_sllw ..) ?_
    rw [hlow, shiftLeft32, hamount, shiftLeft_eq_ofNat_mul, sext32]
  case srlw =>
    refine yields_of_exec_eq_aluReg (exec_srlw ..) ?_
    rw [hlow, shiftRightLogical32, hamount, ushiftRight_eq_ofNat_div, sext32]
  case sraw =>
    refine yields_of_exec_eq_aluReg (exec_sraw ..) ?_
    rw [hlow, shiftRightArith32, hamount, sext32, signExtend_sshiftRight_eq_ofInt_div]

/-! ### jalr -/

/-- Settles O15: jalr is the jump shape, its target read from the old base register. -/
theorem jalrResult : Obligations.JalrResult :=
  fun _ _ _ _ => ⟨rfl, yields_of_exec_eq_jump (exec_jalr ..)⟩

end Sys2Proof.Machine
end

section
/-! Proofs: the expansions of li, la and call (spec/30_encoding.md R105). -/

namespace Sys2Proof.Machine

/-! ### The two parts of a constant -/

/-- Truncation takes a sign extension back, at any widths. -/
theorem setWidth_signExtend {w v : Nat} (h : w ≤ v) (x : BitVec w) : (x.signExtend v).setWidth w = x := by
  ext i hi
  have hv : i < v := by omega
  simp [BitVec.getElem_signExtend, hi, hv]

/-- Nothing is left of the low part once it is subtracted. -/
theorem setWidth_sub_lo12 (v : Word32) : (v - (lo12 v).signExtend 32).setWidth 12 = 0#12 := by
  rw [BitVec.sub_eq_add_neg, BitVec.setWidth_add _ _ (by decide), BitVec.setWidth_neg_of_le (by decide),
    setWidth_signExtend (by decide), lo12, ← BitVec.setWidth_eq_extractLsb' (by decide)]
  exact BitVec.add_right_neg _

/-- The high part over 12 zeros is the constant without its low part. -/
theorem hi20_append_zero (v : Word32) : (hi20 v ++ 0#12 : Word32) = v - (lo12 v).signExtend 32 := by
  rw [hi20, ← setWidth_sub_lo12 v, BitVec.setWidth_eq_extractLsb' (by decide),
    BitVec.extractLsb'_append_extractLsb'_eq_extractLsb' (show 12 = 0 + 12 from rfl), BitVec.extractLsb'_eq_self]

/-- The extension of an immediate to 64 bits goes through 32 bits. -/
theorem immI_eq_sext32 (imm : BitVec 12) : immI imm = sext32 (imm.signExtend 32) :=
  congrArg (BitVec.ofInt 64) (BitVec.toInt_signExtend_of_le (by decide)).symm

/-- Modulo 2^32 the two parts always add up to the constant. -/
theorem low32_hi20_add_lo12 (v : Word32) : low32 (immU (hi20 v) + immI (lo12 v)) = v := by
  have hhi : low32 (immU (hi20 v)) = v - (lo12 v).signExtend 32 := by
    rw [low32_eq_setWidth, immU, setWidth_signExtend (by decide), hi20_append_zero]
  have hlo : low32 (immI (lo12 v)) = (lo12 v).signExtend 32 := by
    rw [low32_eq_setWidth, immI_eq_sext32, setWidth_sext32]
  rw [low32_add, hhi, hlo, BitVec.sub_add_cancel]

/-- Up to 0x7FFFF7FF the high part does not overflow (log entry 12). -/
theorem toInt_sub_lo12 {v : Word32} (h : v.toInt ≤ 0x7FFFF7FF) :
    (v - (lo12 v).signExtend 32).toInt = v.toInt - (lo12 v).toInt := by
  have hlow : (lo12 v).toNat = v.toNat % 4096 := BitVec.extractLsb'_toNat ..
  have hv := BitVec.toInt_eq_toNat_cond v
  have hlo := BitVec.toInt_eq_toNat_cond (lo12 v)
  have hlt := v.isLt
  rw [BitVec.toInt_sub, BitVec.toInt_signExtend_of_le (by decide)]
  apply Int.bmod_eq_of_le <;> omega

/-- So the two parts add up in 64 bits to the constant's sign extension. -/
theorem immU_hi20_add_immI_lo12 {v : Word32} (h : v.toInt ≤ 0x7FFFF7FF) :
    immU (hi20 v) + immI (lo12 v) = v.signExtend 64 :=
  calc immU (hi20 v) + immI (lo12 v)
      = BitVec.ofInt 64 (v - (lo12 v).signExtend 32).toInt + BitVec.ofInt 64 (lo12 v).toInt := by
        rw [immU, hi20_append_zero]; rfl
    _ = BitVec.ofInt 64 (v.toInt - (lo12 v).toInt + (lo12 v).toInt) := by
        rw [toInt_sub_lo12 h, ← BitVec.ofInt_add]
    _ = v.signExtend 64 := by rw [Int.sub_add_cancel]; rfl

/-! ### Two instructions with one destination -/

/-- Of two writes to one register the second remains. -/
theorem OnlyRegister.trans {s t u : State} {rd : RegIdx} {v v' : Word} (h : OnlyRegister s t rd v)
    (h' : OnlyRegister t u rd v') : OnlyRegister s u rd v' := by
  intro r
  rw [h' r, h r]
  split <;> rfl

/-- Two instructions that yield into the same register, one after the other. -/
theorem Yields.seq {i j : Instr} {s : State} {rd : RegIdx} {v v' : Word} {next next' : Addr}
    (h : Yields i s rd v next)
    (h' : ∀ t, OnlyRegister s t rd v → t.pc = next → Yields j t rd v' next') :
    ∃ t u, exec i s = .next t ∧ exec j t = .next u ∧ OnlyRegister s u rd v' ∧ u.pc = next' ∧
      SameMemory s u ∧ SameControl s u := by
  obtain ⟨t, he, hreg, hpc, hmem, hctl⟩ := h
  obtain ⟨u, he', hreg', hpc', hmem', hctl'⟩ := h' t hreg hpc
  exact ⟨t, u, he, he', hreg.trans hreg', hpc', fun a => (hmem' a).trans (hmem a),
    hctl'.1.trans hctl.1, hctl'.2.trans hctl.2⟩

theorem OnlyRegister.readReg_self {s t : State} {rd : RegIdx} {v : Word} (h : OnlyRegister s t rd v)
    (hrd : rd ≠ 0) : t.readReg rd = v := by
  rw [h rd, if_pos ⟨rfl, hrd⟩]

theorem pcPlus4_pcPlus4 (pc : Addr) : pc + 4 + 4 = pc + 8 := BitVec.add_assoc ..

/-- Settles O49: addiw adds the low part to what lui left and keeps the low word, the constant. -/
theorem loadImmediateExpansion : Obligations.LoadImmediateExpansion := by
  intro rd imm s hrd
  refine ⟨rfl, (yields_of_exec_eq_aluUpper (exec_lui ..) rfl).seq fun t hreg hpc => ?_⟩
  rw [← pcPlus4_pcPlus4, ← hpc]
  refine yields_of_exec_eq_aluImm (exec_addiw ..) ?_
  rw [hreg.readReg_self hrd, low32_hi20_add_lo12, sext32]

/-- Settles O50: the second instruction adds the low part to the address that auipc left. -/
theorem pcRelativeExpansions : Obligations.PcRelativeExpansions := by
  intro offset s h
  have hsum : s.pc + immU (hi20 offset) + immI (lo12 offset) = s.pc + offset.signExtend 64 := by
    rw [BitVec.add_assoc, immU_hi20_add_immI_lo12 h]
  have hauipc : ∀ rd, Yields (.auipc rd (hi20 offset)) s rd (s.pc + immU (hi20 offset)) (s.pc + 4) :=
    fun rd => yields_of_exec_eq_aluUpper (exec_auipc ..) rfl
  refine ⟨fun rd hrd => ⟨rfl, ?la⟩, rfl, ?call⟩
  case la =>
    obtain ⟨t, u, ht, hu, hreg, -⟩ := (hauipc rd).seq (j := .addi rd rd (lo12 offset))
      (v' := s.pc + offset.signExtend 64) (next' := s.pc + 4 + 4) fun t hreg hpc => by
        rw [← hpc]
        exact yields_of_exec_eq_aluImm (exec_addi ..) (by rw [hreg.readReg_self hrd, hsum])
    exact ⟨t, u, ht, hu, hreg⟩
  case call =>
    obtain ⟨t, u, ht, hu, hreg, hpc, -⟩ := (hauipc 1).seq (j := .jalr 1 1 (lo12 offset)) (v' := s.pc + 8)
      (next' := (s.pc + offset.signExtend 64) &&& 0xFFFFFFFFFFFFFFFE) fun t hreg hpc => by
        rw [← pcPlus4_pcPlus4, ← hpc, ← hsum, ← hreg.readReg_self (by decide)]
        exact yields_of_exec_eq_jump (exec_jalr ..)
    exact ⟨t, u, ht, hu, hreg, hpc⟩

end Sys2Proof.Machine
end

section
/-! Proofs: the reserved encodings, and the decoder against the opcode table's masks and patterns
(spec/30_encoding.md sections 3 and 4; INDEX.md). -/

namespace Sys2Proof

/-! ### Empty cells of the decode tables -/

/-- Every major opcode ends in 11, so the compressed space holds none. -/
theorem majorOf_compressed {opcode : BitVec 7} (h : opcode.extractLsb' 0 2 ≠ 0b11) : majorOf opcode = none := by
  cases hm : majorOf opcode with
  | none => rfl
  | some m =>
    rw [← code_of_majorOf hm] at h
    cases m <;> exact absurd rfl h

/-- The major opcodes of extensions and of SYSTEM and MISC-MEM have no table entry (R90). -/
theorem majorOf_excluded : ∀ opcode ∈ [0b0001111#7, 0b1110011#7, 0b0101111#7, 0b0000111#7, 0b0100111#7,
    0b1000011#7, 0b1000111#7, 0b1001011#7, 0b1001111#7, 0b1010011#7, 0b1010111#7,
    0b0001011#7, 0b0101011#7, 0b1011011#7, 0b1111011#7], majorOf opcode = none := by decide

theorem tableB_funct7_other (m : Major) (f3 : BitVec 3) {f7 : BitVec 7} (h0 : f7 ≠ 0b0000000)
    (h32 : f7 ≠ 0b0100000) : tableB m f3 f7 = none := by
  rw [tableB, if_neg h0, if_neg h32]

/-- The only cells of funct7 = 0100000 are sub and sra, subw and sraw (R92). -/
theorem tableB_0100000 (m : Major) :
    ∀ f3 : BitVec 3, f3 ≠ 0b000 → f3 ≠ 0b101 → tableB m f3 0b0100000 = none := by
  cases m <;> decide

theorem tableB_op32_funct3_other {f3 : BitVec 3} (h : f3 ∉ [0b000#3, 0b001#3, 0b101#3]) (f7 : BitVec 7) :
    tableB .op32 f3 f7 = none := by
  have hrows : ∀ f3 ∉ [0b000#3, 0b001#3, 0b101#3],
      (rowB0 .op32).getD f3.toNat none = none ∧ (rowB32 .op32).getD f3.toNat none = none := by decide
  rw [tableB, (hrows f3 h).1, (hrows f3 h).2, ite_self, ite_self]

theorem shiftImm64_left {f6 : BitVec 6} (h : f6 ≠ 0b000000) : shiftImm64 0b001 f6 = none := by
  rw [shiftImm64, if_pos rfl, if_neg h]
theorem shiftImm64_right {f6 : BitVec 6} (h0 : f6 ≠ 0b000000) (h16 : f6 ≠ 0b010000) :
    shiftImm64 0b101 f6 = none := by
  rw [shiftImm64, if_neg (by decide), if_neg h0, if_neg h16]
theorem shiftImm32_left {f7 : BitVec 7} (h : f7 ≠ 0b0000000) : shiftImm32 0b001 f7 = none := by
  rw [shiftImm32, if_pos rfl, if_neg h]
theorem shiftImm32_right {f7 : BitVec 7} (h0 : f7 ≠ 0b0000000) (h32 : f7 ≠ 0b0100000) :
    shiftImm32 0b101 f7 = none := by
  rw [shiftImm32, if_neg (by decide), if_neg h0, if_neg h32]

/-- OP-IMM-32 has the cells 000, 001 and 101 (R91, R93). -/
theorem tableA_opImm32_other : ∀ f3 ∉ [0b000#3, 0b001#3, 0b101#3],
    isShiftCell f3 = false ∧ tableA .opImm32 f3 = none := by decide
theorem tableA_load_hole : tableA .load 0b111 = none := rfl
theorem tableA_store_holes : ∀ f3 : BitVec 3, 4 ≤ f3.toNat → tableA .store f3 = none := by decide
theorem tableA_branch_holes : ∀ f3 ∈ [0b010#3, 0b011#3], tableA .branch f3 = none := by decide
theorem tableA_jalr_holes : ∀ f3 : BitVec 3, f3 ≠ 0b000 → tableA .jalr f3 = none := by decide

/-! ### Reserved words -/

/-- The lookup of an OP or OP-32 word is table B's cell (R92). -/
theorem lookup_tableB {raw : Word32} (h : opcodeOf raw = 0b0110011 ∨ opcodeOf raw = 0b0111011) :
    ∃ m, lookup raw = tableB m (funct3Of raw) (funct7Of raw) := by
  obtain h | h := h
  · exact ⟨.op, lookup_op h⟩
  · exact ⟨.op32, lookup_op32 h⟩

theorem lookup_opImm_shift {raw : Word32} {f3 : BitVec 3} (h : opcodeOf raw = Major.opImm.code)
    (h3 : funct3Of raw = f3) (hs : isShiftCell f3 = true) : lookup raw = shiftImm64 f3 (funct6Of raw) := by
  rw [lookup_opImm h, h3, if_pos hs]
theorem lookup_opImm32_shift {raw : Word32} {f3 : BitVec 3} (h : opcodeOf raw = Major.opImm32.code)
    (h3 : funct3Of raw = f3) (hs : isShiftCell f3 = true) : lookup raw = shiftImm32 f3 (funct7Of raw) := by
  rw [lookup_opImm32 h, h3, if_pos hs]

/-- A word is rejected exactly if it is not the sentinel and has no lookup entry (R96, R97). -/
theorem decode_eq_error_iff (raw : Word32) :
    decode raw = .error (.illegalWord raw) ↔ raw ≠ haltWord ∧ lookup raw = none := by
  constructor
  · intro h
    obtain ⟨hw, hl, -⟩ := decode_error h
    exact ⟨hw, hl⟩
  · rintro ⟨hw, hl⟩
    exact decode_of_lookup_none hw hl

/-- Settles O5: each group of words is looked up in an empty cell, or under an opcode without an entry. -/
theorem reservedEncodingsAreIllegal : Obligations.ReservedEncodingsAreIllegal := by
  intro raw
  refine ⟨decode_eq_error_iff raw, fun h => ?compressed, fun h => ?excluded, fun h h0 h32 => ?funct7,
    fun h h7 h0 h5 => ?funct7_0100000, fun h h3 => ?op32, fun h h3 h6 => ?slli, fun h h3 h0 h16 => ?srli,
    fun h h3 h7 => ?slliw, fun h h3 h0 h32 => ?srliw, fun h h3 => ?opImm32, fun h h3 => ?load,
    fun h h3 => ?store, fun h h3 => ?branch, fun h h3 => ?jalr⟩
  case compressed =>
    refine lookup_none (majorOf_compressed ?_)
    rwa [opcodeOf, BitVec.extractLsb'_extractLsb'_of_le (by decide)]
  case excluded => exact lookup_none (majorOf_excluded _ h)
  case funct7 =>
    obtain ⟨m, hl⟩ := lookup_tableB h
    exact hl.trans (tableB_funct7_other m _ h0 h32)
  case funct7_0100000 =>
    obtain ⟨m, hl⟩ := lookup_tableB h
    have h7' : funct7Of raw = 0b0100000 := h7
    rw [hl, h7']
    exact tableB_0100000 m _ h0 h5
  case op32 => exact (lookup_op32 h).trans (tableB_op32_funct3_other h3 _)
  case slli => exact (lookup_opImm_shift h h3 rfl).trans (shiftImm64_left h6)
  case srli => exact (lookup_opImm_shift h h3 rfl).trans (shiftImm64_right h0 h16)
  case slliw => exact (lookup_opImm32_shift h h3 rfl).trans (shiftImm32_left h7)
  case srliw => exact (lookup_opImm32_shift h h3 rfl).trans (shiftImm32_right h0 h32)
  case opImm32 =>
    obtain ⟨hs, hcell⟩ := tableA_opImm32_other (funct3Of raw) h3
    rw [lookup_opImm32 h, hs, hcell]
    rfl
  case load =>
    have h3' : funct3Of raw = 0b111 := h3
    rw [lookup_load h, h3', tableA_load_hole]
  case store => exact (lookup_store h).trans (tableA_store_holes _ h3)
  case branch => exact (lookup_branch h).trans (tableA_branch_holes _ h3)
  case jalr => exact (lookup_jalr h).trans (tableA_jalr_holes _ h3)

/-! ### The key of a kind decides the lookup -/

/-- A word with a kind's bits is looked up as the kind (the converse of `lookup_key`). -/
theorem lookup_of_key {raw : Word32} {k : Kind} (h : (keyOf k).Holds raw) : lookup raw = some k := by
  obtain ⟨hm, h3, h7, h6⟩ := h
  cases k with
  | addi | slti | sltiu | xori | ori | andi => rw [lookup_opImm hm, h3 _ rfl]; rfl
  | slli | srli | srai => rw [lookup_opImm hm, h3 _ rfl, h6 _ rfl]; rfl
  | addiw => rw [lookup_opImm32 hm, h3 _ rfl]; rfl
  | slliw | srliw | sraiw => rw [lookup_opImm32 hm, h3 _ rfl, h7 _ rfl]; rfl
  | add | sub | sll | slt | sltu | xor | srl | sra | or | and => rw [lookup_op hm, h3 _ rfl, h7 _ rfl]; rfl
  | addw | subw | sllw | srlw | sraw => rw [lookup_op32 hm, h3 _ rfl, h7 _ rfl]; rfl
  | lui => exact lookup_lui hm
  | auipc => exact lookup_auipc hm
  | jal => exact lookup_jal hm
  | jalr => rw [lookup_jalr hm, h3 _ rfl]; rfl
  | beq | bne | blt | bge | bltu | bgeu => rw [lookup_branch hm, h3 _ rfl]; rfl
  | lb | lh | lw | ld | lbu | lhu | lwu => rw [lookup_load hm, h3 _ rfl]; rfl
  | sb | sh | sw | sd => rw [lookup_store hm, h3 _ rfl]; rfl

theorem lookup_eq_some_iff_key (raw : Word32) (k : Kind) : lookup raw = some k ↔ (keyOf k).Holds raw :=
  ⟨lookup_key, lookup_of_key⟩

/-! ### Masks and patterns -/

section Masks
variable (x y raw : Word32)

/-- A word is determined by its R fields. -/
theorem eq_iff_fieldsR : x = y ↔ opcodeOf x = opcodeOf y ∧ rdOf x = rdOf y ∧ funct3Of x = funct3Of y ∧
    rs1Of x = rs1Of y ∧ rs2Of x = rs2Of y ∧ funct7Of x = funct7Of y := by
  constructor
  · rintro rfl
    exact ⟨rfl, rfl, rfl, rfl, rfl, rfl⟩
  · rintro ⟨hm, hd, h3, h1, h2, h7⟩
    rw [← fieldsR x, hm, hd, h3, h1, h2, h7, fieldsR]

/-- A word is determined by the fields of an OP-IMM shift. -/
theorem eq_iff_fieldsShift6 : x = y ↔ opcodeOf x = opcodeOf y ∧ rdOf x = rdOf y ∧ funct3Of x = funct3Of y ∧
    rs1Of x = rs1Of y ∧ shamt6Of x = shamt6Of y ∧ funct6Of x = funct6Of y := by
  constructor
  · rintro rfl
    exact ⟨rfl, rfl, rfl, rfl, rfl, rfl⟩
  · rintro ⟨hm, hd, h3, h1, hs, h6⟩
    rw [← fieldsShift6 x, hm, hd, h3, h1, hs, h6, fieldsShift6]

theorem opcodeOf_and : opcodeOf (x &&& y) = opcodeOf x &&& opcodeOf y := BitVec.extractLsb'_and
theorem rdOf_and : rdOf (x &&& y) = rdOf x &&& rdOf y := BitVec.extractLsb'_and
theorem funct3Of_and : funct3Of (x &&& y) = funct3Of x &&& funct3Of y := BitVec.extractLsb'_and
theorem rs1Of_and : rs1Of (x &&& y) = rs1Of x &&& rs1Of y := BitVec.extractLsb'_and
theorem rs2Of_and : rs2Of (x &&& y) = rs2Of x &&& rs2Of y := BitVec.extractLsb'_and
theorem shamt6Of_and : shamt6Of (x &&& y) = shamt6Of x &&& shamt6Of y := BitVec.extractLsb'_and
theorem funct6Of_and : funct6Of (x &&& y) = funct6Of x &&& funct6Of y := BitVec.extractLsb'_and
theorem funct7Of_and : funct7Of (x &&& y) = funct7Of x &&& funct7Of y := BitVec.extractLsb'_and

variable (m : Major) (f3 : BitVec 3)

/-- Under a mask that keeps the opcode and drops the registers, a word is a pattern without registers exactly if
its opcode and its kept selector bits are the pattern's. -/
theorem and_eq_encodeR_iff (f7 : BitVec 7) {mask : Word32} (hm : opcodeOf mask = BitVec.allOnes 7)
    (hd : rdOf mask = 0#5) (h1 : rs1Of mask = 0#5) (h2 : rs2Of mask = 0#5) :
    raw &&& mask = encodeR f7 0 0 f3 0 m ↔
      opcodeOf raw = m.code ∧ funct3Of raw &&& funct3Of mask = f3 ∧ funct7Of raw &&& funct7Of mask = f7 := by
  rw [eq_iff_fieldsR, opcodeOf_and, rdOf_and, funct3Of_and, rs1Of_and, rs2Of_and, funct7Of_and, hm, hd, h1, h2,
    opcodeOf_encodeR, rdOf_encodeR, funct3Of_encodeR, rs1Of_encodeR, rs2Of_encodeR, funct7Of_encodeR,
    BitVec.and_allOnes]
  simp

theorem and_eq_encodeShift6_iff (f6 : BitVec 6) :
    raw &&& 0xFC00707F = encodeShift6 f6 0 0 f3 0 ↔
      opcodeOf raw = Major.opImm.code ∧ funct3Of raw = f3 ∧ funct6Of raw = f6 := by
  have hm : opcodeOf 0xFC00707F = BitVec.allOnes 7 := rfl
  have hd : rdOf 0xFC00707F = 0#5 := rfl
  have h3 : funct3Of 0xFC00707F = BitVec.allOnes 3 := rfl
  have h1 : rs1Of 0xFC00707F = 0#5 := rfl
  have hs : shamt6Of 0xFC00707F = 0#6 := rfl
  have h6 : funct6Of 0xFC00707F = BitVec.allOnes 6 := rfl
  rw [eq_iff_fieldsShift6, opcodeOf_and, rdOf_and, funct3Of_and, rs1Of_and, shamt6Of_and, funct6Of_and, hm, hd, h3,
    h1, hs, h6, opcodeOf_encodeShift6, rdOf_encodeShift6, funct3Of_encodeShift6, rs1Of_encodeShift6,
    shamt6Of_encodeShift6, funct6Of_encodeShift6, BitVec.and_allOnes, BitVec.and_allOnes, BitVec.and_allOnes]
  simp

end Masks

/-- The mask of a key: the opcode and the selector fields it tests. -/
def Key.mask : Key → Word32
  | ⟨_, none, _, _⟩ => 0x0000007F
  | ⟨_, some _, some _, _⟩ => 0xFE00707F
  | ⟨_, some _, none, some _⟩ => 0xFC00707F
  | ⟨_, some _, none, none⟩ => 0x0000707F

/-- The pattern of a key: its word with every operand 0. -/
def Key.pattern : Key → Word32
  | ⟨m, none, _, _⟩ => encodeR 0 0 0 0 0 m
  | ⟨m, some f3, some f7, _⟩ => encodeR f7 0 0 f3 0 m
  | ⟨_, some f3, none, some f6⟩ => encodeShift6 f6 0 0 f3 0
  | ⟨m, some f3, none, none⟩ => encodeR 0 0 0 f3 0 m

section Shapes
variable (raw : Word32) (m : Major) (f3 : BitVec 3)

theorem holds_iff_opcode :
    Key.Holds ⟨m, none, none, none⟩ raw ↔ raw &&& 0x0000007F = encodeR 0 0 0 0 0 m := by
  have h3 : funct3Of 0x0000007F = 0#3 := rfl
  have h7 : funct7Of 0x0000007F = 0#7 := rfl
  rw [and_eq_encodeR_iff raw m 0 0 rfl rfl rfl rfl, h3, h7]
  simp [Key.Holds]
theorem holds_iff_funct3 :
    Key.Holds ⟨m, some f3, none, none⟩ raw ↔ raw &&& 0x0000707F = encodeR 0 0 0 f3 0 m := by
  have h3 : funct3Of 0x0000707F = BitVec.allOnes 3 := rfl
  have h7 : funct7Of 0x0000707F = 0#7 := rfl
  rw [and_eq_encodeR_iff raw m f3 0 rfl rfl rfl rfl, h3, h7, BitVec.and_allOnes]
  simp [Key.Holds]
theorem holds_iff_funct7 (f7 : BitVec 7) :
    Key.Holds ⟨m, some f3, some f7, none⟩ raw ↔ raw &&& 0xFE00707F = encodeR f7 0 0 f3 0 m := by
  have h3 : funct3Of 0xFE00707F = BitVec.allOnes 3 := rfl
  have h7 : funct7Of 0xFE00707F = BitVec.allOnes 7 := rfl
  rw [and_eq_encodeR_iff raw m f3 f7 rfl rfl rfl rfl, h3, h7, BitVec.and_allOnes, BitVec.and_allOnes]
  simp [Key.Holds]
theorem holds_iff_funct6 (f6 : BitVec 6) :
    Key.Holds ⟨.opImm, some f3, none, some f6⟩ raw ↔ raw &&& 0xFC00707F = encodeShift6 f6 0 0 f3 0 := by
  rw [and_eq_encodeShift6_iff]
  simp [Key.Holds]

end Shapes

/-- A word has a kind's bits exactly if it meets the kind's mask and pattern. -/
theorem key_holds_iff (k : Kind) (raw : Word32) :
    (keyOf k).Holds raw ↔ raw &&& (keyOf k).mask = (keyOf k).pattern := by
  cases k with
  | slli | srli | srai => exact holds_iff_funct6 ..
  | slliw | srliw | sraiw | add | sub | sll | slt | sltu | xor | srl | sra | or | and | addw | subw | sllw | srlw
  | sraw => exact holds_iff_funct7 ..
  | lui | auipc | jal => exact holds_iff_opcode ..
  | _ => exact holds_iff_funct3 ..

/-! ### The opcode table -/

/-- The table's masks and patterns are those of the kinds' keys. -/
theorem opcodeTable_masks : ∀ row ∈ opcodeTable, ∀ k ∈ row.kind,
    row.mask = (keyOf k).mask ∧ row.pattern = (keyOf k).pattern := by decide

/-- The row without a kind is the sentinel's. -/
theorem opcodeTable_halt : ∀ row ∈ opcodeTable, row.kind = none →
    row.mask = BitVec.allOnes 32 ∧ row.pattern = haltWord := by decide

theorem opcodeTable_has_row (kind : Option Kind) : ∃ row ∈ opcodeTable, row.kind = kind := by
  cases kind with
  | none => decide
  | some k => cases k <;> decide

theorem opcodeTable_kinds_nodup : (opcodeTable.map TableRow.kind).Nodup := by decide

/-- A row has its kind in the table: no second row does. -/
theorem opcodeTable_row_eq {row row' : TableRow} (h : row ∈ opcodeTable) (h' : row' ∈ opcodeTable)
    (hk : row.kind = row'.kind) : row = row' :=
  List.inj_on_of_nodup_map opcodeTable_kinds_nodup h h' hk

/-- The lookup and the decoder agree on every word, the sentinel included: it has no entry, and its instruction no
kind. -/
theorem lookup_eq_some_iff (raw : Word32) (k : Kind) :
    lookup raw = some k ↔ ∃ i, decode raw = .ok i ∧ i.kind = some k := by
  by_cases hw : raw = haltWord
  · subst hw
    exact iff_of_false (by simp [lookup_haltWord]) (by rintro ⟨i, hd, hk⟩; cases hd; cases hk)
  · exact lookup_eq_some_iff_decode hw k

/-- A word meets a row exactly if it decodes to an instruction of the row's kind. -/
theorem matches_iff_decode {row : TableRow} (h : row ∈ opcodeTable) (raw : Word32) :
    row.matches raw ↔ ∃ i, decode raw = .ok i ∧ i.kind = row.kind := by
  unfold TableRow.matches
  cases hk : row.kind with
  | none =>
    obtain ⟨hmask, hpattern⟩ := opcodeTable_halt row h hk
    simp only [hmask, hpattern, BitVec.and_allOnes, kind_eq_none_iff, exists_eq_right, decode_eq_halt_iff]
  | some k =>
    obtain ⟨hmask, hpattern⟩ := opcodeTable_masks row h k hk
    rw [hmask, hpattern, ← key_holds_iff, ← lookup_eq_some_iff_key, lookup_eq_some_iff]

/-- Settles O3: a row's words are those that decode to its kind; a word that decodes meets the row of its kind;
and the table has one row per kind. -/
theorem decoderAgreesWithOpcodeTable : Obligations.DecoderAgreesWithOpcodeTable := by
  refine ⟨fun raw row h => matches_iff_decode h raw, fun raw hnone => ?illegal,
    fun raw row row' h h' hm hm' => ?unique⟩
  case illegal =>
    cases hd : decode raw with
    | error e => rw [(decode_error hd).2.2]
    | ok i =>
      obtain ⟨row, h, hk⟩ := opcodeTable_has_row i.kind
      exact absurd ((matches_iff_decode h raw).2 ⟨i, hd, hk.symm⟩) (hnone row h)
  case unique =>
    obtain ⟨i, hd, hk⟩ := (matches_iff_decode h raw).1 hm
    obtain ⟨i', hd', hk'⟩ := (matches_iff_decode h' raw).1 hm'
    obtain rfl : i = i' := by simpa using hd.symm.trans hd'
    exact opcodeTable_row_eq h h' (hk.symm.trans hk')

end Sys2Proof
end

section
/-! Proofs: a written line assembles back (spec/30_encoding.md R102 to R106). -/

namespace Sys2Proof.Machine

/-! ### Operands read back -/

/-- Every register is read back from its x-name (R103). -/
theorem regOfName_regName : ∀ r : RegIdx, regOfName (regName r) = some r := by decide

theorem imm12?_toInt (imm : BitVec 12) : imm12? imm.toInt = some imm := by
  have hlo := BitVec.le_toInt imm
  have hhi := BitVec.toInt_lt (x := imm)
  rw [imm12?, if_pos (by omega), BitVec.ofInt_toInt]

theorem imm20?_toNat (imm20 : BitVec 20) : imm20? imm20.toNat = some imm20 := by
  have hlt := imm20.isLt
  rw [imm20?, if_pos (by omega), BitVec.ofInt_natCast, BitVec.ofNat_toNat, BitVec.setWidth_eq]

theorem shamt6?_toNat (shamt : BitVec 6) : shamt6? shamt.toNat = some shamt := by
  have hlt := shamt.isLt
  rw [shamt6?, if_pos (by omega), BitVec.ofInt_natCast, BitVec.ofNat_toNat, BitVec.setWidth_eq]

theorem shamt5?_toNat (shamt : BitVec 5) : shamt5? shamt.toNat = some shamt := by
  have hlt := shamt.isLt
  rw [shamt5?, if_pos (by omega), BitVec.ofInt_natCast, BitVec.ofNat_toNat, BitVec.setWidth_eq]

/-- An even offset has an even value. -/
theorem toInt_emod_two {n : Nat} (hn : 0 < n) {offset : BitVec n} (h : evenOffset offset = true) :
    offset.toInt % 2 = 0 := by
  have heven : offset.toNat % 2 = 0 := by
    have hbit := (evenOffset_iff offset).1 h
    rw [BitVec.getLsbD, Nat.testBit_zero, decide_eq_false_iff_not] at hbit
    omega
  obtain ⟨half, hhalf⟩ : 2 ∣ 2 ^ n := dvd_pow_self 2 hn.ne'
  rw [BitVec.toInt_eq_toNat_cond, hhalf]
  split <;> omega

theorem offset13?_toInt {offset : BitVec 13} (h : evenOffset offset = true) :
    offset13? offset.toInt = some offset := by
  have heven := toInt_emod_two (by decide) h
  have hlo := BitVec.le_toInt offset
  have hhi := BitVec.toInt_lt (x := offset)
  rw [offset13?, if_pos (by omega), BitVec.ofInt_toInt]

theorem offset21?_toInt {offset : BitVec 21} (h : evenOffset offset = true) :
    offset21? offset.toInt = some offset := by
  have heven := toInt_emod_two (by decide) h
  have hlo := BitVec.le_toInt offset
  have hhi := BitVec.toInt_lt (x := offset)
  rw [offset21?, if_pos (by omega), BitVec.ofInt_toInt]

/-! ### The forms of a line -/

section Forms
variable (labels : String → Option Addr) (pc : Addr) {op : String} (rd rs1 rs2 : RegIdx)

theorem parseCore_lineR {f : RegIdx → RegIdx → RegIdx → Instr} (h : opR op = some f) :
    parseCore labels pc (lineR op rd rs1 rs2) = some (f rd rs1 rs2) := by
  simp [parseCore, lineR, h, regOfName_regName]

theorem parseCore_lineI {f : RegIdx → RegIdx → BitVec 12 → Instr} (hb : opSB op = none) (h : opI op = some f)
    (imm : BitVec 12) : parseCore labels pc (lineI op rd rs1 imm) = some (f rd rs1 imm) := by
  simp [parseCore, lineI, hb, h, regOfName_regName, imm12?_toInt]

theorem parseCore_lineShift6 {f : RegIdx → RegIdx → BitVec 6 → Instr} (hb : opSB op = none)
    (hi : opI op = none) (h : opShift6 op = some f) (shamt : BitVec 6) :
    parseCore labels pc (lineShift op rd rs1 shamt.toNat) = some (f rd rs1 shamt) := by
  simp [parseCore, lineShift, hb, hi, h, regOfName_regName, shamt6?_toNat]

theorem parseCore_lineShift5 {f : RegIdx → RegIdx → BitVec 5 → Instr} (hb : opSB op = none)
    (hi : opI op = none) (h6 : opShift6 op = none) (h : opShift5 op = some f) (shamt : BitVec 5) :
    parseCore labels pc (lineShift op rd rs1 shamt.toNat) = some (f rd rs1 shamt) := by
  simp [parseCore, lineShift, hb, hi, h6, h, regOfName_regName, shamt5?_toNat]

/-- A load or jalr: the destination, then the displacement and the base. -/
theorem parseCore_lineDisp {f : RegIdx → RegIdx → BitVec 12 → Instr} (h : opDisp op = some f)
    (imm : BitVec 12) : parseCore labels pc (lineDisp op rd rs1 imm) = some (f rd rs1 imm) := by
  simp [parseCore, lineDisp, h, regOfName_regName, imm12?_toInt]

/-- A store: the stored register, then the displacement and the base. -/
theorem parseCore_lineDisp_store {f : RegIdx → RegIdx → BitVec 12 → Instr} (hd : opDisp op = none)
    (h : opS op = some f) (imm : BitVec 12) :
    parseCore labels pc (lineDisp op rs2 rs1 imm) = some (f rs1 rs2 imm) := by
  simp [parseCore, lineDisp, hd, h, regOfName_regName, imm12?_toInt]

theorem parseCore_lineSB {f : RegIdx → RegIdx → BitVec 13 → Instr} (h : opSB op = some f)
    {offset : BitVec 13} (ho : evenOffset offset = true) :
    parseCore labels pc (lineSB op rs1 rs2 offset) = some (f rs1 rs2 offset) := by
  simp [parseCore, lineSB, h, regOfName_regName, distance, offset13?_toInt ho]

theorem parseCore_lineU {f : RegIdx → BitVec 20 → Instr} (hj : op ≠ "jal") (h : opU op = some f)
    (imm20 : BitVec 20) : parseCore labels pc (lineU op rd imm20) = some (f rd imm20) := by
  simp [parseCore, lineU, hj, h, regOfName_regName, imm20?_toNat]

theorem parseCore_jal {offset : BitVec 21} (ho : evenOffset offset = true) :
    parseCore labels pc ⟨"jal", [.reg (regName rd), .num offset.toInt]⟩ = some (.jal rd offset) := by
  simp [parseCore, regOfName_regName, distance, offset21?_toInt ho]

end Forms

/-- The line of a well-formed instruction is read as the instruction, by the form of its operation (R102). -/
theorem parseCore_disassemble (labels : String → Option Addr) (pc : Addr) {i : Instr} (hw : i.WellFormed) :
    parseCore labels pc (disassemble i) = some i := by
  cases i with
  | addi | slti | sltiu | xori | ori | andi | addiw => exact parseCore_lineI _ _ _ _ rfl rfl _
  | slli | srli | srai => exact parseCore_lineShift6 _ _ _ _ rfl rfl rfl _
  | slliw | srliw | sraiw => exact parseCore_lineShift5 _ _ _ _ rfl rfl rfl rfl _
  | add | sub | sll | slt | sltu | xor | srl | sra | or | and | addw | subw | sllw | srlw | sraw =>
    exact parseCore_lineR _ _ _ _ _ rfl
  | lui | auipc => exact parseCore_lineU _ _ _ (by decide) rfl _
  | jal => exact parseCore_jal _ _ _ hw
  | jalr | lb | lh | lw | ld | lbu | lhu | lwu => exact parseCore_lineDisp _ _ _ _ rfl _
  | beq | bne | blt | bge | bltu | bgeu => exact parseCore_lineSB _ _ _ _ rfl hw
  | sb | sh | sw | sd => exact parseCore_lineDisp_store _ _ _ _ rfl rfl _
  | halt => rfl

/-- No instruction is written as a data line (R106). -/
theorem parseData_disassemble (i : Instr) : parseData (disassemble i) = none := by
  cases i <;> rfl

/-- Settles O51: the line is no data line, and is read as the instruction it was written for. -/
theorem writtenLineAssemblesBack : Obligations.WrittenLineAssemblesBack := by
  intro labels pc i hw
  simp [assembleLine, parseLine, parseData_disassemble, parseCore_disassemble labels pc hw]

end Sys2Proof.Machine
end
